-- ==== Sys2Proof/Word.lean ====
section
/-! DEFINITION. The engine's plain units of data: the 32-bit word of every MMIO register and command, the byte of
every DMA access, the 32-bit physical address, and the index of a big register. -/

namespace Sys2Proof

/-- A 32-bit word: every MMIO register and every command (spec/10_state.md R25, spec/30_encoding.md R100). -/
abbrev Word := BitVec 32

/-- A byte: the unit of every DMA access (spec/20_memory.md R77). -/
abbrev Byte := BitVec 8

/-- A physical byte address, AW = 32 bits (spec/00_scope.md R6, spec/20_memory.md R70). -/
abbrev Addr := BitVec 32

/-- The index of a big register: the value `i` of a register field selects `Bi` directly
(spec/10_state.md R21, spec/30_encoding.md R102). -/
abbrev Reg := Fin 8

end Sys2Proof
end

