-- ==== Sys2Proof/Syntax.lean ====
section
/-! DEFINITION. The commands of the engine: one constructor per row of spec/opcode_table.json
(spec/30_encoding.md R105), its operands in the order RD, RA, RB, RC. -/

namespace Sys2Proof

/-- The 13 commands of spec/30_encoding.md R105. -/
inductive Instr where
  /-- NOP (spec/40_system.md R132). -/
  | nop
  /-- CLR Bd (spec/40_system.md R133). -/
  | clr (rd : Reg)
  /-- MODEXP Bd, base, exponent, modulus (spec/41_modular_arithmetic.md R151). -/
  | modexp (rd ra rb rc : Reg)
  /-- MODMUL Bd, a, b, modulus (spec/41_modular_arithmetic.md R153). -/
  | modmul (rd ra rb rc : Reg)
  /-- MONTMUL Bd, a, b, odd modulus (spec/41_modular_arithmetic.md R154). -/
  | montmul (rd ra rb rc : Reg)
  /-- EGCD Bd, a, b (spec/41_modular_arithmetic.md R156). -/
  | egcd (rd ra rb : Reg)
  /-- MODINV Bd, a, modulus (spec/41_modular_arithmetic.md R157). -/
  | modinv (rd ra rb : Reg)
  /-- PRIMETEST num (spec/42_primality.md R191). -/
  | primetest (ra : Reg)
  /-- GENPRIME Bd (spec/43_candidate_generation.md R213). -/
  | genprime (rd : Reg)
  /-- GENRAND Bd (spec/43_candidate_generation.md R215). -/
  | genrand (rd : Reg)
  /-- GENPQR p to Bd, q to Ba, r to Bb (spec/43_candidate_generation.md R216). -/
  | genpqr (rd ra rb : Reg)
  /-- EMBED (spec/44_lsb_codec.md R246). -/
  | embed
  /-- EXTRACT (spec/44_lsb_codec.md R248). -/
  | extract
  deriving DecidableEq, Repr

end Sys2Proof
end

