-- ==== Sys2Proof/WellFormed.lean ====
section
/-! DEFINITION. Which commands are well formed: the one value-dependent legality condition of the command set
(spec/30_encoding.md R107). -/

namespace Sys2Proof

/-- GENPQR writes three registers, which must be pairwise distinct; every other command is well formed with every
operand (spec/30_encoding.md R102, R107). -/
def Instr.wf : Instr → Bool
  | .nop => true
  | .clr _ => true
  | .modexp _ _ _ _ => true
  | .modmul _ _ _ _ => true
  | .montmul _ _ _ _ => true
  | .egcd _ _ _ => true
  | .modinv _ _ _ => true
  | .primetest _ => true
  | .genprime _ => true
  | .genrand _ => true
  | .genpqr rd ra rb => rd != ra && rd != rb && ra != rb
  | .embed => true
  | .extract => true

end Sys2Proof
end

