-- ==== Sys2Proof/Decode.lean ====
section
/-! DEFINITION. The decoder of command words, total on all 32-bit words (spec/30_encoding.md R100 to R107), and the
encoder written from the same fields (R101, R109). -/

namespace Sys2Proof

/-- Why a word is illegal: the four conditions of spec/30_encoding.md R106. -/
inductive Illegal where
  /-- (a): OPC is none of the 13 values of R105. -/
  | unknownOpcode
  /-- (b): RSVD is not 0. -/
  | reservedBits
  /-- (c): a field the command does not use is not 0. -/
  | unusedField
  /-- (d): GENPQR with two equal destinations (R107). -/
  | equalDestinations
  deriving DecidableEq, Repr

/-- What a command word decodes to. -/
inductive Decoded where
  | command (i : Instr)
  | illegal (why : Illegal)
  deriving DecidableEq, Repr

/-- OPC, bits [7:0] (spec/30_encoding.md R101). -/
def opcField (w : Word) : BitVec 8 := w.extractLsb' 0 8

/-- The register field whose lowest bit is `lo`, as a register index (spec/30_encoding.md R101, R102). -/
def regField (lo : Nat) (w : Word) : Reg := (w.extractLsb' lo 3).toFin

/-- RSVD, bits [31:20] (spec/30_encoding.md R101). -/
def rsvdField (w : Word) : BitVec 12 := w.extractLsb' 20 12

/-- A command whose unused fields are the ones listed: illegal by R106 (c) unless all of them are 0. -/
def withUnused (unused : List Reg) (i : Instr) : Decoded :=
  if unused.all (· == 0) then .command i else .illegal .unusedField

/-- The opcode map of spec/30_encoding.md R105, on the fields of a word whose RSVD is 0. -/
def decodeFields (opc : BitVec 8) (rd ra rb rc : Reg) : Decoded :=
  if opc = 0x00 then withUnused [rd, ra, rb, rc] .nop
  else if opc = 0x01 then withUnused [ra, rb, rc] (.clr rd)
  else if opc = 0x10 then withUnused [] (.modexp rd ra rb rc)
  else if opc = 0x11 then withUnused [] (.modmul rd ra rb rc)
  else if opc = 0x12 then withUnused [] (.montmul rd ra rb rc)
  else if opc = 0x18 then withUnused [rc] (.egcd rd ra rb)
  else if opc = 0x19 then withUnused [rc] (.modinv rd ra rb)
  else if opc = 0x20 then withUnused [rd, rb, rc] (.primetest ra)
  else if opc = 0x28 then withUnused [ra, rb, rc] (.genprime rd)
  else if opc = 0x29 then withUnused [ra, rb, rc] (.genrand rd)
  else if opc = 0x2A then
    if (Instr.genpqr rd ra rb).wf then withUnused [rc] (.genpqr rd ra rb) else .illegal .equalDestinations
  else if opc = 0x30 then withUnused [rd, ra, rb, rc] .embed
  else if opc = 0x31 then withUnused [rd, ra, rb, rc] .extract
  else .illegal .unknownOpcode

/-- The decoder: every 32-bit word is one of the 13 commands or illegal (spec/30_encoding.md R105 to R107,
spec/60_exceptions.md R298). -/
def decode (w : Word) : Decoded :=
  if rsvdField w = 0 then
    decodeFields (opcField w) (regField 8 w) (regField 11 w) (regField 14 w) (regField 17 w)
  else .illegal .reservedBits

/-- A word put together from its fields, most significant first: RSVD RC RB RA RD OPC
(spec/30_encoding.md R101). -/
def packWord (opc : BitVec 8) (rd ra rb rc : Reg) : Word :=
  0#12 ++ BitVec.ofNat 3 rc.val ++ BitVec.ofNat 3 rb.val ++ BitVec.ofNat 3 ra.val ++ BitVec.ofNat 3 rd.val ++ opc

/-- The word of a command: OPC from spec/30_encoding.md R105, unused fields 0 (R106). -/
def encode : Instr → Word
  | .nop => packWord 0x00 0 0 0 0
  | .clr rd => packWord 0x01 rd 0 0 0
  | .modexp rd ra rb rc => packWord 0x10 rd ra rb rc
  | .modmul rd ra rb rc => packWord 0x11 rd ra rb rc
  | .montmul rd ra rb rc => packWord 0x12 rd ra rb rc
  | .egcd rd ra rb => packWord 0x18 rd ra rb 0
  | .modinv rd ra rb => packWord 0x19 rd ra rb 0
  | .primetest ra => packWord 0x20 0 ra 0 0
  | .genprime rd => packWord 0x28 rd 0 0 0
  | .genrand rd => packWord 0x29 rd 0 0 0
  | .genpqr rd ra rb => packWord 0x2A rd ra rb 0
  | .embed => packWord 0x30 0 0 0 0
  | .extract => packWord 0x31 0 0 0 0

/-- The command word whose bits are `w`: a command is one 32-bit word (spec/30_encoding.md R100), so the bits above
`nbits` are 0. -/
def tableWord (nbits w : Nat) : Word := BitVec.ofNat 32 (w % 2 ^ nbits)

/-- What the decoder reads from the word whose bits are `w`; none where it is illegal. -/
def decodeTableWord (nbits w : Nat) : Option Instr :=
  match decode (tableWord nbits w) with
  | .command i => some i
  | .illegal _ => none

end Sys2Proof
end

