-- ==== Sys2Proof/Config.lean ====
section
/-! DEFINITION. What an implementation or platform fixes (the OPEN parameters of spec/00_scope.md R6, carried as plain
data in the state so that every claim holds for each of their values), and the values the spec leaves free. -/

namespace Sys2Proof

/-- The OPEN parameters of spec/00_scope.md R6. No step changes them. -/
structure Params where
  /-- `OPW_WORDS - 2`: R6 lets OPW be any multiple of 32 from 64 to 32768, so OPW_WORDS is 2 to 1024. -/
  opwExtra : Fin 1023
  /-- `BASE / 4096`: the base address of the register block is 4 KiB aligned. -/
  basePage : Nat
  /-- The ranges (first address, length) the platform memory refuses: `MemAdmits` is false exactly there. -/
  refused : List (Nat × Nat)
  /-- `DMA_COHERENT`: whether engine DMA is coherent with the host's caches. -/
  dmaCoherent : Bool
  deriving DecidableEq, Repr

namespace Params

/-- `OPW_WORDS = OPW / 32` (spec/00_scope.md R6). -/
def opwWords (p : Params) : Nat := p.opwExtra.val + 2

/-- `OPW`, the width in bits of every big register (spec/00_scope.md R6). -/
def opw (p : Params) : Nat := 32 * p.opwWords

/-- `BASE` (spec/00_scope.md R6). -/
def base (p : Params) : Nat := 4096 * p.basePage

end Params

namespace Config

/-- The value of the `n`-th draw when none waits at the entropy input: nothing constrains it but the range the
draw asks for (spec/43_candidate_generation.md R211). A free value: no body. DESIGN CHOICE of form, safe; log 7. -/
opaque freeDraw : Nat → Nat

/-- The outcome of the `n`-th race the spec leaves open (abort against the normal next step,
spec/60_exceptions.md R299; a host read of a byte being written, spec/20_memory.md R84) when none waits in the
state. A free value: no body. DESIGN CHOICE of form, safe; log 8. -/
opaque freeRace : Nat → Bool

/-- More engine steps than any command takes: by spec/70_reset_and_hazards.md R342 the longest, GENPQR, makes
at most ATTEMPT_CAP rounds of ATTEMPT_CAP candidates of ROUNDS rounds, each below 2^32. A command that took more would
only go on in the machine's next step. DESIGN CHOICE, safe; log 10. -/
def maxEngineSteps : Nat := 2 ^ 100

end Config

end Sys2Proof
end

