-- ==== Sys2Proof/Machine/State.lean ====
section
/-! DEFINITION. The state of the engine, its host port and its memory, as plain data: every piece of state spec/ names
(INVENTORY.md lists them), the reasons a step can stop, and the state after reset. -/

namespace Sys2Proof.Machine

/-! ## The big-number register file (spec/10_state.md R21, R22) -/

/-- One 32-bit word of a big register, written or unwritten (spec/10_state.md R22). The value of an unwritten word is
read by no rule: the host's read and a command's acceptance fault (spec/60_exceptions.md R298). -/
structure BigWord where
  value : Word
  written : Bool
  deriving DecidableEq, Repr

/-- One big register: its OPW_WORDS words, word 0 (bits [31:0]) first (spec/10_state.md R22). -/
abbrev BigReg := List BigWord

/-- The big registers B0 to B7 (spec/10_state.md R21). -/
abbrev BigFile := Vector BigReg 8

/-! ## The scalar registers (spec/10_state.md R25 to R43) -/

/-- The names of the ten descriptor registers (spec/10_state.md R23, R31 to R41). -/
inductive DescReg where
  | minbits | maxbits | rounds | attemptCap | pixBase | pixHeight | pixWidth | msgBase | msgLen | msgCap
  deriving DecidableEq, Repr

/-- The ten descriptor registers' contents (spec/10_state.md R31 to R34, R36 to R41). -/
structure Desc where
  minbits : Word
  maxbits : Word
  rounds : Word
  attemptCap : Word
  pixBase : Word
  pixHeight : Word
  pixWidth : Word
  msgBase : Word
  msgLen : Word
  msgCap : Word
  deriving DecidableEq, Repr

/-- CTRL.EMBED_MODE (spec/10_state.md R28): how EMBED writes a slot (spec/44_lsb_codec.md R245). -/
inductive EmbedMode where
  | setLsb
  | decrement
  deriving DecidableEq, Repr

/-- STATUS.ERR, in the order of the codes 0x0 to 0xF (spec/60_exceptions.md R291). The codes 0x3, 0x5 and 0x6 are
reserved: no command raises them. -/
inductive ErrCode where
  | ok | genFail | invNotFound | invariant | capacity | reserved5 | reserved6 | busError
  | illegalCmd | modZero | evenMod | config | range | overlap | dstOverflow | aborted
  deriving DecidableEq, Repr

/-- A register of the MMIO map by name (spec/10_state.md R25). -/
inductive MmioReg where
  | id | param | ctrl | status | cmd
  | desc (d : DescReg)
  | attempts | outLen
  /-- Offsets 0x044 to 0x0FFC (R43). -/
  | reserved
  /-- Word `i` of the window of Bk (R44). -/
  | bigWord (k : Reg) (i : Nat)
  deriving DecidableEq, Repr

/-! ## The running command (spec/10_state.md R46, R47) -/

/-- Where one run of `gen_prime` stands (spec/43_candidate_generation.md R212). -/
inductive PrimeStage where
  /-- About to test `cnt < cap` and draw a length. -/
  | attempt (cnt : Nat)
  /-- The length `len` is drawn for candidate number `cnt`. -/
  | length (cnt len : Nat)
  /-- Candidate `c`, made odd, has passed `passed` Fermat rounds. -/
  | testing (cnt c passed : Nat)
  deriving DecidableEq, Repr

/-- What one step of `gen_prime` gives: go on, FOUND or FAIL (spec/43_candidate_generation.md R212). -/
inductive PrimeEvent where
  | goOn (st : PrimeStage)
  | found (c cnt : Nat)
  | fail (cnt : Nat)
  deriving DecidableEq, Repr

/-- Where one round of GENPQR stands (spec/43_candidate_generation.md R216). -/
inductive PqrStage where
  /-- About to test `outer < ATTEMPT_CAP`. -/
  | round
  | prime (st : PrimeStage)
  | qLength (p : Nat)
  | qValue (p len : Nat)
  | rLength (p q : Nat)
  | rValue (p q len : Nat)
  /-- p, q and r are drawn: accept, or reject all three. -/
  | judge (p q r : Nat)
  deriving DecidableEq, Repr

/-- The command-specific progress of the running command (spec/10_state.md R46): what it will do at its next step. -/
inductive Progress where
  /-- Just accepted: no step made yet. -/
  | fresh
  /-- PRIMETEST: Fermat rounds passed. -/
  | fermat (passed : Nat)
  /-- GENPRIME. -/
  | prime (st : PrimeStage)
  /-- GENRAND: the configuration is legal, the length not yet drawn. -/
  | randLength
  /-- GENRAND: the drawn length. -/
  | randValue (len : Nat)
  /-- GENPQR: outer rounds begun, candidates counted so far, stage of the round. -/
  | pqr (outer total : Nat) (st : PqrStage)
  /-- EMBED: about to read message byte `j`, or to end if there is none. -/
  | embedByte (j : Nat)
  /-- EMBED: about to read slot `9j + i` for message byte `m`. -/
  | embedRead (j i : Nat) (m : Byte)
  /-- EMBED: about to write slot `9j + i`, whose sample is `v`. -/
  | embedWrite (j i : Nat) (m v : Byte)
  /-- EXTRACT: about to begin group `j`, or to end if there is none; `out` bytes written. -/
  | extractGroup (j out : Nat)
  /-- EXTRACT: about to read slot `9j + i`, with the bits `b` read so far. -/
  | extractRead (j i out : Nat) (b : Byte)
  /-- EXTRACT: the group is read: byte `b` and marker `mk` are to be acted on. -/
  | extractStore (j out : Nat) (b : Byte) (mk : Bool)
  /-- EXTRACT: the byte of the group with marker 1 is written, `out` bytes in all: only finish(OK) is left. -/
  | extractDone (out : Nat)
  deriving DecidableEq, Repr

/-- What a command captures at its acceptance (spec/10_state.md R47). -/
structure Snapshot where
  /-- The big registers, of which the command's rule reads its source fields. -/
  bigs : BigFile
  desc : Desc
  embedMode : EmbedMode
  deriving DecidableEq, Repr

/-- One byte of memory at an address, as the host states it. -/
abbrev Memory := List Host.Cell

/-- The RUNNING engine (spec/10_state.md R46): `cur`, `progress` and `abort_req`. -/
structure Running where
  /-- The accepted command word. -/
  word : Word
  snap : Snapshot
  progress : Progress
  abortReq : Bool
  /-- The model's own: the memory at acceptance, for the read race of spec/20_memory.md R84. DESIGN CHOICE, safe; log
  18. -/
  before : Memory
  deriving DecidableEq, Repr

/-! ## The host port -/

/-- One move of the host or the platform. -/
inductive HostMove where
  /-- A write of `v` at bus address `addr`, `width` bytes wide (spec/20_memory.md R71). -/
  | mmioWrite (addr width : Nat) (v : Word)
  /-- A read at bus address `addr`, `width` bytes wide. -/
  | mmioRead (addr width : Nat)
  /-- A store of one byte to memory (spec/20_memory.md R81). -/
  | memStore (a : Addr) (v : Byte)
  /-- A load of one byte from memory (spec/20_memory.md R82, R84). -/
  | memLoad (a : Addr)
  /-- Write the dirty bytes of the host's cache in `[a, a + n)` to memory (spec/20_memory.md R88). -/
  | cacheClean (a : Addr) (n : Nat)
  /-- Drop the host's cached bytes in `[a, a + n)` (spec/20_memory.md R88). -/
  | cacheInvalidate (a : Addr) (n : Nat)
  /-- Sample the `irq` level (spec/60_exceptions.md R295). -/
  | senseIrq
  /-- The platform asserts and releases reset (spec/70_reset_and_hazards.md R330). -/
  | reset
  deriving DecidableEq, Repr

/-- When a waiting host move arrives on the one interleaved order of spec/60_exceptions.md R293 (3). -/
inductive Arrival where
  /-- After `n` more engine steps, or at once if the engine is idle. -/
  | after (n : Nat)
  /-- When the engine is idle: the host waits for the completion. -/
  | whenIdle
  deriving DecidableEq, Repr

/-- A host move that has not happened yet. -/
structure HostEvent where
  arrival : Arrival
  move : HostMove
  deriving DecidableEq, Repr

/-- What the host got back from a read. -/
inductive Reply where
  | mmio (v : Word)
  | mem (v : Byte)
  | irq (level : Bool)
  deriving DecidableEq, Repr

/-- What a copy in the host's caches is good for (spec/20_memory.md R81, R82, R88). Log 4. -/
inductive CopyState where
  /-- Stored by the host; memory does not hold it yet. -/
  | dirty
  /-- As memory has it. -/
  | clean
  /-- Of a buffer of the command accepted last, and older than its completion: to be invalidated after it. -/
  | handed
  /-- Handed to an earlier command and not invalidated since. -/
  | stale
  /-- No copy: a store of the host that an invalidate dropped before it was performed at memory. -/
  | lost
  deriving DecidableEq, Repr

/-- One byte in the host's caches (spec/20_memory.md R88). -/
structure CacheByte where
  addr : Addr
  byte : Byte
  copy : CopyState
  deriving DecidableEq, Repr

/-! ## The machine -/

/-- The whole machine. INVENTORY.md's '## State' gives the rule of spec/ behind each field. -/
structure State where
  /-- The OPEN parameters (spec/00_scope.md R6); no step changes them. -/
  params : Params
  bigs : BigFile
  desc : Desc
  /-- CTRL.IE -/
  ie : Bool
  /-- CTRL.EMBED_MODE -/
  embedMode : EmbedMode
  /-- STATUS.DONE -/
  done : Bool
  /-- STATUS.OVR -/
  ovr : Bool
  /-- STATUS.ERR -/
  err : ErrCode
  /-- STATUS.PRIME -/
  prime : Bool
  /-- STATUS.NEG -/
  neg : Bool
  /-- ATTEMPTS -/
  attempts : Word
  /-- OUT_LEN -/
  outLen : Word
  /-- phase: none is IDLE, some is RUNNING; STATUS.BUSY reads it. -/
  run : Option Running
  mem : Memory
  /-- The host's cached bytes, used only when DMA is not coherent. -/
  cache : List CacheByte
  /-- The model's own: the moves that have not happened yet. -/
  inbox : List HostEvent
  /-- The model's own: what the host's reads gave, newest first. -/
  replies : List Reply
  /-- The model's own: values waiting at the entropy input, the next draw's first. -/
  entropy : List Nat
  /-- The model's own: draws made; names the free value of a draw when none waits. -/
  drawCount : Nat
  /-- The model's own: outcomes of the races to come. -/
  races : List Bool
  /-- The model's own: races settled; names the free value of a race when none waits. -/
  raceCount : Nat
  deriving DecidableEq, Repr

/-! ## Why a step can stop -/

/-- The duties of the host whose breach leaves the engine's behaviour unspecified (spec/60_exceptions.md R306). -/
inductive Duty where
  /-- Not to write a running command's buffers (spec/20_memory.md R84). -/
  | leaveBuffersAlone
  /-- To make its stores to a command's buffers performed at memory before the CMD write (spec/20_memory.md R81, R88). -/
  | performStores
  /-- To invalidate its copies of a command's buffers after the completion and before reading (spec/20_memory.md R82,
  R88). -/
  | invalidateCopies
  deriving DecidableEq, Repr

/-- The model faults of spec/60_exceptions.md R298. -/
inductive Fault where
  /-- Raised by a host read of unwritten word `i` of Bk, and by the acceptance of a command one of whose source
  registers has unwritten word `i`: the spec orders this stop (spec/10_state.md R22, spec/40_system.md R135,
  spec/60_exceptions.md R298, spec/70_reset_and_hazards.md R333). Safe: the hardware goes on with an unspecified value. -/
  | unwrittenRead (k : Reg) (i : Nat)
  /-- Raised by an MMIO access that is not an aligned 32-bit access. Safe: what the platform does with the bus error is
  outside the spec. -/
  | unsupportedMmio (off width : Nat)
  /-- Raised by a host move that breaks a duty; a host that keeps its duties never makes one. Safe: nothing is claimed of
  a host that breaks one. -/
  | hostDuty (duty : Duty)
  deriving DecidableEq, Repr

/-- Why a step is refused. -/
inductive Refusal where
  /-- Raised by no meaning of this model: every command has one. Safe. -/
  | notModelled (mnemonic : String)
  /-- Raised by an MMIO access outside the offsets 0x0000 to 0x8FFF from BASE: what answers there is the platform's
  (spec/10_state.md R43). Safe. -/
  | outsideBlock (addr : Nat)
  deriving DecidableEq, Repr

/-- How a step ends. -/
abbrev Outcome := Host.Outcome State Fault Refusal

/-! ## Reset -/

/-- The descriptor registers at reset (spec/10_state.md R25, R50). -/
def Desc.reset : Desc where
  minbits := 1024
  maxbits := 2048
  rounds := 100
  attemptCap := 65536
  pixBase := 0
  pixHeight := 0
  pixWidth := 0
  msgBase := 0
  msgLen := 0
  msgCap := 0

/-- The big registers at power-on: every word unwritten (spec/70_reset_and_hazards.md R333). The value 0 under the
unwritten mark is a DESIGN CHOICE no rule reads. Log 6. -/
def BigFile.unwritten (words : Nat) : BigFile := Vector.replicate 8 (List.replicate words ⟨0, false⟩)

/-- The machine right after reset, for any build (spec/10_state.md R50, spec/70_reset_and_hazards.md R331): memory with
nothing listed, no host move, draw or race waiting. -/
def State.resetWith (p : Params) : State where
  params := p
  bigs := BigFile.unwritten p.opwWords
  desc := Desc.reset
  ie := false
  embedMode := .setLsb
  done := false
  ovr := false
  err := .ok
  prime := false
  neg := false
  attempts := 0
  outLen := 0
  run := none
  mem := []
  cache := []
  inbox := []
  replies := []
  entropy := []
  drawCount := 0
  races := []
  raceCount := 0

/-- The build and platform State.reset takes: OPW = 64 (the convention of spec/95_test_vectors.md), BASE 0, every address
admitted, coherent DMA. DESIGN CHOICE, unsafe for a claim about State.reset alone. Logs 1 to 4. -/
def resetParams : Params := ⟨0, 0, [], true⟩

/-- The machine right after reset. -/
def State.reset : State := State.resetWith resetParams

end Sys2Proof.Machine
end

