-- ==== Sys2Proof/Machine/Ops.lean ====
section
/-! DEFINITION. The named operations over memory, big registers, free values and the command lifecycle that the
meanings are written from. `finish` is the engine's one way to report an error or a result (the "trap entry" of
spec/60_exceptions.md R294), and `acknowledge` answers it (R296). -/

namespace Sys2Proof.Machine

/-! ## Memory bytes (spec/20_memory.md R70, R77) -/

/-- What a byte of memory that nothing has written reads as. DESIGN CHOICE: the spec gives no contents. Unsafe; log 5. -/
def unlistedByte : Byte := 0

/-- The byte at address `x`. -/
def memRead : Memory → Nat → Byte
  | [], _ => unlistedByte
  | (a, b) :: rest, x => if x = a then b else memRead rest x

/-- Memory with the byte at `x` set to `v`, in the canonical form of `Memory.wf`. -/
def memWrite : Memory → Nat → Byte → Memory
  | [], x, v => if v = unlistedByte then [] else [(x, v)]
  | (a, b) :: rest, x, v =>
    if x < a then if v = unlistedByte then (a, b) :: rest else (x, v) :: (a, b) :: rest
    else if x = a then if v = unlistedByte then rest else (x, v) :: rest
    else (a, b) :: memWrite rest x v

/-- Every address of the list is at least `lo`, addresses strictly rise, each is a 32-bit address, and no entry equals
what an unlisted address reads as. -/
def Memory.wfFrom : Nat → Memory → Bool
  | _, [] => true
  | lo, (a, b) :: rest => decide (lo ≤ a) && decide (a < 2 ^ 32) && b != unlistedByte && Memory.wfFrom (a + 1) rest

/-- The canonical form of memory, so that equal memories are equal lists. -/
def Memory.wf (m : Memory) : Bool := Memory.wfFrom 0 m

/-- `n` lies in one of the ranges (first, length). -/
def inRanges (ranges : List (Nat × Nat)) (x : Nat) : Bool := ranges.any fun r => r.1 ≤ x && x < r.1 + r.2

/-- `MemAdmits(a)` (spec/00_scope.md R6). -/
def memAdmits (p : Params) (a : Addr) : Bool := !inRanges p.refused a.toNat

/-- A DMA read of one byte; none is a bus error (spec/20_memory.md R77, R78). -/
def dmaRead (a : Addr) (s : State) : Option Byte :=
  if memAdmits s.params a then some (memRead s.mem a.toNat) else none

/-- A DMA write of one byte; none is a bus error, with no effect (spec/20_memory.md R77, R78). -/
def dmaWrite (a : Addr) (v : Byte) (s : State) : Option State :=
  if memAdmits s.params a then some { s with mem := memWrite s.mem a.toNat v } else none

/-! ## Big registers (spec/10_state.md R21, R22) -/

/-- The value of a big register: the sum of its words times 2^(32 i) (spec/10_state.md R22). -/
def bigValue : BigReg → Nat
  | [] => 0
  | w :: rest => w.value.toNat + 2 ^ 32 * bigValue rest

/-- A big register of the given number of words holding `v`, every word written (spec/10_state.md R22). -/
def bigOfNat : (words : Nat) → (v : Nat) → BigReg
  | 0, _ => []
  | n + 1, v => ⟨BitVec.ofNat 32 v, true⟩ :: bigOfNat n (v / 2 ^ 32)

/-- `B[d] <- v` at a completion: every word of Bd is written (spec/10_state.md R22). -/
def setBig (d : Reg) (v : Nat) (s : State) : State :=
  { s with bigs := s.bigs.set d (bigOfNat s.params.opwWords v) }

/-- The host's write of word `i` of Bk: that word is written, the others keep their state (spec/40_system.md R134). -/
def setBigWord (k : Reg) (i : Nat) (v : Word) (s : State) : State :=
  { s with bigs := s.bigs.set k (s.bigs[k].set i ⟨v, true⟩) }

/-- The lowest unwritten word of a big register, if there is one. -/
def firstUnwritten : BigReg → Option Nat := List.findIdx? (fun w => !w.written)

/-! ## Free values -/

/-- A raw entropy value brought into `[lo, hi]`: one that lies there is taken as it is. -/
def intoRange (lo hi raw : Nat) : Nat := if lo ≤ raw ∧ raw ≤ hi then raw else lo + raw % (hi - lo + 1)

/-- The value of the next draw: any integer in `[lo, hi]` (spec/43_candidate_generation.md R211). The value waiting at
the entropy input is taken, or the free value of this draw where none waits. DESIGN CHOICE of form, safe; log 7. -/
def drawValue (lo hi : Nat) (s : State) : Nat :=
  intoRange lo hi (s.entropy.head?.getD (Config.freeDraw s.drawCount))

/-- The state after a draw. -/
def afterDraw (s : State) : State := { s with entropy := s.entropy.tail, drawCount := s.drawCount + 1 }

/-- The outcome of the next race, where the spec admits both. DESIGN CHOICE of form, safe; log 8. -/
def raceValue (s : State) : Bool := s.races.head?.getD (Config.freeRace s.raceCount)

/-- The state after a race is settled. -/
def afterRace (s : State) : State := { s with races := s.races.tail, raceCount := s.raceCount + 1 }

/-! ## Whose move it is (spec/60_exceptions.md R293 (3)). DESIGN CHOICE, safe; log 9. -/

/-- How many steps the engine makes before the host's next move. -/
def engineTurns : List HostEvent → Nat
  | ⟨.after n, _⟩ :: _ => n
  | ⟨.whenIdle, _⟩ :: _ => Config.maxEngineSteps
  | [] => Config.maxEngineSteps

/-- The waiting moves once the engine has made the steps granted to it. -/
def hostNowDue : List HostEvent → List HostEvent
  | ⟨.after _, m⟩ :: rest => ⟨.after 0, m⟩ :: rest
  | ⟨.whenIdle, m⟩ :: rest => ⟨.whenIdle, m⟩ :: rest
  | [] => []

/-- The engine's turn begins: it takes the steps granted to it before the host's next move. -/
def startTurn (s : State) : State := { s with inbox := hostNowDue s.inbox }

/-! ## The command lifecycle (spec/40_system.md R130, R131, R136) -/

/-- Acceptance of a command word: BUSY, DONE, abort_req, cur and phase change and nothing else
(spec/40_system.md R130); the snapshot is that of spec/10_state.md R47. -/
def accept (w : Word) (s : State) : State :=
  { s with
    done := false
    run := some ⟨w, ⟨s.bigs, s.desc, s.embedMode⟩, .fresh, false, s.mem⟩ }

/-- `finish(code)`: ERR, DONE, BUSY, abort_req and phase in one step (spec/40_system.md R131). Destinations, PRIME, NEG,
ATTEMPTS and OUT_LEN are written by the caller in the same step, as its rule says. -/
def finish (code : ErrCode) (s : State) : State := { s with err := code, done := true, run := none }

/-- Acknowledging completions and overruns: a write of 1 clears DONE or OVR (spec/10_state.md R29,
spec/60_exceptions.md R296, R297). -/
def acknowledge (clearDone clearOvr : Bool) (s : State) : State :=
  { s with done := s.done && !clearDone, ovr := s.ovr && !clearOvr }

/-- A busy-guarded write is dropped: only OVR changes (spec/10_state.md R49). -/
def dropWrite (s : State) : State := { s with ovr := true }

/-- The running command goes on to `p` (spec/10_state.md R46). -/
def setProgress (p : Progress) (s : State) : State :=
  { s with run := s.run.map fun r => { r with progress := p } }

/-- `abort_req <- 1` while RUNNING; no effect while idle (spec/10_state.md R28, spec/40_system.md R136). -/
def requestAbort (s : State) : State := { s with run := s.run.map fun r => { r with abortReq := true } }

/-- `finish(ABORTED)` of a command that writes neither ATTEMPTS nor OUT_LEN (spec/40_system.md R136). -/
def abortPlain (s : State) : State := finish .aborted s

/-- `finish(ABORTED)` of GENPRIME or GENPQR: ATTEMPTS is a draw, any 32-bit value (spec/40_system.md R136). Safe; log
14. -/
def abortAttempts (s : State) : State :=
  finish .aborted { afterDraw s with attempts := BitVec.ofNat 32 (drawValue 0 (2 ^ 32 - 1) s) }

/-- `finish(ABORTED)` of EMBED or EXTRACT: OUT_LEN is a draw, any 32-bit value (spec/40_system.md R136). Safe; log 14. -/
def abortOutLen (s : State) : State :=
  finish .aborted { afterDraw s with outLen := BitVec.ofNat 32 (drawValue 0 (2 ^ 32 - 1) s) }

/-- One engine step of a running command: while abort_req is 1 the engine may abort instead of making the next step of
the command's rule, a race (spec/40_system.md R136, spec/60_exceptions.md R299). -/
def engineStep (onAbort : State → State) (rule : Running → State → State) (r : Running) (s : State) : State :=
  if r.abortReq then if raceValue s then onAbort (afterRace s) else rule r (afterRace s) else rule r s

/-- At most `n` engine steps of the running command, stopping at its completion. -/
def runSteps (onAbort : State → State) (rule : Running → State → State) : Nat → State → State
  | 0, s => s
  | n + 1, s =>
    match s.run with
    | none => s
    | some r => runSteps onAbort rule n (engineStep onAbort rule r s)

/-- The engine's turn on the running command: its rule is performed step by step (spec/40_system.md R131) until it
completes or the host's next move is due. An idle engine makes no step. -/
def runCommand (onAbort : State → State) (rule : Running → State → State) (s : State) : State :=
  match s.run with
  | none => s
  | some _ => runSteps onAbort rule (engineTurns s.inbox) (startTurn s)

/-- The engine's turn on an illegal word: straight to finish(ILLEGAL_CMD), with no other effect
(spec/30_encoding.md R108, spec/40_system.md R131). DEDUCED, unsafe; log 13. -/
def runIllegal (s : State) : State := finish .illegalCmd (startTurn s)

/-- Reset (spec/70_reset_and_hazards.md R330 to R333): every MMIO register takes its reset value, a running command is
abandoned without a completion, every big-register word becomes unwritten (its content is not cleared), memory is not
written. The platform, the host's caches and the moves, replies and free values to come are not the engine's. DEDUCED,
safe; log 21. -/
def resetEngine (s : State) : State :=
  { s with
    bigs := s.bigs.map fun b => b.map fun w => { w with written := false }
    desc := Desc.reset
    ie := false
    embedMode := .setLsb
    done := false
    ovr := false
    err := .ok
    prime := false
    neg := false
    attempts := 0
    outLen := 0
    run := none }

end Sys2Proof.Machine
end

