-- ==== Sys2Proof/Machine/Operands.lean ====
section
/-! DEFINITION. Every operand form of the command set: register fields read from the snapshot
(spec/30_encoding.md R102, spec/10_state.md R47), scalar operands from the descriptors' snapshot
(spec/30_encoding.md R103), the slot geometry of the codec (spec/44_lsb_codec.md R240, R241) and the registers of the
MMIO map as the host names them (spec/10_state.md R25, R44). -/

namespace Sys2Proof.Machine

/-! ## Command operands -/

/-- `B[i]` of the snapshot, an unsigned integer in `[0, 2^OPW)` (spec/00_scope.md section 7,
spec/41_modular_arithmetic.md R150). -/
def operand (i : Reg) (r : Running) : Nat := bigValue r.snap.bigs[i]

/-- The registers a command names in source fields (spec/30_encoding.md R105). -/
def sources : Instr → List Reg
  | .nop => []
  | .clr _ => []
  | .modexp _ ra rb rc => [ra, rb, rc]
  | .modmul _ ra rb rc => [ra, rb, rc]
  | .montmul _ ra rb rc => [ra, rb, rc]
  | .egcd _ ra rb => [ra, rb]
  | .modinv _ ra rb => [ra, rb]
  | .primetest ra => [ra]
  | .genprime _ => []
  | .genrand _ => []
  | .genpqr _ _ _ => []
  | .embed => []
  | .extract => []

/-- The first unwritten word (k, i) among the given registers: of the first register in the list that has one, its lowest.
Which one the fault names where several are unwritten is a DESIGN CHOICE, safe; log 27. -/
def unwrittenSource (bigs : BigFile) : List Reg → Option (Reg × Nat)
  | [] => none
  | k :: rest =>
    match firstUnwritten bigs[k] with
    | some i => some (k, i)
    | none => unwrittenSource bigs rest

/-- The unwritten source word that makes the acceptance of a word fault (spec/60_exceptions.md R298); an illegal word
reads no source. -/
def unwrittenOperand (w : Word) (s : State) : Option (Reg × Nat) :=
  match decode w with
  | .command i => unwrittenSource s.bigs (sources i)
  | .illegal _ => none

/-! ## The codec's geometry (spec/44_lsb_codec.md R240 to R243) -/

/-- `S = 3 * PIX_HEIGHT * PIX_WIDTH`, exact (spec/44_lsb_codec.md R241). -/
def slotCount (d : Desc) : Nat := 3 * d.pixHeight.toNat * d.pixWidth.toNat

/-- `G = S div 9` complete groups (spec/44_lsb_codec.md R241). -/
def groupCount (d : Desc) : Nat := slotCount d / 9

/-- The address of slot `k`, `PIX_BASE + k` (spec/44_lsb_codec.md R240). The range check keeps the sum below 2^32. -/
def slotAddr (d : Desc) (k : Nat) : Addr := d.pixBase + BitVec.ofNat 32 k

/-- The address of message byte `j`, `MSG_BASE + j`. -/
def msgAddr (d : Desc) (j : Nat) : Addr := d.msgBase + BitVec.ofNat 32 j

/-- The range check of spec/44_lsb_codec.md R242 for a message buffer of `n` bytes: true where it fails. -/
def outOfRange (d : Desc) (n : Nat) : Bool :=
  d.pixBase.toNat + slotCount d > 2 ^ 32 || d.msgBase.toNat + n > 2 ^ 32

/-- The overlap of `[x, x + n)` and `[y, y + m)` (spec/44_lsb_codec.md R243). -/
def rangesOverlap (x n y m : Nat) : Bool := n > 0 && m > 0 && x < y + m && y < x + n

/-- The overlap check of spec/44_lsb_codec.md R243 for a message buffer of `n` bytes: true where it fails. -/
def buffersOverlap (d : Desc) (n : Nat) : Bool :=
  rangesOverlap d.pixBase.toNat (slotCount d) d.msgBase.toNat n

/-- The buffers of a command with word `w` and descriptors `d`, as (first address, length) (spec/20_memory.md R84). -/
def ownedRanges (w : Word) (d : Desc) : List (Nat × Nat) :=
  match decode w with
  | .command .embed => [(d.pixBase.toNat, slotCount d), (d.msgBase.toNat, d.msgLen.toNat)]
  | .command .extract => [(d.pixBase.toNat, slotCount d), (d.msgBase.toNat, d.msgCap.toNat)]
  | _ => []

/-- The buffer such a command may write: the pixels of EMBED, the message of EXTRACT
(spec/20_memory.md R84, spec/44_lsb_codec.md R246, R248). -/
def writableRanges (w : Word) (d : Desc) : List (Nat × Nat) :=
  match decode w with
  | .command .embed => [(d.pixBase.toNat, slotCount d)]
  | .command .extract => [(d.msgBase.toNat, d.msgCap.toNat)]
  | _ => []

/-! ## The host's operands: the MMIO map -/

/-- The scalar registers of spec/10_state.md R25 and their offsets. -/
def scalarMap : List (Nat × MmioReg) :=
  [ (0x000, .id), (0x004, .param), (0x008, .ctrl), (0x00C, .status), (0x010, .cmd),
    (0x014, .desc .minbits), (0x018, .desc .maxbits), (0x01C, .desc .rounds), (0x020, .desc .attemptCap),
    (0x024, .attempts),
    (0x028, .desc .pixBase), (0x02C, .desc .pixHeight), (0x030, .desc .pixWidth),
    (0x034, .desc .msgBase), (0x038, .desc .msgLen), (0x03C, .desc .msgCap),
    (0x040, .outLen) ]

/-- The register at an aligned offset of the block (spec/10_state.md R25, R43, R44). -/
def regAt (off : Nat) : MmioReg :=
  if off < 0x1000 then (scalarMap.lookup off).getD .reserved
  else .bigWord (Fin.ofNat 8 (off / 0x1000 - 1)) (off % 0x1000 / 4)

/-- The content of a descriptor register. -/
def Desc.get (d : Desc) : DescReg → Word
  | .minbits => d.minbits
  | .maxbits => d.maxbits
  | .rounds => d.rounds
  | .attemptCap => d.attemptCap
  | .pixBase => d.pixBase
  | .pixHeight => d.pixHeight
  | .pixWidth => d.pixWidth
  | .msgBase => d.msgBase
  | .msgLen => d.msgLen
  | .msgCap => d.msgCap

/-- The descriptors with one register set. -/
def Desc.set (d : Desc) (which : DescReg) (v : Word) : Desc :=
  match which with
  | .minbits => { d with minbits := v }
  | .maxbits => { d with maxbits := v }
  | .rounds => { d with rounds := v }
  | .attemptCap => { d with attemptCap := v }
  | .pixBase => { d with pixBase := v }
  | .pixHeight => { d with pixHeight := v }
  | .pixWidth => { d with pixWidth := v }
  | .msgBase => { d with msgBase := v }
  | .msgLen => { d with msgLen := v }
  | .msgCap => { d with msgCap := v }

end Sys2Proof.Machine
end

