-- ==== Sys2Proof/Machine/Arithmetic.lean ====
section
/-! DEFINITION. The modular arithmetic of spec/41_modular_arithmetic.md: MODEXP, MODMUL, MONTMUL, EGCD, MODINV. Each is one
engine step after acceptance: no step inside it is observable (R159). DEDUCED, safe; log 11. -/

namespace Sys2Proof.Machine

/-! ## Exact functions -/

/-- Square-and-multiply: `acc * base ^ e mod m` for an exponent below `2 ^ fuel`. DEDUCED, safe; log 20. -/
def powModAux (m : Nat) : (fuel acc base e : Nat) → Nat
  | 0, acc, _, _ => acc
  | n + 1, acc, base, e =>
    powModAux m n (if e % 2 = 1 then acc * base % m else acc) (base * base % m) (e / 2)

/-- `base ^ e mod m`, exact, `base ^ 0 = 1` for every base (spec/41_modular_arithmetic.md R151, R152); the method is not
architectural (R159). `Laws.powMod_eq` says that it is `base ^ e % m`. DEDUCED, safe; log 20. -/
def powMod (base e m : Nat) : Nat := powModAux m (Nat.log2 e + 1) (1 % m) (base % m) e

/-- `r * 2^(-n) mod m` for odd `m` and `r < m`, by halving `n` times. DEDUCED, safe; log 20. -/
def halveMod (m : Nat) : (n r : Nat) → Nat
  | 0, r => r
  | n + 1, r => halveMod m n (if r % 2 = 0 then r / 2 else (r + m) / 2)

/-- The Montgomery product with radix `2 ^ opw`: for odd `m`, the `r` in `[0, m)` with `r * 2^opw = x * y` modulo `m`
(spec/41_modular_arithmetic.md R154). DEDUCED, safe; log 20. -/
def montProduct (opw x y m : Nat) : Nat := halveMod m opw (x * y % m)

/-- The recurrence of spec/41_modular_arithmetic.md R155, while `r1 != 0`. -/
def egcdLoop : (fuel r0 r1 : Nat) → (x0 x1 : Int) → Int
  | 0, _, _, x0, _ => x0
  | n + 1, r0, r1, x0, x1 =>
    if r1 = 0 then x0
    else egcdLoop n r1 (r0 - r0 / r1 * r1) x1 (x0 - (r0 / r1 : Nat) * x1)

/-- `egcd_x(a, b)` (spec/41_modular_arithmetic.md R155); `r1` falls at every turn, so `b + 1` turns are enough. -/
def egcdX (a b : Nat) : Int := egcdLoop (b + 1) a b 1 0

/-- The candidate of MODINV: `egcd_x(a, m)`, with `m` added if negative (spec/41_modular_arithmetic.md R157). -/
def inverseCandidate (a m : Nat) : Nat :=
  let x := egcdX a m
  (if x < 0 then x + m else x).toNat

/-! ## modexp_engine -/

/-- MODEXP (spec/41_modular_arithmetic.md R151). -/
def modexpRule (rd ra rb rc : Reg) (r : Running) (s : State) : State :=
  let m := operand rc r
  if m = 0 then finish .modZero s else finish .ok (setBig rd (powMod (operand ra r) (operand rb r) m) s)

/-- MODEXP Bd, Ba, Bb, Bc. -/
def execModexp (rd ra rb rc : Reg) (s : State) : Outcome := .next (runCommand abortPlain (modexpRule rd ra rb rc) s)

/-! ## montgomery_multiplier -/

/-- MODMUL (spec/41_modular_arithmetic.md R153). -/
def modmulRule (rd ra rb rc : Reg) (r : Running) (s : State) : State :=
  let m := operand rc r
  if m = 0 then finish .modZero s else finish .ok (setBig rd (operand ra r * operand rb r % m) s)

/-- MODMUL Bd, Ba, Bb, Bc. -/
def execModmul (rd ra rb rc : Reg) (s : State) : Outcome := .next (runCommand abortPlain (modmulRule rd ra rb rc) s)

/-- MONTMUL: MOD_ZERO is checked before EVEN_MOD (spec/41_modular_arithmetic.md R154). -/
def montmulRule (rd ra rb rc : Reg) (r : Running) (s : State) : State :=
  let m := operand rc r
  if m = 0 then finish .modZero s
  else if m % 2 = 0 then finish .evenMod s
  else finish .ok (setBig rd (montProduct s.params.opw (operand ra r) (operand rb r) m) s)

/-- MONTMUL Bd, Ba, Bb, Bc. -/
def execMontmul (rd ra rb rc : Reg) (s : State) : Outcome := .next (runCommand abortPlain (montmulRule rd ra rb rc) s)

/-! ## extended_gcd_unit -/

/-- EGCD: the magnitude to Bd, the sign to NEG (spec/41_modular_arithmetic.md R156). -/
def egcdRule (rd ra rb : Reg) (r : Running) (s : State) : State :=
  let x := egcdX (operand ra r) (operand rb r)
  finish .ok { setBig rd x.natAbs s with neg := decide (x < 0) }

/-- EGCD Bd, Ba, Bb. -/
def execEgcd (rd ra rb : Reg) (s : State) : Outcome := .next (runCommand abortPlain (egcdRule rd ra rb) s)

/-- MODINV: one evaluation, accepted only if `(a * c) mod m = 1` (spec/41_modular_arithmetic.md R157). -/
def modinvRule (rd ra rb : Reg) (r : Running) (s : State) : State :=
  let a := operand ra r
  let m := operand rb r
  if m = 0 then finish .modZero s
  else if a * inverseCandidate a m % m = 1 then finish .ok (setBig rd (inverseCandidate a m) s)
  else finish .invNotFound s

/-- MODINV Bd, Ba, Bb. -/
def execModinv (rd ra rb : Reg) (s : State) : Outcome := .next (runCommand abortPlain (modinvRule rd ra rb) s)

end Sys2Proof.Machine
end

