-- ==== Sys2Proof/Machine/Flags.lean ====
section
/-! DEFINITION. Every flag and status computation of the spec: the error codes, the STATUS, CTRL and PARAM words, and the
interrupt level. -/

namespace Sys2Proof.Machine

/-- The 4-bit code of an error (spec/60_exceptions.md R291). -/
def ErrCode.code : ErrCode → BitVec 4
  | .ok => 0x0
  | .genFail => 0x1
  | .invNotFound => 0x2
  | .invariant => 0x3
  | .capacity => 0x4
  | .reserved5 => 0x5
  | .reserved6 => 0x6
  | .busError => 0x7
  | .illegalCmd => 0x8
  | .modZero => 0x9
  | .evenMod => 0xA
  | .config => 0xB
  | .range => 0xC
  | .overlap => 0xD
  | .dstOverflow => 0xE
  | .aborted => 0xF

/-- STATUS.BUSY: 1 exactly when the engine is RUNNING (spec/10_state.md R29, R46). -/
def busy (s : State) : Bool := s.run.isSome

/-- The STATUS word (spec/10_state.md R29): NEG, PRIME, ERR, 0, OVR, DONE, BUSY from bit 9 down. -/
def statusWord (s : State) : Word :=
  0#22 ++ BitVec.ofBool s.neg ++ BitVec.ofBool s.prime ++ s.err.code ++ 0#1
    ++ BitVec.ofBool s.ovr ++ BitVec.ofBool s.done ++ BitVec.ofBool (busy s)

/-- A write of STATUS: only the W1C bits DONE [1] and OVR [2] act (spec/10_state.md R29). -/
def writeStatus (v : Word) (s : State) : State := acknowledge (v.getLsbD 1) (v.getLsbD 2) s

/-- The bit of CTRL.EMBED_MODE (spec/10_state.md R28). -/
def EmbedMode.bit : EmbedMode → Bool
  | .setLsb => false
  | .decrement => true

/-- The mode a bit selects (spec/10_state.md R28). -/
def EmbedMode.ofBit : Bool → EmbedMode
  | false => .setLsb
  | true => .decrement

/-- The CTRL word: ABORT and the reserved bits read 0 (spec/10_state.md R28). -/
def ctrlWord (s : State) : Word := 0#30 ++ BitVec.ofBool s.embedMode.bit ++ BitVec.ofBool s.ie

/-- A write of CTRL: IE and EMBED_MODE are stored, a 1 to ABORT requests the abort of a running command; never
busy-guarded (spec/10_state.md R28). -/
def writeCtrl (v : Word) (s : State) : State :=
  let t := { s with ie := v.getLsbD 0, embedMode := .ofBit (v.getLsbD 1) }
  if v.getLsbD 2 then requestAbort t else t

/-- ID (spec/10_state.md R26). -/
def idWord : Word := 0x424D5231

/-- PARAM: reserved, AW, NREG, OPW_WORDS (spec/10_state.md R27). -/
def paramWord (p : Params) : Word := 0#4 ++ 0x20#8 ++ 8#4 ++ BitVec.ofNat 16 p.opwWords

/-- The interrupt output, a level: `irq = CTRL.IE AND STATUS.DONE` (spec/60_exceptions.md R295). -/
def irq (s : State) : Bool := s.ie && s.done

/-- `sat32(v) = min(v, 2^32 - 1)` (spec/00_scope.md section 7): ATTEMPTS saturates so; OUT_LEN, at most a 32-bit length,
never reaches the limit. -/
def sat32 (v : Nat) : Word := BitVec.ofNat 32 (min v (2 ^ 32 - 1))

end Sys2Proof.Machine
end

