-- ==== Sys2Proof/Machine/Codec.lean ====
section
/-! DEFINITION. The LSB codec of spec/44_lsb_codec.md: EMBED and EXTRACT. Every DMA access is one engine step, in the order
of the pseudocode (spec/20_memory.md R83). DEDUCED, safe; log 12. -/

namespace Sys2Proof.Machine

/-- A slot's new value (spec/44_lsb_codec.md R245): SET_LSB replaces bit 0; DECREMENT subtracts 1 modulo 256 where bit 0
differs. -/
def slotVal (mode : EmbedMode) (v : Byte) (t : Bool) : Byte :=
  match mode with
  | .setLsb => (v &&& 0xFE#8) ||| (BitVec.ofBool t).zeroExtend 8
  | .decrement => if v.getLsbD 0 = t then v else v - 1

/-- The bit slot `9j + i` carries for message byte `m` of `n`: bit `7 - i` of the byte, most significant first, and then the
stop marker, 1 after the last byte (spec/44_lsb_codec.md R244, R246). -/
def carriedBit (n j i : Nat) (m : Byte) : Bool := if i < 8 then m.getLsbD (7 - i) else decide (j + 1 = n)

/-- finish(code) with OUT_LEN (spec/44_lsb_codec.md R246, R248). -/
def finishOutLen (code : ErrCode) (count : Nat) (s : State) : State :=
  finish code { s with outLen := sat32 count }

/-- EMBED (spec/44_lsb_codec.md R242, R243, R246). A bus error at any access of group `j` leaves OUT_LEN at `j`, the
groups completely written. -/
def embedRule (r : Running) (s : State) : State :=
  let d := r.snap.desc
  let n := d.msgLen.toNat
  match r.progress with
  | .embedByte j =>
    if j < n then
      match dmaRead (msgAddr d j) s with
      | some m => setProgress (.embedRead j 0 m) s
      | none => finishOutLen .busError j s
    else finishOutLen .ok n s
  | .embedRead j i m =>
    match dmaRead (slotAddr d (9 * j + i)) s with
    | some v => setProgress (.embedWrite j i m v) s
    | none => finishOutLen .busError j s
  | .embedWrite j i m v =>
    match dmaWrite (slotAddr d (9 * j + i)) (slotVal r.snap.embedMode v (carriedBit n j i m)) s with
    | some t => setProgress (if i < 8 then .embedRead j (i + 1) m else .embedByte (j + 1)) t
    | none => finishOutLen .busError j s
  | _ =>
    if outOfRange d n then finishOutLen .range 0 s
    else if buffersOverlap d n then finishOutLen .overlap 0 s
    else if 9 * n > slotCount d then finishOutLen .capacity 0 s
    else setProgress (.embedByte 0) s

/-- EMBED. -/
def execEmbed (s : State) : Outcome := .next (runCommand abortOutLen embedRule s)

/-- A byte with one more bit read, most significant first: `2 * b + (sample AND 1)` (spec/44_lsb_codec.md R248). -/
def appendBit (b : Byte) (sample : Byte) : Byte := (b <<< 1) ||| (sample &&& 1#8)

/-- EXTRACT (spec/44_lsb_codec.md R242, R243, R248). The marker is read apart and never enters a byte. The last write and
finish(OK) are two steps (spec/40_system.md R131). -/
def extractRule (r : Running) (s : State) : State :=
  let d := r.snap.desc
  let c := d.msgCap.toNat
  match r.progress with
  | .extractGroup j out =>
    if j < groupCount d then setProgress (.extractRead j 0 out 0) s else finishOutLen .ok out s
  | .extractRead j i out b =>
    match dmaRead (slotAddr d (9 * j + i)) s with
    | some v =>
      setProgress (if i < 8 then .extractRead j (i + 1) out (appendBit b v) else .extractStore j out b (v.getLsbD 0)) s
    | none => finishOutLen .busError out s
  | .extractStore j out b mk =>
    if out = c then finishOutLen .dstOverflow out s
    else
      match dmaWrite (msgAddr d out) b s with
      | some t => setProgress (if mk then .extractDone (out + 1) else .extractGroup (j + 1) (out + 1)) t
      | none => finishOutLen .busError out s
  | .extractDone out => finishOutLen .ok out s
  | _ =>
    if outOfRange d c then finishOutLen .range 0 s
    else if buffersOverlap d c then finishOutLen .overlap 0 s
    else setProgress (.extractGroup 0 0) s

/-- EXTRACT. -/
def execExtract (s : State) : Outcome := .next (runCommand abortOutLen extractRule s)

end Sys2Proof.Machine
end

