-- ==== Sys2Proof/Machine/Primality.lean ====
section
/-! DEFINITION. The Fermat test of spec/42_primality.md: PRIMETEST, and the round that GENPRIME and GENPQR share. -/

namespace Sys2Proof.Machine

/-- Whether the next step of `fermat(num, k)` with `passed` rounds behind it makes a draw
(spec/42_primality.md R190). -/
def fermatDraws (num k passed : Nat) : Bool := 4 ≤ num && passed < k

/-- One step of `fermat(num, k)` with `passed` rounds behind it: some verdict, or none to go on with the next round
(spec/42_primality.md R190, R192). -/
def fermatVerdict (num k passed : Nat) (s : State) : Option Bool :=
  if num ≤ 1 then some false
  else if num = 2 ∨ num = 3 then some true
  else if k ≤ passed then some true
  else if powMod (drawValue 2 (num - 2) s) (num - 1) num = 1 then none
  else some false

/-- The state after that step: its draw, if it made one. -/
def fermatAfter (num k passed : Nat) (s : State) : State :=
  if fermatDraws num k passed then afterDraw s else s

/-- The Fermat rounds PRIMETEST has passed. -/
def fermatRounds : Progress → Nat
  | .fermat passed => passed
  | _ => 0

/-- PRIMETEST: `fermat(B[a], ROUNDS)` round by round, then finish(OK) with PRIME (spec/42_primality.md R191). -/
def primetestRule (ra : Reg) (r : Running) (s : State) : State :=
  let num := operand ra r
  let k := r.snap.desc.rounds.toNat
  let passed := fermatRounds r.progress
  match fermatVerdict num k passed s with
  | some p => finish .ok { fermatAfter num k passed s with prime := p }
  | none => setProgress (.fermat (passed + 1)) (fermatAfter num k passed s)

/-- PRIMETEST Ba. -/
def execPrimetest (ra : Reg) (s : State) : Outcome := .next (runCommand abortPlain (primetestRule ra) s)

end Sys2Proof.Machine
end

