-- ==== Sys2Proof/Machine/Sampler.lean ====
section
/-! DEFINITION. The rejection sampler of spec/43_candidate_generation.md: GENPRIME, GENRAND, GENPQR. Every draw is one
engine step, in the order of the pseudocode (R211). DEDUCED, safe; log 12. -/

namespace Sys2Proof.Machine

/-- The configuration check (spec/43_candidate_generation.md R210). -/
def configLegal (opw : Nat) (d : Desc) : Bool :=
  1 ≤ d.minbits.toNat && d.minbits.toNat ≤ d.maxbits.toNat && d.maxbits.toNat ≤ opw

/-- The draw of a bit-length (spec/43_candidate_generation.md R212, R214). -/
def lengthDraw (d : Desc) (s : State) : Nat := drawValue d.minbits.toNat d.maxbits.toNat s

/-- The draw of an integer whose bit-length is exactly `len` (spec/43_candidate_generation.md R219). -/
def valueDraw (len : Nat) (s : State) : Nat := drawValue (2 ^ (len - 1)) (2 ^ len - 1) s

/-- "force it odd (increment if even)" (spec/43_candidate_generation.md R212). -/
def forceOdd (c : Nat) : Nat := if c % 2 = 0 then c + 1 else c

/-- One step of `gen_prime` (spec/43_candidate_generation.md R212): what it gives. -/
def primeEvent (d : Desc) (st : PrimeStage) (s : State) : PrimeEvent :=
  match st with
  | .attempt cnt =>
    if cnt < d.attemptCap.toNat then .goOn (.length (cnt + 1) (lengthDraw d s)) else .fail cnt
  | .length cnt len => .goOn (.testing cnt (forceOdd (valueDraw len s)) 0)
  | .testing cnt c passed =>
    match fermatVerdict c d.rounds.toNat passed s with
    | some true => .found c cnt
    | some false => .goOn (.attempt cnt)
    | none => .goOn (.testing cnt c (passed + 1))

/-- The state after that step: its draw, if it made one. -/
def primeAfter (d : Desc) (st : PrimeStage) (s : State) : State :=
  match st with
  | .attempt cnt => if cnt < d.attemptCap.toNat then afterDraw s else s
  | .length _ _ => afterDraw s
  | .testing _ c passed => fermatAfter c d.rounds.toNat passed s

/-- finish(code) with ATTEMPTS (spec/43_candidate_generation.md R217). -/
def finishAttempts (code : ErrCode) (count : Nat) (s : State) : State :=
  finish code { s with attempts := sat32 count }

/-- GENPRIME (spec/43_candidate_generation.md R210, R212, R213). -/
def genprimeRule (rd : Reg) (r : Running) (s : State) : State :=
  let d := r.snap.desc
  match r.progress with
  | .prime st =>
    let t := primeAfter d st s
    match primeEvent d st s with
    | .goOn st' => setProgress (.prime st') t
    | .found c cnt => finishAttempts .ok cnt (setBig rd c t)
    | .fail cnt => finishAttempts .genFail cnt t
  | _ => if configLegal s.params.opw d then setProgress (.prime (.attempt 0)) s else finishAttempts .config 0 s

/-- GENPRIME Bd. -/
def execGenprime (rd : Reg) (s : State) : Outcome := .next (runCommand abortAttempts (genprimeRule rd) s)

/-- GENRAND (spec/43_candidate_generation.md R210, R214, R215); ATTEMPTS is unchanged. -/
def genrandRule (rd : Reg) (r : Running) (s : State) : State :=
  let d := r.snap.desc
  match r.progress with
  | .randLength => setProgress (.randValue (lengthDraw d s)) (afterDraw s)
  | .randValue len => finish .ok (setBig rd (valueDraw len s) (afterDraw s))
  | _ => if configLegal s.params.opw d then setProgress .randLength s else finish .config s

/-- GENRAND Bd. -/
def execGenrand (rd : Reg) (s : State) : Outcome := .next (runCommand abortPlain (genrandRule rd) s)

/-- GENPQR: an outer round after its configuration check (spec/43_candidate_generation.md R216). -/
def pqrRule (rd ra rb : Reg) (d : Desc) (outer total : Nat) (st : PqrStage) (s : State) : State :=
  match st with
  | .round =>
    if outer < d.attemptCap.toNat then setProgress (.pqr (outer + 1) total (.prime (.attempt 0))) s
    else finishAttempts .genFail total s
  | .prime ps =>
    let t := primeAfter d ps s
    match primeEvent d ps s with
    | .goOn ps' => setProgress (.pqr outer total (.prime ps')) t
    | .found p cnt => setProgress (.pqr outer (total + cnt) (.qLength p)) t
    | .fail cnt => finishAttempts .genFail (total + cnt) t
  | .qLength p => setProgress (.pqr outer total (.qValue p (lengthDraw d s))) (afterDraw s)
  | .qValue p len => setProgress (.pqr outer total (.rLength p (valueDraw len s))) (afterDraw s)
  | .rLength p q => setProgress (.pqr outer total (.rValue p q (lengthDraw d s))) (afterDraw s)
  | .rValue p q len => setProgress (.pqr outer total (.judge p q (valueDraw len s))) (afterDraw s)
  | .judge p q r =>
    if p < q * r then finishAttempts .ok total (setBig rb r (setBig ra q (setBig rd p s)))
    else setProgress (.pqr outer total .round) s

/-- GENPQR (spec/43_candidate_generation.md R210, R216). -/
def genpqrRule (rd ra rb : Reg) (r : Running) (s : State) : State :=
  let d := r.snap.desc
  match r.progress with
  | .pqr outer total st => pqrRule rd ra rb d outer total st s
  | _ => if configLegal s.params.opw d then setProgress (.pqr 0 0 .round) s else finishAttempts .config 0 s

/-- GENPQR Bd, Ba, Bb. -/
def execGenpqr (rd ra rb : Reg) (s : State) : Outcome := .next (runCommand abortAttempts (genpqrRule rd ra rb) s)

end Sys2Proof.Machine
end

