-- ==== Sys2Proof/Machine/System.lean ====
section
/-! DEFINITION. The housekeeping commands of spec/40_system.md. -/

namespace Sys2Proof.Machine

/-- NOP: finish(OK) (spec/40_system.md R132). -/
def nopRule (_ : Running) (s : State) : State := finish .ok s

/-- NOP. -/
def execNop (s : State) : Outcome := .next (runCommand abortPlain nopRule s)

/-- CLR: finish(OK) with B[d] <- 0, every word written (spec/40_system.md R133). -/
def clrRule (rd : Reg) (_ : Running) (s : State) : State := finish .ok (setBig rd 0 s)

/-- CLR Bd. -/
def execClr (rd : Reg) (s : State) : Outcome := .next (runCommand abortPlain (clrRule rd) s)

end Sys2Proof.Machine
end

