-- ==== Sys2Proof/Machine/Dispatch.lean ====
section
/-! DEFINITION. The meaning of every command: the engine's turn on it, from its progress in the state until it completes
or the host's next move is due. -/

namespace Sys2Proof.Machine

def exec (i : Instr) (s : State) : Host.Outcome State Fault Refusal :=
  match i with
  | .nop => Sys2Proof.Machine.execNop s
  | .clr rd => Sys2Proof.Machine.execClr rd s
  | .modexp rd ra rb rc => Sys2Proof.Machine.execModexp rd ra rb rc s
  | .modmul rd ra rb rc => Sys2Proof.Machine.execModmul rd ra rb rc s
  | .montmul rd ra rb rc => Sys2Proof.Machine.execMontmul rd ra rb rc s
  | .egcd rd ra rb => Sys2Proof.Machine.execEgcd rd ra rb s
  | .modinv rd ra rb => Sys2Proof.Machine.execModinv rd ra rb s
  | .primetest ra => Sys2Proof.Machine.execPrimetest ra s
  | .genprime rd => Sys2Proof.Machine.execGenprime rd s
  | .genrand rd => Sys2Proof.Machine.execGenrand rd s
  | .genpqr rd ra rb => Sys2Proof.Machine.execGenpqr rd ra rb s
  | .embed => Sys2Proof.Machine.execEmbed s
  | .extract => Sys2Proof.Machine.execExtract s

end Sys2Proof.Machine
end

