-- ==== Sys2Proof/Machine/HostPort.lean ====
section
/-! DEFINITION. The moves of the host and the platform: MMIO reads and writes (spec/10_state.md R25 to R49,
spec/20_memory.md R71 to R76, spec/40_system.md R130, R134, R135), memory accesses through the host's cache
(spec/20_memory.md R81 to R88), sampling irq, and reset. -/

namespace Sys2Proof.Machine

/-- The host gets a reply. -/
def reply (r : Reply) (s : State) : State := { s with replies := r :: s.replies }

/-! ## The buffers of a command (spec/20_memory.md R81, R82, R84, R88) -/

/-- Whether the running command owns the byte: the host must not write it (spec/20_memory.md R84). -/
def engineOwns (a : Addr) (s : State) : Bool :=
  match s.run with
  | some r => inRanges (ownedRanges r.word r.snap.desc) a.toNat
  | none => false

/-- Whether the running command may write the byte, so that a host read of it races (spec/20_memory.md R84). -/
def engineMayWrite (a : Addr) (s : State) : Bool :=
  match s.run with
  | some r => inRanges (writableRanges r.word r.snap.desc) a.toNat
  | none => false

/-- Whether a store of the host is not performed at memory: it waits in the host's caches, or was dropped from them. -/
def unperformed (c : CacheByte) : Bool := c.copy = .dirty || c.copy = .lost

/-- Whether a store of the host to the buffers is not performed at memory: it has to be before the CMD write
(spec/20_memory.md R81, R88). DESIGN CHOICE, safe; logs 4 and 15. -/
def storesPending (ranges : List (Nat × Nat)) (s : State) : Bool :=
  !s.params.dmaCoherent && s.cache.any fun c => unperformed c && inRanges ranges c.addr.toNat

/-- A copy grows old as its byte is handed to a command: it is to be invalidated after the completion
(spec/20_memory.md R82, R88). DESIGN CHOICE, safe; log 4. -/
def handOver (ranges : List (Nat × Nat)) (c : CacheByte) : CacheByte :=
  if inRanges ranges c.addr.toNat then
    match c.copy with
    | .dirty => c
    | .clean => { c with copy := .handed }
    | .handed => { c with copy := .stale }
    | .stale => c
    | .lost => c
  else c

/-- Acceptance (spec/40_system.md R130), with the host's copies of the command's buffers grown old where DMA is not
coherent. -/
def takeCommand (w : Word) (s : State) : State :=
  { accept w s with
    cache := if s.params.dmaCoherent then s.cache else s.cache.map (handOver (ownedRanges w s.desc)) }

/-! ## MMIO -/

/-- Issuing a command: it is accepted, or one of the model faults is raised: of an unwritten source word, or of stores to its
buffers that are not performed at memory (spec/40_system.md R130, spec/60_exceptions.md R298, R306). -/
def issue (w : Word) (s : State) : Outcome :=
  match unwrittenOperand w s with
  | some (k, i) => .fault (.unwrittenRead k i)
  | none =>
    if storesPending (ownedRanges w s.desc) s then .fault (.hostDuty .performStores) else .next (takeCommand w s)

/-- A busy-guarded write: dropped with OVR while BUSY (spec/10_state.md R49). -/
def guarded (act : State → Outcome) (s : State) : Outcome := if busy s then .next (dropWrite s) else act s

/-- The host writes `v` to a register (spec/10_state.md R25 to R44, R49). -/
def writeReg (reg : MmioReg) (v : Word) (s : State) : Outcome :=
  match reg with
  | .id => .next s
  | .param => .next s
  | .ctrl => .next (writeCtrl v s)
  | .status => .next (writeStatus v s)
  | .cmd => guarded (issue v) s
  | .desc d => guarded (fun t => .next { t with desc := t.desc.set d v }) s
  | .attempts => .next s
  | .outLen => .next s
  | .reserved => .next s
  | .bigWord k i => if i < s.params.opwWords then guarded (fun t => .next (setBigWord k i v t)) s else .next s

/-- The word a register reads as; an unwritten big-register word is the model fault (spec/10_state.md R25 to R44,
spec/40_system.md R135, spec/60_exceptions.md R298). Results change only at a completion, so the value is always the
current one (spec/10_state.md R48, R49). -/
def readReg (reg : MmioReg) (s : State) : Except Fault Word :=
  match reg with
  | .id => .ok idWord
  | .param => .ok (paramWord s.params)
  | .ctrl => .ok (ctrlWord s)
  | .status => .ok (statusWord s)
  | .cmd => .ok 0
  | .desc d => .ok (s.desc.get d)
  | .attempts => .ok s.attempts
  | .outLen => .ok s.outLen
  | .reserved => .ok 0
  | .bigWord k i =>
    if i < s.params.opwWords then
      match s.bigs[k][i]? with
      | some w => if w.written then .ok w.value else .error (.unwrittenRead k i)
      | none => .error (.unwrittenRead k i)
    else .ok 0

/-- The host reads a register (spec/20_memory.md R74, R75, spec/40_system.md R135). -/
def hostRead (reg : MmioReg) (s : State) : Outcome :=
  match readReg reg s with
  | .ok v => .next (reply (.mmio v) s)
  | .error f => .fault f

/-- An MMIO access of `width` bytes at bus address `addr`: outside the block it is the platform's
(spec/10_state.md R43), and only aligned 32-bit accesses are supported (spec/20_memory.md R71). -/
def mmioAccess (addr width : Nat) (act : MmioReg → Outcome) (s : State) : Outcome :=
  if addr < s.params.base ∨ s.params.base + 0x9000 ≤ addr then .refused (.outsideBlock addr)
  else
    let off := addr - s.params.base
    if width = 4 ∧ off % 4 = 0 then act (regAt off) else .fault (.unsupportedMmio off width)

/-! ## Memory, as the host reaches it. MemAdmits speaks of the engine's accesses alone: the host reaches every byte.
DESIGN CHOICE, unsafe; log 28. -/

/-- The byte a host load gives where no copy of the host's answers it: of a byte the running command may write, its value
before the command or now, a race at every load; else its value (spec/20_memory.md R84). DESIGN CHOICE of form, safe; logs 8
and 18. -/
def loadByte (a : Addr) (s : State) : Byte :=
  match s.run with
  | some r => if engineMayWrite a s && raceValue s then memRead r.before a.toNat else memRead s.mem a.toNat
  | none => memRead s.mem a.toNat

/-- The state after that load: its race settled, if there was one. -/
def afterLoad (a : Addr) (s : State) : State := if engineMayWrite a s then afterRace s else s

/-- The host's cached copy of a byte. -/
def cached (a : Addr) (s : State) : Option CacheByte := s.cache.find? fun c => c.addr = a

/-- The host's caches with one byte put in. -/
def cachePut (c : CacheByte) (s : State) : State :=
  { s with cache := c :: s.cache.filter fun e => e.addr ≠ c.addr }

/-- A store by the host: performed at memory where DMA is coherent, else held dirty in the host's cache until it is cleaned
(spec/20_memory.md R81, R88). DESIGN CHOICE, unsafe; log 4. -/
def hostStore (a : Addr) (v : Byte) (s : State) : Outcome :=
  if engineOwns a s then .fault (.hostDuty .leaveBuffersAlone)
  else if s.params.dmaCoherent then .next { s with mem := memWrite s.mem a.toNat v }
  else .next (cachePut ⟨a, v, .dirty⟩ s)

/-- The host gets byte `v` and keeps a copy of it, which is handed from the start if a running command owns the byte. -/
def loadCopy (a : Addr) (v : Byte) (s : State) : State :=
  reply (.mem v) (cachePut ⟨a, v, if engineOwns a s then .handed else .clean⟩ (afterLoad a s))

/-- A load by the host: from memory where DMA is coherent, else from the host's cached copy if it has one. A byte of a buffer
of the running command gives either value of its race at every load, copy or none (R84); a copy that an earlier command was
handed has to be invalidated first (spec/20_memory.md R82, R88). The host's caches hold a copy only of a byte the host stored
or loaded: they make no fill of their own. DESIGN CHOICE, unsafe for a load after a completion that no invalidate precedes;
log 4. -/
def hostLoad (a : Addr) (s : State) : Outcome :=
  if s.params.dmaCoherent then .next (reply (.mem (loadByte a s)) (afterLoad a s))
  else
    match cached a s with
    | none => .next (loadCopy a (loadByte a s) s)
    | some ⟨_, v, .dirty⟩ => .next (reply (.mem v) s)
    | some ⟨_, v, .clean⟩ => .next (reply (.mem v) s)
    | some ⟨_, _, .handed⟩ =>
      if engineOwns a s then .next (loadCopy a (loadByte a s) s) else .fault (.hostDuty .invalidateCopies)
    | some ⟨_, _, .stale⟩ => .fault (.hostDuty .invalidateCopies)
    | some ⟨_, _, .lost⟩ => .next (reply (.mem (loadByte a s)) (afterLoad a s))

/-- Whether a cached byte lies in `[a, a + n)`. -/
def cacheHit (a : Addr) (n : Nat) (c : CacheByte) : Bool := inRanges [(a.toNat, n)] c.addr.toNat

/-- Whether a cached byte lies in `[a, a + n)` and memory does not hold it yet. -/
def dirtyHit (a : Addr) (n : Nat) (c : CacheByte) : Bool := cacheHit a n c && c.copy = .dirty

/-- The dirty bytes of the list that lie in the range, written to memory. -/
def writeBack (a : Addr) (n : Nat) : List CacheByte → Memory → Memory
  | [], m => m
  | c :: rest, m => writeBack a n rest (if dirtyHit a n c then memWrite m c.addr.toNat c.byte else m)

/-- The host cleans `[a, a + n)`: its dirty bytes there are performed at memory (spec/20_memory.md R88). Writing a byte of a
running command's buffer breaks a duty (R84). DESIGN CHOICE, unsafe; log 4. -/
def hostClean (a : Addr) (n : Nat) (s : State) : Outcome :=
  if s.cache.any fun c => dirtyHit a n c && engineOwns c.addr s then .fault (.hostDuty .leaveBuffersAlone)
  else
    .next { s with
      mem := writeBack a n s.cache s.mem
      cache := s.cache.map fun c => if dirtyHit a n c then { c with copy := .clean } else c }

/-- The host's caches with one byte invalidated: a copy goes; of a store that memory does not hold, the loss stays known, since
it breaks a duty at the CMD write of a command with that byte in its buffers (spec/20_memory.md R81, spec/60_exceptions.md
R306). -/
def dropCopy (c : CacheByte) : Option CacheByte := if unperformed c then some { c with copy := .lost } else none

/-- The host invalidates `[a, a + n)`: it drops its copies there (spec/20_memory.md R88). DESIGN CHOICE, unsafe; log 4. -/
def hostInvalidate (a : Addr) (n : Nat) (s : State) : Outcome :=
  .next { s with cache := s.cache.filterMap fun c => if cacheHit a n c then dropCopy c else some c }

/-! ## One move -/

/-- What a move of the host or the platform does. -/
def hostMove (m : HostMove) (s : State) : Outcome :=
  match m with
  | .mmioWrite addr width v => mmioAccess addr width (fun reg => writeReg reg v s) s
  | .mmioRead addr width => mmioAccess addr width (fun reg => hostRead reg s) s
  | .memStore a v => hostStore a v s
  | .memLoad a => hostLoad a s
  | .cacheClean a n => hostClean a n s
  | .cacheInvalidate a n => hostInvalidate a n s
  | .senseIrq => .next (reply (.irq (irq s)) s)
  | .reset => .next (resetEngine s)

/-- Whether the host's next move has arrived, so that it comes before the running command's next step
(spec/60_exceptions.md R293 (3)). DESIGN CHOICE, safe; log 9. -/
def hostArrived (s : State) : Bool := engineTurns s.inbox == 0

/-- The host's turn: its next move; with no move waiting the engine waits (spec/70_reset_and_hazards.md R331). -/
def hostStep (s : State) : Outcome :=
  match s.inbox with
  | [] => .next s
  | e :: rest => hostMove e.move { s with inbox := rest }

/-- The waiting moves, the first of them put off until the engine is idle. -/
def hostWaits : List HostEvent → List HostEvent
  | ⟨_, m⟩ :: rest => ⟨.whenIdle, m⟩ :: rest
  | [] => []

end Sys2Proof.Machine
end

