-- ==== Sys2Proof/Machine/Step.lean ====
section
/-! DEFINITION. One step of the machine: the host's next move, or the engine's turn on the accepted command. -/

namespace Sys2Proof.Machine

/-- The engine's turn: the accepted word is decoded first (spec/40_system.md R131); a command is run, an illegal word ends
with ILLEGAL_CMD. -/
def engineTurn (r : Running) (s : State) : Host.Outcome State Fault Refusal :=
  match decode r.word with
  | .command i => exec i s
  | .illegal _ => .next (runIllegal s)

/-- One step: every move of the host and every turn of the engine happens in one interleaved order
(spec/60_exceptions.md R293 (3)). -/
def step (s : State) : Host.Outcome State Fault Refusal :=
  match s.run with
  | none => hostStep s
  | some r => if hostArrived s then hostStep s else engineTurn r s

/-- The machine with a command placed where the engine takes its next one: there is no instruction memory, and a command is
the data of an accepted CMD write (spec/10_state.md R24, spec/20_memory.md R87), so this is that acceptance
(spec/40_system.md R130), with a waiting host move put off until the command has run. The checks of the CMD write (`issue`) are
not made: a command placed over unwritten source words runs on the values under their marks (log 6), and one placed over
stores of the host that memory does not hold reads memory's bytes, where a broken duty leaves the byte open. DESIGN CHOICE,
unsafe for such a command, else safe; log 19. -/
def State.withFetchWord (s : State) (nbits w : Nat) : State :=
  takeCommand (tableWord nbits w) { s with inbox := hostWaits s.inbox }

end Sys2Proof.Machine
end

