-- ==== Sys2Proof/Safety.lean ====
section
/-! DEFINITION. What counts as a sound state of the machine and as a run to be reasoned about, in the terms the claims
use. -/

namespace Sys2Proof.Machine

/-- Every big register has OPW_WORDS words (spec/10_state.md R22). -/
def bigsSized (p : Params) (bigs : BigFile) : Prop := ∀ k : Reg, bigs[k].length = p.opwWords

/-- The error codes some command raises: all but the reserved 0x3, 0x5 and 0x6 (spec/60_exceptions.md R291). -/
def ErrCode.raised (e : ErrCode) : Prop := e ≠ .invariant ∧ e ≠ .reserved5 ∧ e ≠ .reserved6

/-- The invariant of the machine: memory in canonical form, registers and snapshot of the build's width, ERR never a reserved
code. -/
structure State.Inv (s : State) : Prop where
  mem_wf : s.mem.wf = true
  bigs_sized : bigsSized s.params s.bigs
  snap_sized : ∀ r, s.run = some r → bigsSized s.params r.snap.bigs
  err_raised : s.err.raised

/-- The running command is just accepted, not asked to abort, and the host makes no move until it ends. -/
structure State.Undisturbed (s : State) (r : Running) : Prop where
  running : s.run = some r
  fresh : r.progress = .fresh
  noAbort : r.abortReq = false
  hostWaits : engineTurns s.inbox = Config.maxEngineSteps

/-- The running command is not asked to abort, and the engine makes at least one step before the host's next move. -/
structure State.EngineToMove (s : State) (r : Running) : Prop where
  running : s.run = some r
  noAbort : r.abortReq = false
  turn : 0 < engineTurns s.inbox

/-- The MMIO registers that are results, and memory: what a command may change besides its lifecycle
(spec/10_state.md R48). -/
def sameResults (s t : State) : Prop :=
  t.bigs = s.bigs ∧ t.prime = s.prime ∧ t.neg = s.neg ∧ t.attempts = s.attempts ∧ t.outLen = s.outLen

/-- What no command ever changes: the parameters, the descriptors, CTRL, OVR, the host's cache, its replies. -/
def sameSetting (s t : State) : Prop :=
  t.params = s.params ∧ t.desc = s.desc ∧ t.ie = s.ie ∧ t.embedMode = s.embedMode ∧ t.ovr = s.ovr ∧
    t.cache = s.cache ∧ t.replies = s.replies

/-- The completion part of finish(code): ERR, DONE, BUSY, phase (spec/40_system.md R131). -/
def completed (code : ErrCode) (t : State) : Prop := t.err = code ∧ t.done = true ∧ t.run = none

end Sys2Proof.Machine
end

