-- ==== Sys2Proof/Certificates/Slice0/Obligations.lean ====
section
/-! DEFINITION. The statements for the provers, from the numbered rules of spec/. Each holds for every build (OPW, BASE,
MemAdmits, DMA_COHERENT), every draw and every interleaving, because all of these are data of the state. -/

open Sys2Proof Sys2Proof.Machine

namespace Sys2Proof.Machine

/-! ## Vocabulary of the statements -/

/-- The registers a command writes (spec/30_encoding.md R105, the fields marked dst). -/
def destinations : Instr → List Reg
  | .nop => []
  | .clr rd => [rd]
  | .modexp rd _ _ _ => [rd]
  | .modmul rd _ _ _ => [rd]
  | .montmul rd _ _ _ => [rd]
  | .egcd rd _ _ => [rd]
  | .modinv rd _ _ => [rd]
  | .primetest _ => []
  | .genprime rd => [rd]
  | .genrand rd => [rd]
  | .genpqr rd ra rb => [rd, ra, rb]
  | .embed => []
  | .extract => []

/-- The match and mask columns of spec/30_encoding.md R105. -/
def tableRows : List (Word × Word) :=
  [ (0x00000000, 0xFFFFFFFF), (0x00000001, 0xFFFFF8FF), (0x00000010, 0xFFF000FF), (0x00000011, 0xFFF000FF),
    (0x00000012, 0xFFF000FF), (0x00000018, 0xFFFE00FF), (0x00000019, 0xFFFE00FF), (0x00000020, 0xFFFFC7FF),
    (0x00000028, 0xFFFFF8FF), (0x00000029, 0xFFFFF8FF), (0x0000002A, 0xFFFE00FF), (0x00000030, 0xFFFFFFFF),
    (0x00000031, 0xFFFFFFFF) ]

/-- The word of RD, RA, RB, RC and OPC put together by shifts, as spec/30_encoding.md R109 does it. -/
def shiftedWord (opc rd ra rb rc : Nat) : Word := BitVec.ofNat 32 (opc ||| rd <<< 8 ||| ra <<< 11 ||| rb <<< 14 ||| rc <<< 17)

/-- The register values spec/70_reset_and_hazards.md R331 and R333 give, as the host reads them, with phase IDLE and irq
low. -/
def holdsResetValues (t : State) : Prop :=
  readReg .id t = .ok 0x424D5231 ∧
  (∃ v, readReg .param t = .ok v ∧
    v.extractLsb' 0 16 = BitVec.ofNat 16 t.params.opwWords ∧ v.extractLsb' 16 4 = 8#4 ∧
    v.extractLsb' 20 8 = 0x20#8 ∧ v.extractLsb' 28 4 = 0#4) ∧
  readReg .ctrl t = .ok 0 ∧ readReg .status t = .ok 0 ∧ readReg .cmd t = .ok 0 ∧
  readReg (.desc .minbits) t = .ok 1024 ∧ readReg (.desc .maxbits) t = .ok 2048 ∧
  readReg (.desc .rounds) t = .ok 100 ∧ readReg (.desc .attemptCap) t = .ok 65536 ∧ readReg .attempts t = .ok 0 ∧
  readReg (.desc .pixBase) t = .ok 0 ∧ readReg (.desc .pixHeight) t = .ok 0 ∧ readReg (.desc .pixWidth) t = .ok 0 ∧
  readReg (.desc .msgBase) t = .ok 0 ∧ readReg (.desc .msgLen) t = .ok 0 ∧ readReg (.desc .msgCap) t = .ok 0 ∧
  readReg .outLen t = .ok 0 ∧ t.run = none ∧ irq t = false ∧
  ∀ (k : Reg) (i : Nat), i < t.params.opwWords → readReg (.bigWord k i) t = .error (.unwrittenRead k i)

/-- The platform admits the first `slots` slots and the first `n` message bytes (spec/20_memory.md R78). -/
def admitsBuffers (p : Params) (d : Desc) (slots n : Nat) : Prop :=
  (∀ k, k < slots → memAdmits p (slotAddr d k) = true) ∧ (∀ j, j < n → memAdmits p (msgAddr d j) = true)

/-- The sample EMBED leaves in slot `9j + i`, computed from the memory before it (spec/44_lsb_codec.md R244, R245). -/
def embeddedSample (mode : EmbedMode) (d : Desc) (m : Memory) (j i : Nat) : Byte :=
  slotVal mode (memRead m (d.pixBase.toNat + (9 * j + i)))
    (carriedBit d.msgLen.toNat j i (memRead m (d.msgBase.toNat + j)))

/-- Bit 0 of slot `9j + i` (spec/44_lsb_codec.md R248, "sample & 1"). -/
def slotBit (d : Desc) (m : Memory) (j i : Nat) : Bool := (memRead m (d.pixBase.toNat + (9 * j + i))).getLsbD 0

/-- The codec's checks pass for a message buffer of `n` bytes (spec/44_lsb_codec.md R242, R243). -/
def checksPass (d : Desc) (n : Nat) : Prop := outOfRange d n = false ∧ buffersOverlap d n = false

/-- `b` is the byte group `j` carries: its bit `7 - i` is bit 0 of data slot `9j + i` (spec/44_lsb_codec.md R244). -/
def carriesByte (d : Desc) (m : Memory) (j : Nat) (b : Byte) : Prop := ∀ i, i < 8 → b.getLsbD (7 - i) = slotBit d m j i

/-- Where a running EMBED can stand: just accepted, or past its checks at a byte and slot of its message
(spec/44_lsb_codec.md R246). -/
def embedStage (r : Running) : Prop :=
  let d := r.snap.desc
  let n := d.msgLen.toNat
  match r.progress with
  | .fresh => True
  | .embedByte j => checksPass d n ∧ 9 * n ≤ slotCount d ∧ j ≤ n
  | .embedRead j i _ => checksPass d n ∧ 9 * n ≤ slotCount d ∧ j < n ∧ i < 9
  | .embedWrite j i _ _ => checksPass d n ∧ 9 * n ≤ slotCount d ∧ j < n ∧ i < 9
  | _ => False

/-- Where a running EXTRACT can stand: just accepted, or past its checks at a group and slot of the pixels, with room
for the bytes written (spec/44_lsb_codec.md R248). -/
def extractStage (r : Running) : Prop :=
  let d := r.snap.desc
  let c := d.msgCap.toNat
  match r.progress with
  | .fresh => True
  | .extractGroup _ out => checksPass d c ∧ out ≤ c
  | .extractRead j i out _ => checksPass d c ∧ j < groupCount d ∧ i < 9 ∧ out ≤ c
  | .extractStore j out _ _ => checksPass d c ∧ j < groupCount d ∧ out ≤ c
  | .extractDone out => checksPass d c ∧ out ≤ c
  | _ => False

/-- The offsets of the descriptor registers (spec/10_state.md R25). -/
def descOffset : DescReg → Nat
  | .minbits => 0x014
  | .maxbits => 0x018
  | .rounds => 0x01C
  | .attemptCap => 0x020
  | .pixBase => 0x028
  | .pixHeight => 0x02C
  | .pixWidth => 0x030
  | .msgBase => 0x034
  | .msgLen => 0x038
  | .msgCap => 0x03C

/-- The bus address of word `i` of the window of Bk (spec/10_state.md R44). -/
def wordAddr (s : State) (k : Reg) (i : Nat) : Nat := s.params.base + (0x1000 + 0x1000 * k.val + 4 * i)

/-- No byte at address `a` is in a buffer of the running command (spec/20_memory.md R84). -/
def outsideBuffers (a : Addr) (s : State) : Prop :=
  ∀ r, s.run = some r → inRanges (ownedRanges r.word r.snap.desc) a.toNat = false

/-- The machine as it is but for the request to abort its running command. -/
def withoutRequest (s : State) : State := { s with run := s.run.map fun r => { r with abortReq := false } }

/-! ## The pseudocode of the draws, on a list of draws

Each gives its result and the draws left over, or none where a draw is missing or outside its range. -/

/-- `fermat(num, k)` (spec/42_primality.md R190). -/
def fermatOn (num : Nat) : (k : Nat) → (draws : List Nat) → Option (Bool × List Nat)
  | 0, draws => some (decide (2 ≤ num), draws)
  | k + 1, draws =>
    if num ≤ 1 then some (false, draws)
    else if num = 2 ∨ num = 3 then some (true, draws)
    else
      match draws with
      | [] => none
      | a :: rest =>
        if 2 ≤ a ∧ a ≤ num - 2 then
          if a ^ (num - 1) % num = 1 then fermatOn num k rest else some (false, rest)
        else none

/-- `gen_rand()`: a bit-length, then a value of it (spec/43_candidate_generation.md R214, R219). -/
def genRandOn (d : Desc) : (draws : List Nat) → Option (Nat × List Nat)
  | len :: v :: rest =>
    if d.minbits.toNat ≤ len ∧ len ≤ d.maxbits.toNat ∧ 2 ^ (len - 1) ≤ v ∧ v ≤ 2 ^ len - 1 then some (v, rest) else none
  | _ => none

/-- `gen_prime()` with `cnt` candidates drawn and `budget` left: the candidate found, or none for FAIL, and the final
count (spec/43_candidate_generation.md R212). -/
def genPrimeOn (d : Desc) : (budget cnt : Nat) → (draws : List Nat) → Option (Option Nat × Nat × List Nat)
  | 0, cnt, draws => some (none, cnt, draws)
  | budget + 1, cnt, draws =>
    match genRandOn d draws with
    | none => none
    | some (v, rest) =>
      let c := if v % 2 = 0 then v + 1 else v
      match fermatOn c d.rounds.toNat rest with
      | none => none
      | some (true, rest) => some (some c, cnt + 1, rest)
      | some (false, rest) => genPrimeOn d budget (cnt + 1) rest

/-- The loop of GENPQR with `outer` rounds left and `total` candidates so far: p, q and r, or none for GEN_FAIL, and
the final total (spec/43_candidate_generation.md R216). -/
def genPqrOn (d : Desc) : (outer total : Nat) → (draws : List Nat) → Option (Option (Nat × Nat × Nat) × Nat × List Nat)
  | 0, total, draws => some (none, total, draws)
  | outer + 1, total, draws =>
    match genPrimeOn d d.attemptCap.toNat 0 draws with
    | none => none
    | some (none, cnt, rest) => some (none, total + cnt, rest)
    | some (some p, cnt, rest) =>
      match genRandOn d rest with
      | none => none
      | some (q, rest) =>
        match genRandOn d rest with
        | none => none
        | some (r, rest) =>
          if p < q * r then some (some (p, q, r), total + cnt, rest) else genPqrOn d outer (total + cnt) rest

end Sys2Proof.Machine

/-! ## Encoding -/

/-- Decoding the word of a well-formed command gives the command back, with every operand at every value
(R101, R105). -/
def Obligations.DecodeEncodeRoundTrip : Prop := ∀ i : Instr, i.wf = true → decode (encode i) = .command i

/-- Every legal word is the word of its command, which is well formed: no two words mean one command
(R105, R106). -/
def Obligations.EncodeDecodeRoundTrip : Prop :=
  ∀ (w : Word) (i : Instr), decode w = .command i → i.wf = true ∧ encode i = w

/-- A word is legal exactly when it passes a row's match and mask and, for GENPQR, its destinations differ; and only the
word 0 is NOP (R105 to R107). -/
def Obligations.LegalExactlyByTable : Prop :=
  (∀ w : Word, (∃ i, decode w = .command i) ↔
    (∃ row ∈ tableRows, w &&& row.2 = row.1) ∧
      (w &&& 0xFFFE00FF = 0x0000002A →
        w.extractLsb' 8 3 ≠ w.extractLsb' 11 3 ∧ w.extractLsb' 8 3 ≠ w.extractLsb' 14 3 ∧
          w.extractLsb' 11 3 ≠ w.extractLsb' 14 3)) ∧
  (∀ w : Word, decode w = .command .nop ↔ w = 0)

/-- Words written out in spec/95_test_vectors.md decode to their commands, and illegal ones do not. -/
def Obligations.SpecWordsDecode : Prop :=
  decode 0x00068810 = .command (.modexp 0 1 2 3) ∧ decode 0x00028312 = .command (.montmul 3 0 2 1) ∧
  decode 0x00004219 = .command (.modinv 2 0 1) ∧ decode 0x00000820 = .command (.primetest 1) ∧
  decode 0x0000882A = .command (.genpqr 0 1 2) ∧ decode 0x00000031 = .command .extract ∧
  decode 0x0000892A = .illegal .equalDestinations ∧ decode 0x00168810 = .illegal .reservedBits

/-- The word of a command is OPC | d<<8 | a<<11 | b<<14 | c<<17 with unused fields 0 (R101, R109). -/
def Obligations.WordFromShiftedFields : Prop :=
  (∀ rd ra rb rc : Reg,
    encode (.modexp rd ra rb rc) = shiftedWord 0x10 rd ra rb rc ∧
    encode (.modmul rd ra rb rc) = shiftedWord 0x11 rd ra rb rc ∧
    encode (.montmul rd ra rb rc) = shiftedWord 0x12 rd ra rb rc) ∧
  (∀ rd ra rb : Reg,
    encode (.egcd rd ra rb) = shiftedWord 0x18 rd ra rb 0 ∧ encode (.modinv rd ra rb) = shiftedWord 0x19 rd ra rb 0 ∧
    encode (.genpqr rd ra rb) = shiftedWord 0x2A rd ra rb 0) ∧
  (∀ r : Reg,
    encode (.clr r) = shiftedWord 0x01 r 0 0 0 ∧ encode (.genprime r) = shiftedWord 0x28 r 0 0 0 ∧
    encode (.genrand r) = shiftedWord 0x29 r 0 0 0 ∧ encode (.primetest r) = shiftedWord 0x20 0 r 0 0) ∧
  encode .nop = 0x00 ∧ encode .embed = 0x30 ∧ encode .extract = 0x31

/-! ## The step -/

/-- While the host's next move has not arrived, the step of a running engine whose word decodes to a command is that
command's meaning; and a command placed by withFetchWord is run by the very next step (R131; logs 9, 19). -/
def Obligations.StepRunsDecodedCommand : Prop :=
  (∀ (s : State) (r : Running) (i : Instr), s.run = some r → 0 < engineTurns s.inbox → decode r.word = .command i →
    step s = exec i s) ∧
  (∀ (s : State) (nbits w : Nat) (i : Instr), decodeTableWord nbits w = some i →
    step (s.withFetchWord nbits w) = exec i (s.withFetchWord nbits w))

/-- While the engine is idle, or when the host's next move has arrived, the step is that move; with no move waiting an
idle machine stays as it is (R293; log 9). -/
def Obligations.StepServesHostMove : Prop :=
  (∀ (s : State) (e : HostEvent) (rest : List HostEvent), s.inbox = e :: rest → (s.run = none ∨ e.arrival = .after 0) →
    step s = hostMove e.move { s with inbox := rest }) ∧
  (∀ s : State, s.run = none → s.inbox = [] → step s = .next s)

/-- An illegal word is accepted like any other and completes with ILLEGAL_CMD and no other effect (R108). That it does
so even when asked to abort is the model's reading of R131 and R292 (log 13). -/
def Obligations.IllegalWordCompletes : Prop :=
  (∀ (s : State) (w : Word) (why : Illegal), decode w = .illegal why → s.run = none →
    ∃ t, writeReg .cmd w s = .next t ∧ busy t = true ∧ ∃ r, t.run = some r ∧ r.word = w) ∧
  (∀ (s : State) (r : Running) (why : Illegal), s.run = some r → decode r.word = .illegal why →
    0 < engineTurns s.inbox →
    ∃ t, step s = .next t ∧ completed .illegalCmd t ∧ sameResults s t ∧ sameSetting s t ∧ t.mem = s.mem)

/-! ## Reset -/

/-- Reset, in every state, leaves the reset values and writes no memory; a command in progress is abandoned without a
completion (R331 to R333). -/
def Obligations.ResetLeavesResetValues : Prop :=
  (∀ s : State, ∃ t, hostMove .reset s = .next t ∧ holdsResetValues t ∧ t.mem = s.mem ∧ t.params = s.params) ∧
  (∀ p : Params, holdsResetValues (State.resetWith p))

/-- The machine right after reset meets the invariant, for every build. -/
def Obligations.ResetMeetsInvariant : Prop := (∀ p : Params, (State.resetWith p).Inv) ∧ State.reset.Inv

/-! ## Invariants of every step -/

/-- Every step keeps the invariant: memory in canonical form, registers of the build's width, ERR never a reserved code
(R22, R291). -/
def Obligations.StepKeepsInvariant : Prop := ∀ s t : State, s.Inv → step s = .next t → t.Inv

/-- No step changes OPW, BASE, MemAdmits or DMA_COHERENT; and of all commands only EMBED and EXTRACT, of all host
moves only a store and a cache clean, write memory (R6, R70, R332). That no other move writes a dirty byte back rests
on the model's host cache, which evicts nothing by itself (R88; log 4). -/
def Obligations.OnlyCodecAndHostWriteMemory : Prop :=
  (∀ s t : State, step s = .next t → t.params = s.params) ∧
  (∀ (i : Instr) (s t : State), i ≠ .embed → i ≠ .extract → exec i s = .next t → t.mem = s.mem) ∧
  (∀ (m : HostMove) (s t : State), hostMove m s = .next t → t.mem ≠ s.mem →
    (∃ a v, m = .memStore a v) ∨ (∃ a n, m = .cacheClean a n))

/-! ## The host port -/

/-- A CMD write at BASE + 0x010 while idle, with every source word written and no store to the command's buffers still
to be performed at memory, is accepted: BUSY, DONE, abort_req, cur and phase change and nothing else; while BUSY it is
dropped (R130). The host's cached copies keep their bytes: where DMA is not coherent the model marks the copies handed
over (log 4). -/
def Obligations.CmdWriteAccepted : Prop :=
  (∀ (s : State) (e : Arrival) (rest : List HostEvent) (w : Word), s.run = none →
    s.inbox = ⟨e, .mmioWrite (s.params.base + 0x010) 4 w⟩ :: rest →
    (∀ i, decode w = .command i → ∀ k ∈ sources i, ∀ x ∈ s.bigs[k], x.written = true) →
    (s.params.dmaCoherent = false →
      ∀ c ∈ s.cache, c.copy = .dirty ∨ c.copy = .lost → inRanges (ownedRanges w s.desc) c.addr.toNat = false) →
    ∃ cache, step s = .next { s with
        inbox := rest
        done := false
        run := some ⟨w, ⟨s.bigs, s.desc, s.embedMode⟩, .fresh, false, s.mem⟩
        cache := cache } ∧
      (s.params.dmaCoherent = true → cache = s.cache) ∧
      cache.map (fun c => (c.addr, c.byte)) = s.cache.map (fun c => (c.addr, c.byte))) ∧
  (∀ (s : State) (r : Running) (rest : List HostEvent) (w : Word), s.run = some r →
    s.inbox = ⟨.after 0, .mmioWrite (s.params.base + 0x010) 4 w⟩ :: rest →
    step s = .next { s with inbox := rest, ovr := true })

/-- Issuing a command with an unwritten source word is the model fault UnwrittenRead at such a word (R298). -/
def Obligations.UnwrittenSourceFaults : Prop :=
  ∀ (s : State) (w : Word) (i : Instr) (k : Reg) (x : BigWord), s.run = none → decode w = .command i →
    k ∈ sources i → x ∈ s.bigs[k] → x.written = false →
    ∃ (k' : Reg) (j : Nat) (y : BigWord), k' ∈ sources i ∧ s.bigs[k'][j]? = some y ∧ y.written = false ∧
      writeReg .cmd w s = .fault (.unwrittenRead k' j)

/-- The busy guard: while BUSY a write of CMD, a descriptor or a big-register word changes nothing but OVR; CTRL and
STATUS are never dropped; RO registers and reserved offsets ignore writes at all times; reads are never dropped (R49).
-/
def Obligations.BusyGuardDropsWrites : Prop :=
  (∀ (s : State) (v : Word), busy s = true →
    writeReg .cmd v s = .next { s with ovr := true } ∧
    (∀ d, writeReg (.desc d) v s = .next { s with ovr := true }) ∧
    (∀ k i, i < s.params.opwWords → writeReg (.bigWord k i) v s = .next { s with ovr := true }) ∧
    (∃ t, writeReg .ctrl v s = .next t ∧ t.ie = v.getLsbD 0 ∧ t.ovr = s.ovr) ∧
    (∃ t, writeReg .status v s = .next t ∧ t.done = (s.done && !v.getLsbD 1) ∧ t.ovr = (s.ovr && !v.getLsbD 2))) ∧
  (∀ (s : State) (v : Word), ∀ reg ∈ [MmioReg.id, .param, .attempts, .outLen, .reserved], writeReg reg v s = .next s) ∧
  (∀ (s : State) (reg : MmioReg) (v : Word), readReg reg s = .ok v →
    ∃ t, hostRead reg s = .next t ∧ t.replies.head? = some (.mmio v))

/-- While idle a write at BASE + 0x1000 + 0x1000 k + 4 i sets word i of Bk and marks it written, nothing else changes,
and the host reads it back there; while BUSY it is dropped with OVR (R134). -/
def Obligations.BigWordWriteThenRead : Prop :=
  (∀ (s : State) (k : Reg) (i : Nat) (v : Word), s.run = none → s.Inv → i < s.params.opwWords →
    ∃ t, hostMove (.mmioWrite (wordAddr s k i) 4 v) s = .next t ∧
      hostMove (.mmioRead (wordAddr s k i) 4) t = .next (reply (.mmio v) t) ∧ t.bigs[k][i]? = some ⟨v, true⟩ ∧
      (∀ j, j ≠ i → t.bigs[k][j]? = s.bigs[k][j]?) ∧ (∀ l : Reg, l ≠ k → t.bigs[l] = s.bigs[l]) ∧
      t = { s with bigs := t.bigs }) ∧
  (∀ (s : State) (r : Running) (k : Reg) (i : Nat) (v : Word), s.run = some r → i < s.params.opwWords →
    hostMove (.mmioWrite (wordAddr s k i) 4 v) s = .next { s with ovr := true })

/-- A host read at BASE + 0x1000 + 0x1000 k + 4 i gives word i of Bk if it is written and is the model fault
UnwrittenRead if not; words past OPW_WORDS read 0 and ignore writes (R44, R135). -/
def Obligations.BigWordReadOrFault : Prop :=
  (∀ (s : State) (k : Reg) (i : Nat) (x : BigWord), i < s.params.opwWords → s.bigs[k][i]? = some x →
    (x.written = true → hostMove (.mmioRead (wordAddr s k i) 4) s = .next (reply (.mmio x.value) s)) ∧
    (x.written = false → hostMove (.mmioRead (wordAddr s k i) 4) s = .fault (.unwrittenRead k i))) ∧
  (∀ (s : State) (k : Reg) (i : Nat) (v : Word), s.params.opwWords ≤ i → i < 1024 →
    hostMove (.mmioRead (wordAddr s k i) 4) s = .next (reply (.mmio 0) s) ∧
    hostMove (.mmioWrite (wordAddr s k i) 4 v) s = .next s)

/-- The register behind each offset of the block, for reads and writes alike (R25, R44). -/
def Obligations.OffsetsNameRegisters : Prop :=
  ∀ (s : State) (v : Word),
    (∀ p ∈ [(0x000, MmioReg.id), (0x004, .param), (0x008, .ctrl), (0x00C, .status), (0x010, .cmd), (0x024, .attempts),
        (0x040, .outLen)],
      hostMove (.mmioRead (s.params.base + p.1) 4) s = hostRead p.2 s ∧
      hostMove (.mmioWrite (s.params.base + p.1) 4 v) s = writeReg p.2 v s) ∧
    (∀ d, hostMove (.mmioRead (s.params.base + descOffset d) 4) s = hostRead (.desc d) s ∧
      hostMove (.mmioWrite (s.params.base + descOffset d) 4 v) s = writeReg (.desc d) v s) ∧
    (∀ (k : Reg) (i : Nat), i < 1024 →
      hostMove (.mmioRead (wordAddr s k i) 4) s = hostRead (.bigWord k i) s ∧
      hostMove (.mmioWrite (wordAddr s k i) 4 v) s = writeReg (.bigWord k i) v s)

/-- While idle a write at a descriptor's offset stores the value, every value, changes nothing else, and is read back
there (R25, R31 to R34, R36 to R41). -/
def Obligations.DescriptorWriteThenRead : Prop :=
  ∀ (s : State) (d : DescReg) (v : Word), s.run = none →
    ∃ t, hostMove (.mmioWrite (s.params.base + descOffset d) 4 v) s = .next t ∧
      hostMove (.mmioRead (s.params.base + descOffset d) 4) t = .next (reply (.mmio v) t) ∧ t.desc.get d = v ∧
      (∀ e, e ≠ d → t.desc.get e = s.desc.get e) ∧ t = { s with desc := t.desc }

/-- An MMIO access that is not an aligned 32-bit access is the model fault UnsupportedMmio; one outside the block is
refused (R43, R71). -/
def Obligations.OnlyAlignedWordAccess : Prop :=
  ∀ (s : State) (addr width : Nat) (v : Word),
    (s.params.base ≤ addr ∧ addr < s.params.base + 0x9000 ∧ (width ≠ 4 ∨ (addr - s.params.base) % 4 ≠ 0) →
      hostMove (.mmioWrite addr width v) s = .fault (.unsupportedMmio (addr - s.params.base) width) ∧
      hostMove (.mmioRead addr width) s = .fault (.unsupportedMmio (addr - s.params.base) width)) ∧
    (addr < s.params.base ∨ s.params.base + 0x9000 ≤ addr →
      hostMove (.mmioWrite addr width v) s = .refused (.outsideBlock addr) ∧
      hostMove (.mmioRead addr width) s = .refused (.outsideBlock addr))

/-- No MMIO read has a side effect: the machine after it differs by the reply alone, and the same read again gives the
same value (R75). -/
def Obligations.ReadsHaveNoSideEffect : Prop :=
  ∀ (s t : State) (addr width : Nat), hostMove (.mmioRead addr width) s = .next t →
    ∃ v, t = { s with replies := .mmio v :: s.replies } ∧
      hostMove (.mmioRead addr width) t = .next { t with replies := .mmio v :: t.replies }

/-- The STATUS word, field by field, and what a write of it does: only DONE and OVR, and only where 1 is written
(R29, R296). -/
def Obligations.StatusFieldsAndAcknowledge : Prop :=
  (∀ s : State,
    (statusWord s).getLsbD 0 = busy s ∧ (statusWord s).getLsbD 1 = s.done ∧ (statusWord s).getLsbD 2 = s.ovr ∧
    (statusWord s).getLsbD 3 = false ∧ (statusWord s).extractLsb' 4 4 = s.err.code ∧
    (statusWord s).getLsbD 8 = s.prime ∧ (statusWord s).getLsbD 9 = s.neg ∧ (statusWord s).extractLsb' 10 22 = 0#22) ∧
  (∀ (s : State) (v : Word), ∃ t, writeReg .status v s = .next t ∧ statusWord t = statusWord s &&& ~~~(v &&& 6) ∧
    t = { s with done := t.done, ovr := t.ovr })

/-- CTRL: IE and EMBED_MODE are stored and read back, ABORT reads 0 and requests an abort only while RUNNING, reserved
bits read 0; the mode is sampled at acceptance (R28). -/
def Obligations.CtrlWriteAndSample : Prop :=
  (∀ (s : State) (v : Word), ∃ t, writeReg .ctrl v s = .next t ∧ readReg .ctrl t = .ok (v &&& 3) ∧
    t.ie = v.getLsbD 0 ∧ (t.embedMode = .decrement ↔ v.getLsbD 1 = true) ∧
    (s.run = none → t.run = none) ∧
    (∀ r, s.run = some r → t.run = some { r with abortReq := r.abortReq || v.getLsbD 2 }) ∧
    t = { s with ie := t.ie, embedMode := t.embedMode, run := t.run }) ∧
  (∀ (s : State) (w : Word), ∃ r, (takeCommand w s).run = some r ∧ r.snap.embedMode = s.embedMode ∧ r.abortReq = false)

/-- Every aligned offset from 0x044 to 0x0FFC reads 0 and ignores writes (R43). -/
def Obligations.ReservedOffsetsReadZero : Prop :=
  ∀ (s : State) (off : Nat) (v : Word), 0x044 ≤ off → off ≤ 0xFFC → off % 4 = 0 →
    hostMove (.mmioRead (s.params.base + off) 4) s = .next { s with replies := .mmio 0 :: s.replies } ∧
    hostMove (.mmioWrite (s.params.base + off) 4 v) s = .next s

/-- irq is the level IE AND DONE: enabled by IE, raised by a completion, lowered by an acknowledge, the next acceptance or
reset, untouched by an overrun, and read as it is by the host (R295). -/
def Obligations.IrqFollowsDone : Prop :=
  ∀ (s : State) (w : Word) (c : ErrCode),
    irq (finish c s) = s.ie ∧ (s.ie = false → irq s = false) ∧ (s.ie = true → irq s = s.done) ∧
    (∀ v : Word, v.getLsbD 1 = true → ∃ t, writeReg .status v s = .next t ∧ irq t = false) ∧
    irq (takeCommand w s) = false ∧ irq (resetEngine s) = false ∧ irq (dropWrite s) = irq s ∧
    hostMove .senseIrq s = .next { s with replies := .irq (irq s) :: s.replies }

/-! ## Memory and handoff -/

/-- A host store outside the running command's buffers is performed at memory at once where DMA is coherent; where it
is not, it reaches memory when the host cleans its cache, a cached copy that is dirty or clean answers a load
whatever memory holds, and after an invalidate the load gives memory's byte (R81, R88; the cache is the model's, log
4, and so is serving the host where MemAdmits refuses the engine, log 28). -/
def Obligations.HostStoreReachesMemory : Prop :=
  (∀ (s : State) (a : Addr) (v : Byte), outsideBuffers a s → s.mem.wf = true → s.params.dmaCoherent = true →
    ∃ t, hostMove (.memStore a v) s = .next t ∧ t = { s with mem := t.mem } ∧
      (∀ x, memRead t.mem x = if x = a.toNat then v else memRead s.mem x)) ∧
  (∀ (s : State) (a : Addr) (v : Byte), outsideBuffers a s → s.mem.wf = true → s.params.dmaCoherent = false →
    ∃ t u, hostMove (.memStore a v) s = .next t ∧ t = { s with cache := t.cache } ∧
      hostMove (.memLoad a) t = .next (reply (.mem v) t) ∧ hostMove (.cacheClean a 1) t = .next u ∧
      (∀ x, memRead u.mem x = if x = a.toNat then v else memRead s.mem x)) ∧
  (∀ (s : State) (a : Addr) (c : CacheByte), s.params.dmaCoherent = false → cached a s = some c →
    c.copy = .dirty ∨ c.copy = .clean → hostMove (.memLoad a) s = .next (reply (.mem c.byte) s)) ∧
  (∀ (s : State) (a : Addr), outsideBuffers a s → s.params.dmaCoherent = false →
    ∃ t u, hostMove (.cacheInvalidate a 1) s = .next t ∧ hostMove (.memLoad a) t = .next u ∧
      u.replies.head? = some (.mem (memRead s.mem a.toNat)))

/-- The host's duties towards a command's buffers, whose breach is the fault HostDuty: no store to them while an EMBED
or EXTRACT runs (R84); and, where DMA is not coherent, no CMD write after a store to them that memory does not hold,
whether it waits in the host's caches or an invalidate dropped it (R81, R88), and no load of a copy older than the
completion of a command whose buffer it lies in (R82, R88).
The faults are the model's form of moves the spec gives no host (R298, R306; log 15). -/
def Obligations.HostDutiesAreKept : Prop :=
  (∀ (s : State) (r : Running) (a : Addr) (v : Byte), s.run = some r →
    ((r.snap.desc.pixBase.toNat ≤ a.toNat ∧ a.toNat < r.snap.desc.pixBase.toNat + slotCount r.snap.desc ∧
        (decode r.word = .command .embed ∨ decode r.word = .command .extract)) ∨
      (r.snap.desc.msgBase.toNat ≤ a.toNat ∧ a.toNat < r.snap.desc.msgBase.toNat + r.snap.desc.msgLen.toNat ∧
        decode r.word = .command .embed) ∨
      (r.snap.desc.msgBase.toNat ≤ a.toNat ∧ a.toNat < r.snap.desc.msgBase.toNat + r.snap.desc.msgCap.toNat ∧
        decode r.word = .command .extract)) →
    hostMove (.memStore a v) s = .fault (.hostDuty .leaveBuffersAlone)) ∧
  (∀ (s : State) (w : Word) (c : CacheByte), s.run = none → s.params.dmaCoherent = false →
    decode w = .command .embed ∨ decode w = .command .extract → c ∈ s.cache →
    c.copy = .dirty ∨ c.copy = .lost → inRanges (ownedRanges w s.desc) c.addr.toNat = true →
    writeReg .cmd w s = .fault (.hostDuty .performStores)) ∧
  (∀ (s t u : State) (w : Word) (a x : Addr) (v : Byte) (n : Nat), s.run = none → s.params.dmaCoherent = false →
    decode w = .command .embed ∨ decode w = .command .extract → inRanges (ownedRanges w s.desc) a.toNat = true →
    hostMove (.memStore a v) s = .next t → x.toNat ≤ a.toNat → a.toNat < x.toNat + n →
    hostMove (.cacheInvalidate x n) t = .next u → writeReg .cmd w u = .fault (.hostDuty .performStores)) ∧
  (∀ (s t : State) (w : Word) (a : Addr) (c : CacheByte), s.params.dmaCoherent = false →
    cached a (takeCommand w s) = some c → inRanges (ownedRanges w s.desc) a.toNat = true → c.copy ≠ .dirty →
    c.copy ≠ .lost → t.params = s.params → t.cache = (takeCommand w s).cache → t.run = none →
    hostMove (.memLoad a) t = .fault (.hostDuty .invalidateCopies))

/-- A host load of a byte the running command may write gives its value before the command or its value now, every
load either of them; of any other byte, its value (R84). So do a load with no copy of the host's and one whose copy is
handed to the running command, whatever an earlier load put into that copy (R84, R88; logs 4, 8, 18, and 28 where
MemAdmits refuses the engine). -/
def Obligations.HostLoadRaces : Prop :=
  ∀ (s : State) (r : Running) (a : Addr), s.run = some r →
    (s.params.dmaCoherent = false → ∀ c, cached a s = some c →
      c.copy = .lost ∨ c.copy = .handed ∧ engineOwns a s = true) →
    ∃ t b, hostMove (.memLoad a) s = .next t ∧ t.replies.head? = some (.mem b) ∧ t.mem = s.mem ∧
      (b = memRead r.before a.toNat ∨ b = memRead s.mem a.toNat) ∧
      (engineMayWrite a s = false → b = memRead s.mem a.toNat) ∧
      (engineMayWrite a s = true → s.races.head? = some true → b = memRead r.before a.toNat) ∧
      (s.races.head? = some false → b = memRead s.mem a.toNat)

/-! ## Housekeeping and arithmetic -/

/-- NOP completes with OK and changes nothing else (R132). -/
def Obligations.NopCompletes : Prop :=
  ∀ (s : State) (r : Running), s.EngineToMove r →
    ∃ t, exec .nop s = .next t ∧ completed .ok t ∧ sameResults s t ∧ sameSetting s t ∧ t.mem = s.mem

/-- CLR writes 0 to every word of Bd, marks each written, and changes nothing else (R133). -/
def Obligations.ClrCompletes : Prop :=
  ∀ (s : State) (r : Running) (rd : Reg), s.EngineToMove r →
    ∃ t, exec (.clr rd) s = .next t ∧ completed .ok t ∧
      t.bigs[rd].length = s.params.opwWords ∧ (∀ x ∈ t.bigs[rd], x.value = 0 ∧ x.written = true) ∧
      (∀ k : Reg, k ≠ rd → t.bigs[k] = s.bigs[k]) ∧
      t.prime = s.prime ∧ t.neg = s.neg ∧ t.attempts = s.attempts ∧ t.outLen = s.outLen ∧ sameSetting s t ∧ t.mem = s.mem

/-- MODEXP with a non-zero modulus gives base ^ exponent mod modulus, whatever the relation of Bd to the sources
(R151, R152). -/
def Obligations.ModexpResult : Prop :=
  ∀ (s : State) (r : Running) (rd ra rb rc : Reg), s.EngineToMove r → bigsSized s.params r.snap.bigs →
    operand rc r ≠ 0 →
    ∃ t, exec (.modexp rd ra rb rc) s = .next t ∧ completed .ok t ∧
      bigValue t.bigs[rd] = operand ra r ^ operand rb r % operand rc r ∧ firstUnwritten t.bigs[rd] = none ∧
      (∀ k : Reg, k ≠ rd → t.bigs[k] = s.bigs[k]) ∧
      t.prime = s.prime ∧ t.neg = s.neg ∧ t.attempts = s.attempts ∧ t.outLen = s.outLen ∧ sameSetting s t ∧ t.mem = s.mem

/-- MODMUL with a non-zero modulus gives the product modulo it (R153). -/
def Obligations.ModmulResult : Prop :=
  ∀ (s : State) (r : Running) (rd ra rb rc : Reg), s.EngineToMove r → bigsSized s.params r.snap.bigs →
    operand rc r ≠ 0 →
    ∃ t, exec (.modmul rd ra rb rc) s = .next t ∧ completed .ok t ∧
      bigValue t.bigs[rd] = operand ra r * operand rb r % operand rc r ∧ firstUnwritten t.bigs[rd] = none ∧
      (∀ k : Reg, k ≠ rd → t.bigs[k] = s.bigs[k]) ∧
      t.prime = s.prime ∧ t.neg = s.neg ∧ t.attempts = s.attempts ∧ t.outLen = s.outLen ∧ sameSetting s t ∧ t.mem = s.mem

/-- MONTMUL with an odd modulus m gives the one r in [0, m) with r * 2^OPW = x * y modulo m; with an even non-zero
modulus it ends with EVEN_MOD (R154). -/
def Obligations.MontmulResult : Prop :=
  ∀ (s : State) (r : Running) (rd ra rb rc : Reg), s.EngineToMove r → bigsSized s.params r.snap.bigs →
    (operand rc r % 2 = 1 →
      ∃ t, exec (.montmul rd ra rb rc) s = .next t ∧ completed .ok t ∧ firstUnwritten t.bigs[rd] = none ∧
        (∀ v, bigValue t.bigs[rd] = v ↔
          v < operand rc r ∧ v * 2 ^ s.params.opw % operand rc r = operand ra r * operand rb r % operand rc r) ∧
        (∀ k : Reg, k ≠ rd → t.bigs[k] = s.bigs[k]) ∧
        t.prime = s.prime ∧ t.neg = s.neg ∧ t.attempts = s.attempts ∧ t.outLen = s.outLen ∧ sameSetting s t ∧
        t.mem = s.mem) ∧
    (operand rc r % 2 = 0 → operand rc r ≠ 0 →
      ∃ t, exec (.montmul rd ra rb rc) s = .next t ∧ completed .evenMod t ∧ sameResults s t ∧ sameSetting s t ∧
        t.mem = s.mem)

/-- A zero modulus ends MODEXP, MODMUL, MONTMUL and MODINV with MOD_ZERO and no other effect (R151, R153, R154, R157). -/
def Obligations.ZeroModulusReported : Prop :=
  ∀ (s : State) (r : Running) (rd ra rb rc : Reg), s.EngineToMove r → operand rc r = 0 →
    ∀ i ∈ [Instr.modexp rd ra rb rc, .modmul rd ra rb rc, .montmul rd ra rb rc, .modinv rd ra rc],
      ∃ t, exec i s = .next t ∧ completed .modZero t ∧ sameResults s t ∧ sameSetting s t ∧ t.mem = s.mem

/-- EGCD returns the magnitude of egcd_x(a, b) in Bd and its sign in NEG: the coefficient of a in Bezout's identity,
at most max(1, b) (R155, R156). -/
def Obligations.EgcdResult : Prop :=
  ∀ (s : State) (r : Running) (rd ra rb : Reg), s.EngineToMove r → bigsSized s.params r.snap.bigs →
    ∃ (t : State) (x : Int), exec (.egcd rd ra rb) s = .next t ∧ completed .ok t ∧
      x = egcdX (operand ra r) (operand rb r) ∧ bigValue t.bigs[rd] = x.natAbs ∧ (t.neg = true ↔ x < 0) ∧
      (∃ y : Int, (operand ra r : Int) * x + operand rb r * y = (Nat.gcd (operand ra r) (operand rb r) : Nat)) ∧
      bigValue t.bigs[rd] ≤ max 1 (operand rb r) ∧ firstUnwritten t.bigs[rd] = none ∧
      (∀ k : Reg, k ≠ rd → t.bigs[k] = s.bigs[k]) ∧
      t.prime = s.prime ∧ t.attempts = s.attempts ∧ t.outLen = s.outLen ∧ sameSetting s t ∧ t.mem = s.mem

/-- The model's egcd_x is the recurrence of R155: its loop, given turns enough, ends with x0 where r1 = 0 and else
goes on with (r1, r0 mod r1) and (x1, x0 - q * x1); and egcd_x starts it at (a, b), (1, 0). -/
def Obligations.EgcdFollowsRecurrence : Prop :=
  (∀ (n m r0 r1 : Nat) (x0 x1 : Int), r1 < n → r0 % r1 < m →
    egcdLoop n r0 r1 x0 x1 =
      if r1 = 0 then x0 else egcdLoop m r1 (r0 % r1) x1 (x0 - ((r0 / r1 : Nat) : Int) * x1)) ∧
  (∀ (n a b : Nat), b < n → egcdX a b = egcdLoop n a b 1 0)

/-- MODINV succeeds exactly when gcd(a, m) = 1 and m >= 2, and then gives the inverse in [0, m); with any other
non-zero m it ends with INV_NOT_FOUND (R157). -/
def Obligations.ModinvResult : Prop :=
  ∀ (s : State) (r : Running) (rd ra rb : Reg), s.EngineToMove r → bigsSized s.params r.snap.bigs →
    (Nat.gcd (operand ra r) (operand rb r) = 1 → 2 ≤ operand rb r →
      ∃ t, exec (.modinv rd ra rb) s = .next t ∧ completed .ok t ∧ firstUnwritten t.bigs[rd] = none ∧
        bigValue t.bigs[rd] < operand rb r ∧ operand ra r * bigValue t.bigs[rd] % operand rb r = 1 ∧
        (∀ k : Reg, k ≠ rd → t.bigs[k] = s.bigs[k]) ∧
        t.prime = s.prime ∧ t.neg = s.neg ∧ t.attempts = s.attempts ∧ t.outLen = s.outLen ∧ sameSetting s t ∧
        t.mem = s.mem) ∧
    (operand rb r ≠ 0 → (Nat.gcd (operand ra r) (operand rb r) ≠ 1 ∨ operand rb r = 1) →
      ∃ t, exec (.modinv rd ra rb) s = .next t ∧ completed .invNotFound t ∧ sameResults s t ∧ sameSetting s t ∧
        t.mem = s.mem)

/-! ## Primality -/

/-- PRIMETEST completes with OK whatever the draws; PRIME is 0 for 0 and 1, 1 for 2 and 3 and, with ROUNDS = 0, for
every larger number, and 1 for every prime: PRIME = 0 proves the number composite or at most 1 (R191, R193, R194). -/
def Obligations.PrimetestCompletes : Prop :=
  ∀ (s : State) (r : Running) (ra : Reg), s.Undisturbed r →
    ∃ t, exec (.primetest ra) s = .next t ∧ completed .ok t ∧ t.bigs = s.bigs ∧ t.neg = s.neg ∧
      t.attempts = s.attempts ∧ t.outLen = s.outLen ∧ sameSetting s t ∧ t.mem = s.mem ∧
      (operand ra r ≤ 1 → t.prime = false) ∧
      (operand ra r = 2 ∨ operand ra r = 3 → t.prime = true) ∧
      (2 ≤ operand ra r → r.snap.desc.rounds = 0 → t.prime = true) ∧
      (Nat.Prime (operand ra r) → t.prime = true) ∧
      (t.prime = false → ¬ Nat.Prime (operand ra r)) ∧
      (operand ra r = 4 ∨ operand ra r = 18 → r.snap.desc.rounds ≠ 0 → t.prime = false)

/-- PRIMETEST of num >= 4 tests the draws in order, each in [2, num - 2], until the first witness or ROUNDS of them:
PRIME is 1 exactly when none of the first ROUNDS is a witness, and the draws after the first witness are not taken
(R190, R192). -/
def Obligations.PrimetestFollowsDraws : Prop :=
  ∀ (s : State) (r : Running) (ra : Reg) (draws : List Nat), s.Undisturbed r → 4 ≤ operand ra r →
    s.entropy = draws → draws.length = r.snap.desc.rounds.toNat →
    (∀ a ∈ draws, 2 ≤ a ∧ a ≤ operand ra r - 2) →
    ∃ t, exec (.primetest ra) s = .next t ∧ completed .ok t ∧
      t.prime = draws.all (fun a => a ^ (operand ra r - 1) % operand ra r == 1) ∧
      t.entropy = (draws.dropWhile fun a => a ^ (operand ra r - 1) % operand ra r == 1).tail

/-! ## Candidate generation -/

/-- An illegal configuration ends GENPRIME, GENRAND and GENPQR with CONFIG, with ATTEMPTS 0 for GENPRIME and GENPQR, no
destination written and no draw made (R210). -/
def Obligations.IllegalConfigReported : Prop :=
  ∀ (s : State) (r : Running) (rd ra rb : Reg), s.EngineToMove r → r.progress = .fresh →
    ¬ (1 ≤ r.snap.desc.minbits.toNat ∧ r.snap.desc.minbits.toNat ≤ r.snap.desc.maxbits.toNat ∧
      r.snap.desc.maxbits.toNat ≤ s.params.opw) →
    ∀ i ∈ [Instr.genprime rd, .genrand rd, .genpqr rd ra rb],
      ∃ t, exec i s = .next t ∧ completed .config t ∧ t.bigs = s.bigs ∧ t.prime = s.prime ∧ t.neg = s.neg ∧
        t.outLen = s.outLen ∧ t.attempts = (if i = .genrand rd then s.attempts else 0) ∧ sameSetting s t ∧
        t.mem = s.mem ∧ t.entropy = s.entropy ∧ t.drawCount = s.drawCount

/-- GENRAND gives a value whose bit-length is a drawn L in [MINBITS, MAXBITS], the first draw being L and the second
the value (R214, R215, R219). -/
def Obligations.GenrandResult : Prop :=
  ∀ (s : State) (r : Running) (rd : Reg), s.Undisturbed r → configLegal s.params.opw r.snap.desc = true →
    ∃ (t : State) (len : Nat), exec (.genrand rd) s = .next t ∧ completed .ok t ∧
      r.snap.desc.minbits.toNat ≤ len ∧ len ≤ r.snap.desc.maxbits.toNat ∧
      2 ^ (len - 1) ≤ bigValue t.bigs[rd] ∧ bigValue t.bigs[rd] < 2 ^ len ∧ firstUnwritten t.bigs[rd] = none ∧
      (∀ l v rest, s.entropy = l :: v :: rest → r.snap.desc.minbits.toNat ≤ l → l ≤ r.snap.desc.maxbits.toNat →
        2 ^ (l - 1) ≤ v → v < 2 ^ l → bigValue t.bigs[rd] = v ∧ t.entropy = rest) ∧
      (∀ k : Reg, k ≠ rd → t.bigs[k] = s.bigs[k]) ∧
      t.prime = s.prime ∧ t.neg = s.neg ∧ t.attempts = s.attempts ∧ t.outLen = s.outLen ∧ sameSetting s t ∧ t.mem = s.mem

/-- GENPRIME with a legal configuration is gen_prime() on its draws in order (the length, the value, then the
witnesses of each candidate): whatever the draws, it ends with OK, the candidate that passed fermat(c, ROUNDS) in Bd
and the number of candidates in ATTEMPTS, or with GEN_FAIL, no register written and ATTEMPT_CAP in ATTEMPTS; draws
that wait at the entropy input are the ones it takes. A candidate found is odd and of a bit-length in [MINBITS,
MAXBITS] (R211 to R213, R217). -/
def Obligations.GenprimeResult : Prop :=
  ∀ (s : State) (r : Running) (rd : Reg), s.Undisturbed r → configLegal s.params.opw r.snap.desc = true →
    ∃ (t : State) (draws : List Nat) (found : Option Nat) (cnt : Nat), exec (.genprime rd) s = .next t ∧
      genPrimeOn r.snap.desc r.snap.desc.attemptCap.toNat 0 draws = some (found, cnt, []) ∧
      t.drawCount = s.drawCount + draws.length ∧ t.entropy = s.entropy.drop draws.length ∧
      (∀ found' cnt' rest, genPrimeOn r.snap.desc r.snap.desc.attemptCap.toNat 0 s.entropy = some (found', cnt', rest) →
        found = found' ∧ cnt = cnt' ∧ t.entropy = rest) ∧
      (∀ k : Reg, k ≠ rd → t.bigs[k] = s.bigs[k]) ∧
      t.prime = s.prime ∧ t.neg = s.neg ∧ t.outLen = s.outLen ∧ sameSetting s t ∧ t.mem = s.mem ∧
      t.attempts.toNat = cnt ∧ cnt ≤ r.snap.desc.attemptCap.toNat ∧
      match found with
      | some c =>
        completed .ok t ∧ bigValue t.bigs[rd] = c ∧ firstUnwritten t.bigs[rd] = none ∧ 1 ≤ cnt ∧ c % 2 = 1 ∧
          ∃ len, r.snap.desc.minbits.toNat ≤ len ∧ len ≤ r.snap.desc.maxbits.toNat ∧ 2 ^ (len - 1) ≤ c ∧ c < 2 ^ len
      | none => completed .genFail t ∧ t.bigs = s.bigs ∧ t.attempts = r.snap.desc.attemptCap

/-- The corner cases of GENPRIME: ATTEMPT_CAP = 0 fails with no draw; 1-bit candidates always fail after ATTEMPT_CAP
of them; 2-bit candidates give 3 at the first, with ATTEMPTS 1; with ROUNDS = 0 and MINBITS >= 2 the first candidate
is accepted (R218). -/
def Obligations.GenprimeCorners : Prop :=
  ∀ (s : State) (r : Running) (rd : Reg), s.Undisturbed r → configLegal s.params.opw r.snap.desc = true →
    ∃ t, exec (.genprime rd) s = .next t ∧
      (r.snap.desc.attemptCap = 0 → completed .genFail t ∧ t.attempts = 0 ∧ t.drawCount = s.drawCount) ∧
      (r.snap.desc.maxbits = 1 → completed .genFail t ∧ t.attempts = r.snap.desc.attemptCap) ∧
      (r.snap.desc.minbits = 2 → r.snap.desc.maxbits = 2 → r.snap.desc.attemptCap ≠ 0 →
        completed .ok t ∧ bigValue t.bigs[rd] = 3 ∧ t.attempts = 1) ∧
      (2 ≤ r.snap.desc.minbits.toNat → r.snap.desc.rounds = 0 → r.snap.desc.attemptCap ≠ 0 →
        completed .ok t ∧ t.attempts = 1 ∧ bigValue t.bigs[rd] % 2 = 1)

/-- GENPQR with a legal configuration is the loop of R216 on its draws in order: whatever the draws, it ends with OK
and p, q and r of a round with p < q * r, p having passed gen_prime(), or with GEN_FAIL and no register written;
ATTEMPTS is the total of the candidates of all its gen_prime() calls, saturated at 2^32 - 1, either way; draws that
wait at the entropy input are the ones it takes. With MINBITS = MAXBITS >= 2 and ROUNDS = 0, or 2-bit candidates, it
succeeds in its first round (R211, R216 to R218). -/
def Obligations.GenpqrResult : Prop :=
  ∀ (s : State) (r : Running) (rd ra rb : Reg), s.Undisturbed r → configLegal s.params.opw r.snap.desc = true →
    (Instr.genpqr rd ra rb).wf = true →
    ∃ (t : State) (draws : List Nat) (found : Option (Nat × Nat × Nat)) (total : Nat),
      exec (.genpqr rd ra rb) s = .next t ∧
      genPqrOn r.snap.desc r.snap.desc.attemptCap.toNat 0 draws = some (found, total, []) ∧
      t.drawCount = s.drawCount + draws.length ∧ t.entropy = s.entropy.drop draws.length ∧
      (∀ found' total' rest, genPqrOn r.snap.desc r.snap.desc.attemptCap.toNat 0 s.entropy = some (found', total', rest) →
        found = found' ∧ total = total' ∧ t.entropy = rest) ∧
      (∀ k : Reg, k ∉ [rd, ra, rb] → t.bigs[k] = s.bigs[k]) ∧
      t.prime = s.prime ∧ t.neg = s.neg ∧ t.outLen = s.outLen ∧ sameSetting s t ∧ t.mem = s.mem ∧
      t.attempts.toNat = min total (2 ^ 32 - 1) ∧
      (match found with
      | some (p, q, w) =>
        completed .ok t ∧ bigValue t.bigs[rd] = p ∧ bigValue t.bigs[ra] = q ∧ bigValue t.bigs[rb] = w ∧ p < q * w ∧
          p % 2 = 1 ∧ 1 ≤ total ∧ (∀ k ∈ [rd, ra, rb], firstUnwritten t.bigs[k] = none) ∧
          ∀ v ∈ [p, q, w], ∃ len, r.snap.desc.minbits.toNat ≤ len ∧ len ≤ r.snap.desc.maxbits.toNat ∧
            2 ^ (len - 1) ≤ v ∧ v < 2 ^ len
      | none => completed .genFail t ∧ t.bigs = s.bigs) ∧
      (r.snap.desc.minbits = r.snap.desc.maxbits → 2 ≤ r.snap.desc.minbits.toNat → r.snap.desc.attemptCap ≠ 0 →
        (r.snap.desc.rounds = 0 ∨ r.snap.desc.minbits = 2) → completed .ok t ∧ t.attempts = 1) ∧
      (r.snap.desc.attemptCap = 0 → completed .genFail t ∧ t.attempts = 0 ∧ t.drawCount = s.drawCount)

/-! ## The LSB codec -/

/-- The slot write of R245: the new sample's bit 0 is t in both modes, a sample that carries t is unchanged, SET_LSB
changes bit 0 alone and DECREMENT subtracts 1 modulo 256. -/
def Obligations.SlotWriteCarriesBit : Prop :=
  ∀ (mode : EmbedMode) (v : Byte) (t : Bool),
    (slotVal mode v t).getLsbD 0 = t ∧ (v.getLsbD 0 = t → slotVal mode v t = v) ∧
    (slotVal .setLsb v t).toNat = v.toNat / 2 * 2 + t.toNat ∧
    (v.getLsbD 0 ≠ t → (slotVal .decrement v t).toNat = (v.toNat + 255) % 256)

/-- The codec's checks, in order, each before any access: RANGE, OVERLAP, then CAPACITY for EMBED; OUT_LEN is 0 and
memory is unchanged (R242, R243, R246 to R248). -/
def Obligations.CodecChecksBeforeAccess : Prop :=
  ∀ (s : State) (r : Running), s.EngineToMove r → r.progress = .fresh →
    ∀ i ∈ [Instr.embed, .extract], ∀ n, n = (if i = .embed then r.snap.desc.msgLen else r.snap.desc.msgCap).toNat →
      ∀ code,
        ((r.snap.desc.pixBase.toNat + slotCount r.snap.desc > 2 ^ 32 ∨ r.snap.desc.msgBase.toNat + n > 2 ^ 32) ∧
            code = ErrCode.range ∨
          (r.snap.desc.pixBase.toNat + slotCount r.snap.desc ≤ 2 ^ 32 ∧ r.snap.desc.msgBase.toNat + n ≤ 2 ^ 32) ∧
            (0 < n ∧ 0 < slotCount r.snap.desc ∧
              r.snap.desc.pixBase.toNat < r.snap.desc.msgBase.toNat + n ∧
              r.snap.desc.msgBase.toNat < r.snap.desc.pixBase.toNat + slotCount r.snap.desc) ∧ code = ErrCode.overlap ∨
          outOfRange r.snap.desc n = false ∧ buffersOverlap r.snap.desc n = false ∧ i = .embed ∧
            9 * n > slotCount r.snap.desc ∧ code = ErrCode.capacity) →
        ∃ t, exec i s = .next t ∧ completed code t ∧ t.outLen = 0 ∧ t.mem = s.mem ∧ t.bigs = s.bigs ∧
          t.prime = s.prime ∧ t.neg = s.neg ∧ t.attempts = s.attempts ∧ sameSetting s t

/-- EMBED of N bytes that fits, with every access it makes admitted, writes each of the 9N slots with the bit it
carries, changes no other byte, and completes with OUT_LEN = N; N = 0 and the exactly full buffer are among them (R244
to R247). -/
def Obligations.EmbedResult : Prop :=
  ∀ (s : State) (r : Running), s.Undisturbed r → s.mem.wf = true →
    outOfRange r.snap.desc r.snap.desc.msgLen.toNat = false →
    buffersOverlap r.snap.desc r.snap.desc.msgLen.toNat = false →
    9 * r.snap.desc.msgLen.toNat ≤ slotCount r.snap.desc →
    admitsBuffers s.params r.snap.desc (9 * r.snap.desc.msgLen.toNat) r.snap.desc.msgLen.toNat →
    ∃ t, exec .embed s = .next t ∧ completed .ok t ∧ t.outLen = r.snap.desc.msgLen ∧
      (∀ j i, j < r.snap.desc.msgLen.toNat → i < 9 →
        memRead t.mem (r.snap.desc.pixBase.toNat + (9 * j + i)) =
          embeddedSample r.snap.embedMode r.snap.desc s.mem j i) ∧
      (∀ a, (a < r.snap.desc.pixBase.toNat ∨ r.snap.desc.pixBase.toNat + 9 * r.snap.desc.msgLen.toNat ≤ a) →
        memRead t.mem a = memRead s.mem a) ∧
      t.bigs = s.bigs ∧ t.prime = s.prime ∧ t.neg = s.neg ∧ t.attempts = s.attempts ∧ sameSetting s t

/-- A bus error ends EMBED at the refused access: with `done` slots written before it in group `g`, OUT_LEN is g, the
slots before it are written and nothing else is (R78, R246). -/
def Obligations.EmbedBusError : Prop :=
  ∀ (s : State) (r : Running) (g i : Nat), s.Undisturbed r → s.mem.wf = true →
    outOfRange r.snap.desc r.snap.desc.msgLen.toNat = false →
    buffersOverlap r.snap.desc r.snap.desc.msgLen.toNat = false →
    9 * r.snap.desc.msgLen.toNat ≤ slotCount r.snap.desc →
    g < r.snap.desc.msgLen.toNat → i < 9 →
    (∀ k, k < 9 * g + i → memAdmits s.params (slotAddr r.snap.desc k) = true) →
    (∀ j, j < g → memAdmits s.params (msgAddr r.snap.desc j) = true) →
    ((i = 0 ∧ memAdmits s.params (msgAddr r.snap.desc g) = false) ∨
      (memAdmits s.params (msgAddr r.snap.desc g) = true ∧
        memAdmits s.params (slotAddr r.snap.desc (9 * g + i)) = false)) →
    ∃ t, exec .embed s = .next t ∧ completed .busError t ∧ t.outLen.toNat = g ∧
      (∀ j l, l < 9 → 9 * j + l < 9 * g + i →
        memRead t.mem (r.snap.desc.pixBase.toNat + (9 * j + l)) =
          embeddedSample r.snap.embedMode r.snap.desc s.mem j l) ∧
      (∀ a, (a < r.snap.desc.pixBase.toNat ∨ r.snap.desc.pixBase.toNat + (9 * g + i) ≤ a) →
        memRead t.mem a = memRead s.mem a) ∧ t.bigs = s.bigs

/-- EXTRACT with every access it makes admitted writes the bytes of the first n groups, n being up to and including
the first group with marker 1, or all G groups where no marker stops it, and completes with OUT_LEN = n, if the
destination holds n bytes (R248, R249). -/
def Obligations.ExtractResult : Prop :=
  ∀ (s : State) (r : Running) (n : Nat), s.Undisturbed r → s.mem.wf = true →
    outOfRange r.snap.desc r.snap.desc.msgCap.toNat = false →
    buffersOverlap r.snap.desc r.snap.desc.msgCap.toNat = false →
    admitsBuffers s.params r.snap.desc (9 * n) n →
    n ≤ groupCount r.snap.desc → n ≤ r.snap.desc.msgCap.toNat →
    (∀ j, j + 1 < n → slotBit r.snap.desc s.mem j 8 = false) →
    (n = groupCount r.snap.desc ∨ 0 < n ∧ slotBit r.snap.desc s.mem (n - 1) 8 = true) →
    ∃ t, exec .extract s = .next t ∧ completed .ok t ∧ t.outLen.toNat = n ∧
      (∀ j, j < n → carriesByte r.snap.desc s.mem j (memRead t.mem (r.snap.desc.msgBase.toNat + j))) ∧
      (∀ a, (a < r.snap.desc.msgBase.toNat ∨ r.snap.desc.msgBase.toNat + n ≤ a) →
        memRead t.mem a = memRead s.mem a) ∧
      t.bigs = s.bigs ∧ t.prime = s.prime ∧ t.neg = s.neg ∧ t.attempts = s.attempts ∧ sameSetting s t

/-- EXTRACT whose next byte does not fit ends with DST_OVERFLOW and OUT_LEN = MSG_CAP, the bytes before it written
(R248, R249). -/
def Obligations.ExtractDestinationOverflow : Prop :=
  ∀ (s : State) (r : Running), s.Undisturbed r → s.mem.wf = true →
    outOfRange r.snap.desc r.snap.desc.msgCap.toNat = false →
    buffersOverlap r.snap.desc r.snap.desc.msgCap.toNat = false →
    admitsBuffers s.params r.snap.desc (9 * (r.snap.desc.msgCap.toNat + 1)) r.snap.desc.msgCap.toNat →
    r.snap.desc.msgCap.toNat < groupCount r.snap.desc →
    (∀ j, j < r.snap.desc.msgCap.toNat → slotBit r.snap.desc s.mem j 8 = false) →
    ∃ t, exec .extract s = .next t ∧ completed .dstOverflow t ∧ t.outLen = r.snap.desc.msgCap ∧
      (∀ j, j < r.snap.desc.msgCap.toNat →
        carriesByte r.snap.desc s.mem j (memRead t.mem (r.snap.desc.msgBase.toNat + j))) ∧
      (∀ a, (a < r.snap.desc.msgBase.toNat ∨ r.snap.desc.msgBase.toNat + r.snap.desc.msgCap.toNat ≤ a) →
        memRead t.mem a = memRead s.mem a)

/-- A bus error ends EXTRACT at the refused access, in group g: at one of its nine slots, or at the destination of its
byte. OUT_LEN is g, the bytes of the groups before it are written and nothing else is (R78, R248). -/
def Obligations.ExtractBusError : Prop :=
  ∀ (s : State) (r : Running) (g : Nat), s.Undisturbed r → s.mem.wf = true →
    outOfRange r.snap.desc r.snap.desc.msgCap.toNat = false →
    buffersOverlap r.snap.desc r.snap.desc.msgCap.toNat = false →
    g < groupCount r.snap.desc → g ≤ r.snap.desc.msgCap.toNat →
    (∀ j, j < g → slotBit r.snap.desc s.mem j 8 = false) →
    (∀ j, j < g → memAdmits s.params (msgAddr r.snap.desc j) = true) →
    ((∃ i, i < 9 ∧ (∀ k, k < 9 * g + i → memAdmits s.params (slotAddr r.snap.desc k) = true) ∧
        memAdmits s.params (slotAddr r.snap.desc (9 * g + i)) = false) ∨
      (g < r.snap.desc.msgCap.toNat ∧ (∀ k, k < 9 * (g + 1) → memAdmits s.params (slotAddr r.snap.desc k) = true) ∧
        memAdmits s.params (msgAddr r.snap.desc g) = false)) →
    ∃ t, exec .extract s = .next t ∧ completed .busError t ∧ t.outLen.toNat = g ∧
      (∀ j, j < g → carriesByte r.snap.desc s.mem j (memRead t.mem (r.snap.desc.msgBase.toNat + j))) ∧
      (∀ a, (a < r.snap.desc.msgBase.toNat ∨ r.snap.desc.msgBase.toNat + g ≤ a) →
        memRead t.mem a = memRead s.mem a) ∧
      t.bigs = s.bigs ∧ t.prime = s.prime ∧ t.neg = s.neg ∧ t.attempts = s.attempts ∧ sameSetting s t

/-- The codec's round trip: after an EMBED of at least one byte that completed with OK, in either mode, an EXTRACT of
the same pixels, unchanged, gives the message back (R251). -/
def Obligations.ExtractInvertsEmbed : Prop :=
  ∀ (s t s' : State) (r r' : Running), s.Undisturbed r → s.mem.wf = true → 1 ≤ r.snap.desc.msgLen.toNat →
    exec .embed s = .next t → t.err = .ok →
    s'.Undisturbed r' → s'.mem.wf = true →
    r'.snap.desc.pixBase = r.snap.desc.pixBase → r'.snap.desc.pixHeight = r.snap.desc.pixHeight →
    r'.snap.desc.pixWidth = r.snap.desc.pixWidth →
    (∀ k, k < slotCount r.snap.desc →
      memRead s'.mem (r.snap.desc.pixBase.toNat + k) = memRead t.mem (r.snap.desc.pixBase.toNat + k)) →
    outOfRange r'.snap.desc r'.snap.desc.msgCap.toNat = false →
    buffersOverlap r'.snap.desc r'.snap.desc.msgCap.toNat = false →
    r.snap.desc.msgLen.toNat ≤ r'.snap.desc.msgCap.toNat →
    admitsBuffers s'.params r'.snap.desc (9 * r.snap.desc.msgLen.toNat) r.snap.desc.msgLen.toNat →
    ∃ u, exec .extract s' = .next u ∧ completed .ok u ∧ u.outLen = r.snap.desc.msgLen ∧
      ∀ j, j < r.snap.desc.msgLen.toNat →
        memRead u.mem (r'.snap.desc.msgBase.toNat + j) = memRead s.mem (r.snap.desc.msgBase.toNat + j)

/-- Whatever happens to it (an error, an abort, the host's moves between its turns), an EMBED writes only slots of its
message, and an EXTRACT only its destination. The stage a running command stands at begins with acceptance, is kept by
each of its turns and by every host move, and in each turn bounds what is written (R246 to R249). -/
def Obligations.CodecWritesOnlyItsBuffer : Prop :=
  (∀ (s : State) (w : Word), ∃ r, (takeCommand w s).run = some r ∧ embedStage r ∧ extractStage r) ∧
  (∀ (m : HostMove) (s t : State) (r r' : Running), s.run = some r → hostMove m s = .next t → t.run = some r' →
    r'.word = r.word ∧ r'.snap = r.snap ∧ (embedStage r → embedStage r') ∧ (extractStage r → extractStage r')) ∧
  (∀ (s t : State) (r : Running), s.run = some r → embedStage r → exec .embed s = .next t →
    (∀ r', t.run = some r' → r'.word = r.word ∧ r'.snap = r.snap ∧ embedStage r') ∧
    ∀ a, (a < r.snap.desc.pixBase.toNat ∨ r.snap.desc.pixBase.toNat + 9 * r.snap.desc.msgLen.toNat ≤ a) →
      memRead t.mem a = memRead s.mem a) ∧
  (∀ (s t : State) (r : Running), s.run = some r → extractStage r → exec .extract s = .next t →
    (∀ r', t.run = some r' → r'.word = r.word ∧ r'.snap = r.snap ∧ extractStage r') ∧
    ∀ a, (a < r.snap.desc.msgBase.toNat ∨ r.snap.desc.msgBase.toNat + r.snap.desc.msgCap.toNat ≤ a) →
      memRead t.mem a = memRead s.mem a)

/-! ## Whole-machine rules of the commands -/

/-- The frame of every command, wherever its turn ends: only its destinations among the big registers, PRIME only by
PRIMETEST, NEG only by EGCD, ATTEMPTS only by GENPRIME and GENPQR, OUT_LEN only by EMBED and EXTRACT, and never a
parameter, a descriptor, CTRL, OVR, the host's cache or its replies (R21, R35, R42, R45). -/
def Obligations.CommandFrame : Prop :=
  ∀ (i : Instr) (s t : State), exec i s = .next t →
    (∀ k : Reg, k ∉ destinations i → t.bigs[k] = s.bigs[k]) ∧
    ((∀ ra, i ≠ .primetest ra) → t.prime = s.prime) ∧
    ((∀ rd ra rb, i ≠ .egcd rd ra rb) → t.neg = s.neg) ∧
    ((∀ rd, i ≠ .genprime rd) → (∀ rd ra rb, i ≠ .genpqr rd ra rb) → t.attempts = s.attempts) ∧
    (i ≠ .embed → i ≠ .extract → t.outLen = s.outLen) ∧ sameSetting s t

/-- Results are committed only at completion, in one update with ERR, DONE and BUSY: while the command still runs
every MMIO read gives what it gave before (R48). -/
def Obligations.CommitOnlyAtCompletion : Prop :=
  ∀ (i : Instr) (s t : State), exec i s = .next t → t.run ≠ none →
    sameResults s t ∧ t.err = s.err ∧ t.done = s.done ∧ t.ovr = s.ovr ∧ ∀ reg, readReg reg t = readReg reg s

/-- A completion with any code other than OK writes no destination register and neither PRIME nor NEG (R131, R294). -/
def Obligations.ErrorWritesNoResult : Prop :=
  ∀ (i : Instr) (s t : State) (r : Running), s.run = some r → exec i s = .next t → t.run = none →
    t.done = true ∧ (t.err ≠ .ok → t.bigs = s.bigs ∧ t.prime = s.prime ∧ t.neg = s.neg)

/-- Which codes each command can end with, besides ABORTED (R292). -/
def Obligations.CodesEachCommandReports : Prop :=
  ∀ (i : Instr) (s t : State) (r : Running), s.run = some r → exec i s = .next t → t.run = none → t.err ≠ .aborted →
    match i with
    | .nop | .clr _ | .egcd _ _ _ | .primetest _ => t.err = .ok
    | .modexp _ _ _ _ | .modmul _ _ _ _ => t.err = .modZero ∨ t.err = .ok
    | .montmul _ _ _ _ => t.err = .modZero ∨ t.err = .evenMod ∨ t.err = .ok
    | .modinv _ _ _ => t.err = .modZero ∨ t.err = .invNotFound ∨ t.err = .ok
    | .genrand _ => t.err = .config ∨ t.err = .ok
    | .genprime _ | .genpqr _ _ _ => t.err = .config ∨ t.err = .genFail ∨ t.err = .ok
    | .embed => t.err = .range ∨ t.err = .overlap ∨ t.err = .capacity ∨ t.err = .busError ∨ t.err = .ok
    | .extract => t.err = .range ∨ t.err = .overlap ∨ t.err = .dstOverflow ∨ t.err = .busError ∨ t.err = .ok

/-- Every command ends after finitely many engine steps, for every sequence of draws and races: left to itself from
its acceptance, it completes in the engine's one turn (R342). That one turn is long enough is the model's bound of
2^100 engine steps (log 10). -/
def Obligations.EveryCommandTerminates : Prop :=
  ∀ (i : Instr) (s : State) (r : Running), s.run = some r → r.progress = .fresh →
    engineTurns s.inbox = Config.maxEngineSteps →
    ∃ t, exec i s = .next t ∧ t.run = none ∧ t.done = true

/-- Abort: requested and winning the race it ends any command with ABORTED, with no result written, memory as it is,
and only the counter of an aborted sampler or codec command unspecified. Losing the race it does nothing: one engine
step of any command is the step without the request, which stays, and a one-step command completes as it would (R136,
R299; the race is log 8, the one-step commands log 11, the counters log 14). -/
def Obligations.AbortOutcomes : Prop :=
  (∀ (i : Instr) (s : State) (r : Running), s.run = some r → r.abortReq = true → 0 < engineTurns s.inbox →
    s.races.head? = some true →
    ∃ t, exec i s = .next t ∧ completed .aborted t ∧ t.bigs = s.bigs ∧ t.prime = s.prime ∧ t.neg = s.neg ∧
      t.mem = s.mem ∧ sameSetting s t ∧
      ((∀ rd, i ≠ .genprime rd) → (∀ rd ra rb, i ≠ .genpqr rd ra rb) → t.attempts = s.attempts) ∧
      (i ≠ .embed → i ≠ .extract → t.outLen = s.outLen)) ∧
  (∀ (i : Instr) (s : State) (r : Running), s.run = some r → r.abortReq = true → engineTurns s.inbox = 1 →
    s.races.head? = some false →
    ∃ u, exec i (afterRace (withoutRequest s)) = .next u ∧ exec i s = .next (requestAbort u)) ∧
  (∀ (s : State) (r : Running) (rd ra rb rc : Reg), s.run = some r → r.abortReq = true → 0 < engineTurns s.inbox →
    s.races.head? = some false →
    ∀ i ∈ [Instr.nop, .clr rd, .modexp rd ra rb rc, .modmul rd ra rb rc, .montmul rd ra rb rc, .egcd rd ra rb,
      .modinv rd ra rb],
      exec i s = exec i (afterRace (withoutRequest s)) ∧ ∃ t, exec i s = .next t ∧ t.run = none ∧ t.err ≠ .aborted)
end

