-- ==== Sys2Proof/Laws/Arithmetic.lean ====
section
/-! SUPPORT. The exact functions of spec/41_modular_arithmetic.md: the handier computations equal the clear ones. -/

namespace Sys2Proof.Machine

theorem powModAux_eq (m : Nat) : ∀ (fuel acc base e : Nat), e < 2 ^ fuel →
    powModAux m fuel acc base e % m = acc * base ^ e % m
  | 0, acc, base, e, h => by
    have : e = 0 := by simpa using h
    simp [powModAux, this]
  | n + 1, acc, base, e, h => by
    rw [powModAux, powModAux_eq m n _ _ _ (by rw [Nat.pow_succ] at h; omega)]
    have he : e = 2 * (e / 2) + e % 2 := (Nat.div_add_mod e 2).symm
    have hsq : (base * base % m) ^ (e / 2) ≡ base ^ (2 * (e / 2)) [MOD m] := by
      rw [pow_mul, sq]; exact (Nat.mod_modEq _ _).pow _
    rcases Nat.mod_two_eq_zero_or_one e with h0 | h1
    · rw [if_neg (by omega)]
      conv_rhs => rw [he, h0, Nat.add_zero]
      exact hsq.mul_left acc
    · rw [if_pos h1]
      conv_rhs => rw [he, h1, pow_succ, mul_comm (base ^ _) base, ← mul_assoc]
      exact (Nat.mod_modEq _ _).mul hsq

theorem powModAux_lt {m : Nat} (hm : 0 < m) : ∀ (fuel acc base e : Nat), acc < m → powModAux m fuel acc base e < m
  | 0, _, _, _, h => h
  | n + 1, acc, base, e, h => by
    rw [powModAux]
    apply powModAux_lt hm n
    split
    · exact Nat.mod_lt _ hm
    · exact h

/-- MODEXP's result is the exact power (spec/41_modular_arithmetic.md R151). -/
theorem powMod_eq (base e m : Nat) : powMod base e m = base ^ e % m := by
  have h := powModAux_eq m (Nat.log2 e + 1) (1 % m) (base % m) e Nat.lt_log2_self
  rcases Nat.eq_zero_or_pos m with rfl | hm
  · simpa [powMod] using h
  · rw [Nat.mod_eq_of_lt (powModAux_lt hm _ _ _ _ (Nat.mod_lt _ hm))] at h
    rw [powMod, h]
    exact ((Nat.mod_modEq 1 m).mul ((Nat.mod_modEq base m).pow e)).trans (by rw [one_mul])

theorem halveMod_spec {m : Nat} (hodd : m % 2 = 1) : ∀ (n r : Nat), r < m →
    halveMod m n r < m ∧ halveMod m n r * 2 ^ n ≡ r [MOD m]
  | 0, r, h => by simpa [halveMod] using ⟨h, Nat.ModEq.refl r⟩
  | n + 1, r, h => by
    rw [halveMod]
    by_cases h0 : r % 2 = 0
    · rw [if_pos h0]
      obtain ⟨h1, h2⟩ := halveMod_spec hodd n (r / 2) (by omega)
      refine ⟨h1, ?_⟩
      rw [pow_succ, ← mul_assoc]
      refine (h2.mul_right 2).trans ?_
      rw [show r / 2 * 2 = r by omega]
    · rw [if_neg h0]
      obtain ⟨h1, h2⟩ := halveMod_spec hodd n ((r + m) / 2) (by omega)
      refine ⟨h1, ?_⟩
      rw [pow_succ, ← mul_assoc]
      refine (h2.mul_right 2).trans ?_
      rw [show (r + m) / 2 * 2 = r + m by omega]
      simp [Nat.ModEq]

/-- MONTMUL's result lies in `[0, m)` and satisfies the defining equation (spec/41_modular_arithmetic.md R154). -/
theorem montProduct_spec {m : Nat} (hodd : m % 2 = 1) (opw x y : Nat) :
    montProduct opw x y m < m ∧ montProduct opw x y m * 2 ^ opw % m = x * y % m := by
  obtain ⟨h1, h2⟩ := halveMod_spec hodd opw (x * y % m) (Nat.mod_lt _ (by omega))
  exact ⟨h1, h2.trans (Nat.mod_modEq _ _)⟩

/-- The recurrence keeps Bezout's identity: with `a * x0 = r0` and `a * x1 = r1` modulo `b` it ends with
`a * x = gcd r0 r1` modulo `b` (spec/41_modular_arithmetic.md R155). -/
theorem egcdLoop_bezout (a b : Int) : ∀ (fuel r0 r1 : Nat) (x0 x1 : Int), r1 < fuel →
    b ∣ a * x0 - r0 → b ∣ a * x1 - r1 → b ∣ a * egcdLoop fuel r0 r1 x0 x1 - (Nat.gcd r0 r1 : Nat)
  | 0, _, _, _, _, hf, _, _ => absurd hf (Nat.not_lt_zero _)
  | n + 1, r0, r1, x0, x1, hf, h0, h1 => by
    rw [egcdLoop]
    split
    · rename_i hz
      subst hz
      simpa using h0
    · rename_i hz
      have hr : r0 - r0 / r1 * r1 = r0 % r1 := by
        have := Nat.div_add_mod r0 r1
        rw [Nat.mul_comm] at this
        omega
      have hlt : r0 % r1 < r1 := Nat.mod_lt _ (Nat.pos_of_ne_zero hz)
      rw [hr]
      have := egcdLoop_bezout a b n r1 (r0 % r1) x1 (x0 - (r0 / r1 : Nat) * x1) (by omega) h1 (by
        have hd : (r0 : Int) = (r0 / r1 : Nat) * r1 + (r0 % r1 : Nat) := by
          exact_mod_cast (by rw [Nat.mul_comm]; exact (Nat.div_add_mod r0 r1).symm)
        have : a * (x0 - (r0 / r1 : Nat) * x1) - (r0 % r1 : Nat)
            = (a * x0 - r0) - (r0 / r1 : Nat) * (a * x1 - r1) := by rw [hd]; push_cast; ring
        rw [this]
        exact dvd_sub h0 (Dvd.dvd.mul_left h1 _))
      rwa [show Nat.gcd r1 (r0 % r1) = Nat.gcd r0 r1 by rw [Nat.gcd_comm, ← Nat.gcd_rec, Nat.gcd_comm]] at this

/-- `egcd_x(a, b)` is the coefficient of `a` in Bezout's identity (spec/41_modular_arithmetic.md R155). -/
theorem egcdX_bezout (a b : Nat) : (b : Int) ∣ a * egcdX a b - (Nat.gcd a b : Nat) :=
  egcdLoop_bezout a b (b + 1) a b 1 0 (Nat.lt_succ_self b) (by simp) (by simp)

/-- One turn of the recurrence on the magnitudes, while the two coefficients have opposite signs. -/
theorem natAbs_sub_mul {x0 x1 : Int} (q : Nat) (hs : x0 * x1 ≤ 0) : (x0 - q * x1).natAbs = x0.natAbs + q * x1.natAbs := by
  have hq : (0 : Int) ≤ q := Int.natCast_nonneg q
  rcases le_total 0 x0 with h0 | h0 <;> rcases le_total 0 x1 with h1 | h1
  · rcases h0.eq_or_lt with h | h
    · subst h
      simp [Int.natAbs_mul]
    · have : x1 = 0 := by nlinarith
      simp [this]
  · have : 0 ≤ x0 - q * x1 := by nlinarith
    zify
    rw [abs_of_nonneg this, abs_of_nonneg h0, abs_of_nonpos h1]
    ring
  · have : x0 - q * x1 ≤ 0 := by nlinarith
    zify
    rw [abs_of_nonpos this, abs_of_nonpos h0, abs_of_nonneg h1]
    ring
  · rcases h0.eq_or_lt with h | h
    · subst h
      simp [Int.natAbs_mul]
    · have : x1 = 0 := by nlinarith
      simp [this]

theorem egcdLoop_bound (b : Nat) : ∀ (fuel r0 r1 : Nat) (x0 x1 : Int), x0 * x1 ≤ 0 →
    x0.natAbs * r1 + x1.natAbs * r0 ≤ b → x0.natAbs ≤ max 1 b → (r0 = 0 → x1 = 0) →
    (egcdLoop fuel r0 r1 x0 x1).natAbs ≤ max 1 b
  | 0, _, _, _, _, _, _, h, _ => by simpa [egcdLoop] using h
  | n + 1, r0, r1, x0, x1, hs, hb, h0, hz => by
    rw [egcdLoop]
    split
    · exact h0
    · rename_i hr
      have hd : r0 = r0 / r1 * r1 + (r0 - r0 / r1 * r1) := by
        have := Nat.div_mul_le_self r0 r1
        omega
      apply egcdLoop_bound b n
      · have hq : (0 : Int) ≤ (r0 / r1 : Nat) := Int.natCast_nonneg _
        nlinarith [mul_self_nonneg x1]
      · rw [natAbs_sub_mul _ hs]
        calc x1.natAbs * (r0 - r0 / r1 * r1) + (x0.natAbs + r0 / r1 * x1.natAbs) * r1
            = x0.natAbs * r1 + x1.natAbs * (r0 / r1 * r1 + (r0 - r0 / r1 * r1)) := by ring
          _ = x0.natAbs * r1 + x1.natAbs * r0 := by rw [← hd]
          _ ≤ b := hb
      · rcases Nat.eq_zero_or_pos r0 with h | h
        · simp [hz h]
        · have : x1.natAbs * 1 ≤ x1.natAbs * r0 := Nat.mul_le_mul_left _ h
          omega
      · intro h
        exact absurd h hr

/-- The coefficient's magnitude is at most `max(1, b)` (spec/41_modular_arithmetic.md R155). -/
theorem egcdX_bound (a b : Nat) : (egcdX a b).natAbs ≤ max 1 b :=
  egcdLoop_bound b (b + 1) a b 1 0 (by simp) (by simp) (by simp) (fun _ => rfl)

end Sys2Proof.Machine
end

