-- ==== Sys2Proof/Laws/State.lean ====
section
/-! SUPPORT. What each named update of the state does to each field: one lemma per field per update, so that no proof
unfolds a record update. -/

namespace Sys2Proof.Machine

variable (s : State)

@[simp] theorem setBig_params (d : Reg) (v : Nat) : (setBig d v s).params = s.params := rfl
@[simp] theorem setBig_bigs (d : Reg) (v : Nat) : (setBig d v s).bigs = s.bigs.set d (bigOfNat s.params.opwWords v) := rfl
@[simp] theorem setBig_desc (d : Reg) (v : Nat) : (setBig d v s).desc = s.desc := rfl
@[simp] theorem setBig_ie (d : Reg) (v : Nat) : (setBig d v s).ie = s.ie := rfl
@[simp] theorem setBig_embedMode (d : Reg) (v : Nat) : (setBig d v s).embedMode = s.embedMode := rfl
@[simp] theorem setBig_done (d : Reg) (v : Nat) : (setBig d v s).done = s.done := rfl
@[simp] theorem setBig_ovr (d : Reg) (v : Nat) : (setBig d v s).ovr = s.ovr := rfl
@[simp] theorem setBig_err (d : Reg) (v : Nat) : (setBig d v s).err = s.err := rfl
@[simp] theorem setBig_prime (d : Reg) (v : Nat) : (setBig d v s).prime = s.prime := rfl
@[simp] theorem setBig_neg (d : Reg) (v : Nat) : (setBig d v s).neg = s.neg := rfl
@[simp] theorem setBig_attempts (d : Reg) (v : Nat) : (setBig d v s).attempts = s.attempts := rfl
@[simp] theorem setBig_outLen (d : Reg) (v : Nat) : (setBig d v s).outLen = s.outLen := rfl
@[simp] theorem setBig_run (d : Reg) (v : Nat) : (setBig d v s).run = s.run := rfl
@[simp] theorem setBig_mem (d : Reg) (v : Nat) : (setBig d v s).mem = s.mem := rfl
@[simp] theorem setBig_cache (d : Reg) (v : Nat) : (setBig d v s).cache = s.cache := rfl
@[simp] theorem setBig_inbox (d : Reg) (v : Nat) : (setBig d v s).inbox = s.inbox := rfl
@[simp] theorem setBig_replies (d : Reg) (v : Nat) : (setBig d v s).replies = s.replies := rfl
@[simp] theorem setBig_entropy (d : Reg) (v : Nat) : (setBig d v s).entropy = s.entropy := rfl
@[simp] theorem setBig_drawCount (d : Reg) (v : Nat) : (setBig d v s).drawCount = s.drawCount := rfl
@[simp] theorem setBig_races (d : Reg) (v : Nat) : (setBig d v s).races = s.races := rfl
@[simp] theorem setBig_raceCount (d : Reg) (v : Nat) : (setBig d v s).raceCount = s.raceCount := rfl

@[simp] theorem setBigWord_params (k : Reg) (i : Nat) (v : Word) : (setBigWord k i v s).params = s.params := rfl
@[simp] theorem setBigWord_bigs (k : Reg) (i : Nat) (v : Word) : (setBigWord k i v s).bigs = s.bigs.set k (s.bigs[k].set i ⟨v, true⟩) := rfl
@[simp] theorem setBigWord_desc (k : Reg) (i : Nat) (v : Word) : (setBigWord k i v s).desc = s.desc := rfl
@[simp] theorem setBigWord_ie (k : Reg) (i : Nat) (v : Word) : (setBigWord k i v s).ie = s.ie := rfl
@[simp] theorem setBigWord_embedMode (k : Reg) (i : Nat) (v : Word) : (setBigWord k i v s).embedMode = s.embedMode := rfl
@[simp] theorem setBigWord_done (k : Reg) (i : Nat) (v : Word) : (setBigWord k i v s).done = s.done := rfl
@[simp] theorem setBigWord_ovr (k : Reg) (i : Nat) (v : Word) : (setBigWord k i v s).ovr = s.ovr := rfl
@[simp] theorem setBigWord_err (k : Reg) (i : Nat) (v : Word) : (setBigWord k i v s).err = s.err := rfl
@[simp] theorem setBigWord_prime (k : Reg) (i : Nat) (v : Word) : (setBigWord k i v s).prime = s.prime := rfl
@[simp] theorem setBigWord_neg (k : Reg) (i : Nat) (v : Word) : (setBigWord k i v s).neg = s.neg := rfl
@[simp] theorem setBigWord_attempts (k : Reg) (i : Nat) (v : Word) : (setBigWord k i v s).attempts = s.attempts := rfl
@[simp] theorem setBigWord_outLen (k : Reg) (i : Nat) (v : Word) : (setBigWord k i v s).outLen = s.outLen := rfl
@[simp] theorem setBigWord_run (k : Reg) (i : Nat) (v : Word) : (setBigWord k i v s).run = s.run := rfl
@[simp] theorem setBigWord_mem (k : Reg) (i : Nat) (v : Word) : (setBigWord k i v s).mem = s.mem := rfl
@[simp] theorem setBigWord_cache (k : Reg) (i : Nat) (v : Word) : (setBigWord k i v s).cache = s.cache := rfl
@[simp] theorem setBigWord_inbox (k : Reg) (i : Nat) (v : Word) : (setBigWord k i v s).inbox = s.inbox := rfl
@[simp] theorem setBigWord_replies (k : Reg) (i : Nat) (v : Word) : (setBigWord k i v s).replies = s.replies := rfl
@[simp] theorem setBigWord_entropy (k : Reg) (i : Nat) (v : Word) : (setBigWord k i v s).entropy = s.entropy := rfl
@[simp] theorem setBigWord_drawCount (k : Reg) (i : Nat) (v : Word) : (setBigWord k i v s).drawCount = s.drawCount := rfl
@[simp] theorem setBigWord_races (k : Reg) (i : Nat) (v : Word) : (setBigWord k i v s).races = s.races := rfl
@[simp] theorem setBigWord_raceCount (k : Reg) (i : Nat) (v : Word) : (setBigWord k i v s).raceCount = s.raceCount := rfl

@[simp] theorem afterDraw_params : (afterDraw s).params = s.params := rfl
@[simp] theorem afterDraw_bigs : (afterDraw s).bigs = s.bigs := rfl
@[simp] theorem afterDraw_desc : (afterDraw s).desc = s.desc := rfl
@[simp] theorem afterDraw_ie : (afterDraw s).ie = s.ie := rfl
@[simp] theorem afterDraw_embedMode : (afterDraw s).embedMode = s.embedMode := rfl
@[simp] theorem afterDraw_done : (afterDraw s).done = s.done := rfl
@[simp] theorem afterDraw_ovr : (afterDraw s).ovr = s.ovr := rfl
@[simp] theorem afterDraw_err : (afterDraw s).err = s.err := rfl
@[simp] theorem afterDraw_prime : (afterDraw s).prime = s.prime := rfl
@[simp] theorem afterDraw_neg : (afterDraw s).neg = s.neg := rfl
@[simp] theorem afterDraw_attempts : (afterDraw s).attempts = s.attempts := rfl
@[simp] theorem afterDraw_outLen : (afterDraw s).outLen = s.outLen := rfl
@[simp] theorem afterDraw_run : (afterDraw s).run = s.run := rfl
@[simp] theorem afterDraw_mem : (afterDraw s).mem = s.mem := rfl
@[simp] theorem afterDraw_cache : (afterDraw s).cache = s.cache := rfl
@[simp] theorem afterDraw_inbox : (afterDraw s).inbox = s.inbox := rfl
@[simp] theorem afterDraw_replies : (afterDraw s).replies = s.replies := rfl
@[simp] theorem afterDraw_entropy : (afterDraw s).entropy = s.entropy.tail := rfl
@[simp] theorem afterDraw_drawCount : (afterDraw s).drawCount = s.drawCount + 1 := rfl
@[simp] theorem afterDraw_races : (afterDraw s).races = s.races := rfl
@[simp] theorem afterDraw_raceCount : (afterDraw s).raceCount = s.raceCount := rfl

@[simp] theorem afterRace_params : (afterRace s).params = s.params := rfl
@[simp] theorem afterRace_bigs : (afterRace s).bigs = s.bigs := rfl
@[simp] theorem afterRace_desc : (afterRace s).desc = s.desc := rfl
@[simp] theorem afterRace_ie : (afterRace s).ie = s.ie := rfl
@[simp] theorem afterRace_embedMode : (afterRace s).embedMode = s.embedMode := rfl
@[simp] theorem afterRace_done : (afterRace s).done = s.done := rfl
@[simp] theorem afterRace_ovr : (afterRace s).ovr = s.ovr := rfl
@[simp] theorem afterRace_err : (afterRace s).err = s.err := rfl
@[simp] theorem afterRace_prime : (afterRace s).prime = s.prime := rfl
@[simp] theorem afterRace_neg : (afterRace s).neg = s.neg := rfl
@[simp] theorem afterRace_attempts : (afterRace s).attempts = s.attempts := rfl
@[simp] theorem afterRace_outLen : (afterRace s).outLen = s.outLen := rfl
@[simp] theorem afterRace_run : (afterRace s).run = s.run := rfl
@[simp] theorem afterRace_mem : (afterRace s).mem = s.mem := rfl
@[simp] theorem afterRace_cache : (afterRace s).cache = s.cache := rfl
@[simp] theorem afterRace_inbox : (afterRace s).inbox = s.inbox := rfl
@[simp] theorem afterRace_replies : (afterRace s).replies = s.replies := rfl
@[simp] theorem afterRace_entropy : (afterRace s).entropy = s.entropy := rfl
@[simp] theorem afterRace_drawCount : (afterRace s).drawCount = s.drawCount := rfl
@[simp] theorem afterRace_races : (afterRace s).races = s.races.tail := rfl
@[simp] theorem afterRace_raceCount : (afterRace s).raceCount = s.raceCount + 1 := rfl

@[simp] theorem accept_params (w : Word) : (accept w s).params = s.params := rfl
@[simp] theorem accept_bigs (w : Word) : (accept w s).bigs = s.bigs := rfl
@[simp] theorem accept_desc (w : Word) : (accept w s).desc = s.desc := rfl
@[simp] theorem accept_ie (w : Word) : (accept w s).ie = s.ie := rfl
@[simp] theorem accept_embedMode (w : Word) : (accept w s).embedMode = s.embedMode := rfl
@[simp] theorem accept_done (w : Word) : (accept w s).done = false := rfl
@[simp] theorem accept_ovr (w : Word) : (accept w s).ovr = s.ovr := rfl
@[simp] theorem accept_err (w : Word) : (accept w s).err = s.err := rfl
@[simp] theorem accept_prime (w : Word) : (accept w s).prime = s.prime := rfl
@[simp] theorem accept_neg (w : Word) : (accept w s).neg = s.neg := rfl
@[simp] theorem accept_attempts (w : Word) : (accept w s).attempts = s.attempts := rfl
@[simp] theorem accept_outLen (w : Word) : (accept w s).outLen = s.outLen := rfl
@[simp] theorem accept_run (w : Word) : (accept w s).run = some ⟨w, ⟨s.bigs, s.desc, s.embedMode⟩, .fresh, false, s.mem⟩ := rfl
@[simp] theorem accept_mem (w : Word) : (accept w s).mem = s.mem := rfl
@[simp] theorem accept_cache (w : Word) : (accept w s).cache = s.cache := rfl
@[simp] theorem accept_inbox (w : Word) : (accept w s).inbox = s.inbox := rfl
@[simp] theorem accept_replies (w : Word) : (accept w s).replies = s.replies := rfl
@[simp] theorem accept_entropy (w : Word) : (accept w s).entropy = s.entropy := rfl
@[simp] theorem accept_drawCount (w : Word) : (accept w s).drawCount = s.drawCount := rfl
@[simp] theorem accept_races (w : Word) : (accept w s).races = s.races := rfl
@[simp] theorem accept_raceCount (w : Word) : (accept w s).raceCount = s.raceCount := rfl

@[simp] theorem takeCommand_params (w : Word) : (takeCommand w s).params = s.params := rfl
@[simp] theorem takeCommand_bigs (w : Word) : (takeCommand w s).bigs = s.bigs := rfl
@[simp] theorem takeCommand_desc (w : Word) : (takeCommand w s).desc = s.desc := rfl
@[simp] theorem takeCommand_ie (w : Word) : (takeCommand w s).ie = s.ie := rfl
@[simp] theorem takeCommand_embedMode (w : Word) : (takeCommand w s).embedMode = s.embedMode := rfl
@[simp] theorem takeCommand_done (w : Word) : (takeCommand w s).done = false := rfl
@[simp] theorem takeCommand_ovr (w : Word) : (takeCommand w s).ovr = s.ovr := rfl
@[simp] theorem takeCommand_err (w : Word) : (takeCommand w s).err = s.err := rfl
@[simp] theorem takeCommand_prime (w : Word) : (takeCommand w s).prime = s.prime := rfl
@[simp] theorem takeCommand_neg (w : Word) : (takeCommand w s).neg = s.neg := rfl
@[simp] theorem takeCommand_attempts (w : Word) : (takeCommand w s).attempts = s.attempts := rfl
@[simp] theorem takeCommand_outLen (w : Word) : (takeCommand w s).outLen = s.outLen := rfl
@[simp] theorem takeCommand_run (w : Word) : (takeCommand w s).run = some ⟨w, ⟨s.bigs, s.desc, s.embedMode⟩, .fresh, false, s.mem⟩ := rfl
@[simp] theorem takeCommand_mem (w : Word) : (takeCommand w s).mem = s.mem := rfl
@[simp] theorem takeCommand_cache (w : Word) : (takeCommand w s).cache =
    if s.params.dmaCoherent then s.cache else s.cache.map (handOver (ownedRanges w s.desc)) := rfl
@[simp] theorem takeCommand_inbox (w : Word) : (takeCommand w s).inbox = s.inbox := rfl
@[simp] theorem takeCommand_replies (w : Word) : (takeCommand w s).replies = s.replies := rfl
@[simp] theorem takeCommand_entropy (w : Word) : (takeCommand w s).entropy = s.entropy := rfl
@[simp] theorem takeCommand_drawCount (w : Word) : (takeCommand w s).drawCount = s.drawCount := rfl
@[simp] theorem takeCommand_races (w : Word) : (takeCommand w s).races = s.races := rfl
@[simp] theorem takeCommand_raceCount (w : Word) : (takeCommand w s).raceCount = s.raceCount := rfl

@[simp] theorem finish_params (c : ErrCode) : (finish c s).params = s.params := rfl
@[simp] theorem finish_bigs (c : ErrCode) : (finish c s).bigs = s.bigs := rfl
@[simp] theorem finish_desc (c : ErrCode) : (finish c s).desc = s.desc := rfl
@[simp] theorem finish_ie (c : ErrCode) : (finish c s).ie = s.ie := rfl
@[simp] theorem finish_embedMode (c : ErrCode) : (finish c s).embedMode = s.embedMode := rfl
@[simp] theorem finish_done (c : ErrCode) : (finish c s).done = true := rfl
@[simp] theorem finish_ovr (c : ErrCode) : (finish c s).ovr = s.ovr := rfl
@[simp] theorem finish_err (c : ErrCode) : (finish c s).err = c := rfl
@[simp] theorem finish_prime (c : ErrCode) : (finish c s).prime = s.prime := rfl
@[simp] theorem finish_neg (c : ErrCode) : (finish c s).neg = s.neg := rfl
@[simp] theorem finish_attempts (c : ErrCode) : (finish c s).attempts = s.attempts := rfl
@[simp] theorem finish_outLen (c : ErrCode) : (finish c s).outLen = s.outLen := rfl
@[simp] theorem finish_run (c : ErrCode) : (finish c s).run = none := rfl
@[simp] theorem finish_mem (c : ErrCode) : (finish c s).mem = s.mem := rfl
@[simp] theorem finish_cache (c : ErrCode) : (finish c s).cache = s.cache := rfl
@[simp] theorem finish_inbox (c : ErrCode) : (finish c s).inbox = s.inbox := rfl
@[simp] theorem finish_replies (c : ErrCode) : (finish c s).replies = s.replies := rfl
@[simp] theorem finish_entropy (c : ErrCode) : (finish c s).entropy = s.entropy := rfl
@[simp] theorem finish_drawCount (c : ErrCode) : (finish c s).drawCount = s.drawCount := rfl
@[simp] theorem finish_races (c : ErrCode) : (finish c s).races = s.races := rfl
@[simp] theorem finish_raceCount (c : ErrCode) : (finish c s).raceCount = s.raceCount := rfl

@[simp] theorem acknowledge_params (a b : Bool) : (acknowledge a b s).params = s.params := rfl
@[simp] theorem acknowledge_bigs (a b : Bool) : (acknowledge a b s).bigs = s.bigs := rfl
@[simp] theorem acknowledge_desc (a b : Bool) : (acknowledge a b s).desc = s.desc := rfl
@[simp] theorem acknowledge_ie (a b : Bool) : (acknowledge a b s).ie = s.ie := rfl
@[simp] theorem acknowledge_embedMode (a b : Bool) : (acknowledge a b s).embedMode = s.embedMode := rfl
@[simp] theorem acknowledge_done (a b : Bool) : (acknowledge a b s).done = (s.done && !a) := rfl
@[simp] theorem acknowledge_ovr (a b : Bool) : (acknowledge a b s).ovr = (s.ovr && !b) := rfl
@[simp] theorem acknowledge_err (a b : Bool) : (acknowledge a b s).err = s.err := rfl
@[simp] theorem acknowledge_prime (a b : Bool) : (acknowledge a b s).prime = s.prime := rfl
@[simp] theorem acknowledge_neg (a b : Bool) : (acknowledge a b s).neg = s.neg := rfl
@[simp] theorem acknowledge_attempts (a b : Bool) : (acknowledge a b s).attempts = s.attempts := rfl
@[simp] theorem acknowledge_outLen (a b : Bool) : (acknowledge a b s).outLen = s.outLen := rfl
@[simp] theorem acknowledge_run (a b : Bool) : (acknowledge a b s).run = s.run := rfl
@[simp] theorem acknowledge_mem (a b : Bool) : (acknowledge a b s).mem = s.mem := rfl
@[simp] theorem acknowledge_cache (a b : Bool) : (acknowledge a b s).cache = s.cache := rfl
@[simp] theorem acknowledge_inbox (a b : Bool) : (acknowledge a b s).inbox = s.inbox := rfl
@[simp] theorem acknowledge_replies (a b : Bool) : (acknowledge a b s).replies = s.replies := rfl
@[simp] theorem acknowledge_entropy (a b : Bool) : (acknowledge a b s).entropy = s.entropy := rfl
@[simp] theorem acknowledge_drawCount (a b : Bool) : (acknowledge a b s).drawCount = s.drawCount := rfl
@[simp] theorem acknowledge_races (a b : Bool) : (acknowledge a b s).races = s.races := rfl
@[simp] theorem acknowledge_raceCount (a b : Bool) : (acknowledge a b s).raceCount = s.raceCount := rfl

@[simp] theorem dropWrite_params : (dropWrite s).params = s.params := rfl
@[simp] theorem dropWrite_bigs : (dropWrite s).bigs = s.bigs := rfl
@[simp] theorem dropWrite_desc : (dropWrite s).desc = s.desc := rfl
@[simp] theorem dropWrite_ie : (dropWrite s).ie = s.ie := rfl
@[simp] theorem dropWrite_embedMode : (dropWrite s).embedMode = s.embedMode := rfl
@[simp] theorem dropWrite_done : (dropWrite s).done = s.done := rfl
@[simp] theorem dropWrite_ovr : (dropWrite s).ovr = true := rfl
@[simp] theorem dropWrite_err : (dropWrite s).err = s.err := rfl
@[simp] theorem dropWrite_prime : (dropWrite s).prime = s.prime := rfl
@[simp] theorem dropWrite_neg : (dropWrite s).neg = s.neg := rfl
@[simp] theorem dropWrite_attempts : (dropWrite s).attempts = s.attempts := rfl
@[simp] theorem dropWrite_outLen : (dropWrite s).outLen = s.outLen := rfl
@[simp] theorem dropWrite_run : (dropWrite s).run = s.run := rfl
@[simp] theorem dropWrite_mem : (dropWrite s).mem = s.mem := rfl
@[simp] theorem dropWrite_cache : (dropWrite s).cache = s.cache := rfl
@[simp] theorem dropWrite_inbox : (dropWrite s).inbox = s.inbox := rfl
@[simp] theorem dropWrite_replies : (dropWrite s).replies = s.replies := rfl
@[simp] theorem dropWrite_entropy : (dropWrite s).entropy = s.entropy := rfl
@[simp] theorem dropWrite_drawCount : (dropWrite s).drawCount = s.drawCount := rfl
@[simp] theorem dropWrite_races : (dropWrite s).races = s.races := rfl
@[simp] theorem dropWrite_raceCount : (dropWrite s).raceCount = s.raceCount := rfl

@[simp] theorem setProgress_params (p : Progress) : (setProgress p s).params = s.params := rfl
@[simp] theorem setProgress_bigs (p : Progress) : (setProgress p s).bigs = s.bigs := rfl
@[simp] theorem setProgress_desc (p : Progress) : (setProgress p s).desc = s.desc := rfl
@[simp] theorem setProgress_ie (p : Progress) : (setProgress p s).ie = s.ie := rfl
@[simp] theorem setProgress_embedMode (p : Progress) : (setProgress p s).embedMode = s.embedMode := rfl
@[simp] theorem setProgress_done (p : Progress) : (setProgress p s).done = s.done := rfl
@[simp] theorem setProgress_ovr (p : Progress) : (setProgress p s).ovr = s.ovr := rfl
@[simp] theorem setProgress_err (p : Progress) : (setProgress p s).err = s.err := rfl
@[simp] theorem setProgress_prime (p : Progress) : (setProgress p s).prime = s.prime := rfl
@[simp] theorem setProgress_neg (p : Progress) : (setProgress p s).neg = s.neg := rfl
@[simp] theorem setProgress_attempts (p : Progress) : (setProgress p s).attempts = s.attempts := rfl
@[simp] theorem setProgress_outLen (p : Progress) : (setProgress p s).outLen = s.outLen := rfl
@[simp] theorem setProgress_run (p : Progress) : (setProgress p s).run = s.run.map fun r => { r with progress := p } := rfl
@[simp] theorem setProgress_mem (p : Progress) : (setProgress p s).mem = s.mem := rfl
@[simp] theorem setProgress_cache (p : Progress) : (setProgress p s).cache = s.cache := rfl
@[simp] theorem setProgress_inbox (p : Progress) : (setProgress p s).inbox = s.inbox := rfl
@[simp] theorem setProgress_replies (p : Progress) : (setProgress p s).replies = s.replies := rfl
@[simp] theorem setProgress_entropy (p : Progress) : (setProgress p s).entropy = s.entropy := rfl
@[simp] theorem setProgress_drawCount (p : Progress) : (setProgress p s).drawCount = s.drawCount := rfl
@[simp] theorem setProgress_races (p : Progress) : (setProgress p s).races = s.races := rfl
@[simp] theorem setProgress_raceCount (p : Progress) : (setProgress p s).raceCount = s.raceCount := rfl

@[simp] theorem requestAbort_params : (requestAbort s).params = s.params := rfl
@[simp] theorem requestAbort_bigs : (requestAbort s).bigs = s.bigs := rfl
@[simp] theorem requestAbort_desc : (requestAbort s).desc = s.desc := rfl
@[simp] theorem requestAbort_ie : (requestAbort s).ie = s.ie := rfl
@[simp] theorem requestAbort_embedMode : (requestAbort s).embedMode = s.embedMode := rfl
@[simp] theorem requestAbort_done : (requestAbort s).done = s.done := rfl
@[simp] theorem requestAbort_ovr : (requestAbort s).ovr = s.ovr := rfl
@[simp] theorem requestAbort_err : (requestAbort s).err = s.err := rfl
@[simp] theorem requestAbort_prime : (requestAbort s).prime = s.prime := rfl
@[simp] theorem requestAbort_neg : (requestAbort s).neg = s.neg := rfl
@[simp] theorem requestAbort_attempts : (requestAbort s).attempts = s.attempts := rfl
@[simp] theorem requestAbort_outLen : (requestAbort s).outLen = s.outLen := rfl
@[simp] theorem requestAbort_run : (requestAbort s).run = s.run.map fun r => { r with abortReq := true } := rfl
@[simp] theorem requestAbort_mem : (requestAbort s).mem = s.mem := rfl
@[simp] theorem requestAbort_cache : (requestAbort s).cache = s.cache := rfl
@[simp] theorem requestAbort_inbox : (requestAbort s).inbox = s.inbox := rfl
@[simp] theorem requestAbort_replies : (requestAbort s).replies = s.replies := rfl
@[simp] theorem requestAbort_entropy : (requestAbort s).entropy = s.entropy := rfl
@[simp] theorem requestAbort_drawCount : (requestAbort s).drawCount = s.drawCount := rfl
@[simp] theorem requestAbort_races : (requestAbort s).races = s.races := rfl
@[simp] theorem requestAbort_raceCount : (requestAbort s).raceCount = s.raceCount := rfl

@[simp] theorem reply_params (r : Reply) : (reply r s).params = s.params := rfl
@[simp] theorem reply_bigs (r : Reply) : (reply r s).bigs = s.bigs := rfl
@[simp] theorem reply_desc (r : Reply) : (reply r s).desc = s.desc := rfl
@[simp] theorem reply_ie (r : Reply) : (reply r s).ie = s.ie := rfl
@[simp] theorem reply_embedMode (r : Reply) : (reply r s).embedMode = s.embedMode := rfl
@[simp] theorem reply_done (r : Reply) : (reply r s).done = s.done := rfl
@[simp] theorem reply_ovr (r : Reply) : (reply r s).ovr = s.ovr := rfl
@[simp] theorem reply_err (r : Reply) : (reply r s).err = s.err := rfl
@[simp] theorem reply_prime (r : Reply) : (reply r s).prime = s.prime := rfl
@[simp] theorem reply_neg (r : Reply) : (reply r s).neg = s.neg := rfl
@[simp] theorem reply_attempts (r : Reply) : (reply r s).attempts = s.attempts := rfl
@[simp] theorem reply_outLen (r : Reply) : (reply r s).outLen = s.outLen := rfl
@[simp] theorem reply_run (r : Reply) : (reply r s).run = s.run := rfl
@[simp] theorem reply_mem (r : Reply) : (reply r s).mem = s.mem := rfl
@[simp] theorem reply_cache (r : Reply) : (reply r s).cache = s.cache := rfl
@[simp] theorem reply_inbox (r : Reply) : (reply r s).inbox = s.inbox := rfl
@[simp] theorem reply_replies (r : Reply) : (reply r s).replies = r :: s.replies := rfl
@[simp] theorem reply_entropy (r : Reply) : (reply r s).entropy = s.entropy := rfl
@[simp] theorem reply_drawCount (r : Reply) : (reply r s).drawCount = s.drawCount := rfl
@[simp] theorem reply_races (r : Reply) : (reply r s).races = s.races := rfl
@[simp] theorem reply_raceCount (r : Reply) : (reply r s).raceCount = s.raceCount := rfl

@[simp] theorem finishAttempts_params (c : ErrCode) (n : Nat) : (finishAttempts c n s).params = s.params := rfl
@[simp] theorem finishAttempts_bigs (c : ErrCode) (n : Nat) : (finishAttempts c n s).bigs = s.bigs := rfl
@[simp] theorem finishAttempts_desc (c : ErrCode) (n : Nat) : (finishAttempts c n s).desc = s.desc := rfl
@[simp] theorem finishAttempts_ie (c : ErrCode) (n : Nat) : (finishAttempts c n s).ie = s.ie := rfl
@[simp] theorem finishAttempts_embedMode (c : ErrCode) (n : Nat) : (finishAttempts c n s).embedMode = s.embedMode := rfl
@[simp] theorem finishAttempts_done (c : ErrCode) (n : Nat) : (finishAttempts c n s).done = true := rfl
@[simp] theorem finishAttempts_ovr (c : ErrCode) (n : Nat) : (finishAttempts c n s).ovr = s.ovr := rfl
@[simp] theorem finishAttempts_err (c : ErrCode) (n : Nat) : (finishAttempts c n s).err = c := rfl
@[simp] theorem finishAttempts_prime (c : ErrCode) (n : Nat) : (finishAttempts c n s).prime = s.prime := rfl
@[simp] theorem finishAttempts_neg (c : ErrCode) (n : Nat) : (finishAttempts c n s).neg = s.neg := rfl
@[simp] theorem finishAttempts_attempts (c : ErrCode) (n : Nat) : (finishAttempts c n s).attempts = sat32 n := rfl
@[simp] theorem finishAttempts_outLen (c : ErrCode) (n : Nat) : (finishAttempts c n s).outLen = s.outLen := rfl
@[simp] theorem finishAttempts_run (c : ErrCode) (n : Nat) : (finishAttempts c n s).run = none := rfl
@[simp] theorem finishAttempts_mem (c : ErrCode) (n : Nat) : (finishAttempts c n s).mem = s.mem := rfl
@[simp] theorem finishAttempts_cache (c : ErrCode) (n : Nat) : (finishAttempts c n s).cache = s.cache := rfl
@[simp] theorem finishAttempts_inbox (c : ErrCode) (n : Nat) : (finishAttempts c n s).inbox = s.inbox := rfl
@[simp] theorem finishAttempts_replies (c : ErrCode) (n : Nat) : (finishAttempts c n s).replies = s.replies := rfl
@[simp] theorem finishAttempts_entropy (c : ErrCode) (n : Nat) : (finishAttempts c n s).entropy = s.entropy := rfl
@[simp] theorem finishAttempts_drawCount (c : ErrCode) (n : Nat) : (finishAttempts c n s).drawCount = s.drawCount := rfl
@[simp] theorem finishAttempts_races (c : ErrCode) (n : Nat) : (finishAttempts c n s).races = s.races := rfl
@[simp] theorem finishAttempts_raceCount (c : ErrCode) (n : Nat) : (finishAttempts c n s).raceCount = s.raceCount := rfl

@[simp] theorem finishOutLen_params (c : ErrCode) (n : Nat) : (finishOutLen c n s).params = s.params := rfl
@[simp] theorem finishOutLen_bigs (c : ErrCode) (n : Nat) : (finishOutLen c n s).bigs = s.bigs := rfl
@[simp] theorem finishOutLen_desc (c : ErrCode) (n : Nat) : (finishOutLen c n s).desc = s.desc := rfl
@[simp] theorem finishOutLen_ie (c : ErrCode) (n : Nat) : (finishOutLen c n s).ie = s.ie := rfl
@[simp] theorem finishOutLen_embedMode (c : ErrCode) (n : Nat) : (finishOutLen c n s).embedMode = s.embedMode := rfl
@[simp] theorem finishOutLen_done (c : ErrCode) (n : Nat) : (finishOutLen c n s).done = true := rfl
@[simp] theorem finishOutLen_ovr (c : ErrCode) (n : Nat) : (finishOutLen c n s).ovr = s.ovr := rfl
@[simp] theorem finishOutLen_err (c : ErrCode) (n : Nat) : (finishOutLen c n s).err = c := rfl
@[simp] theorem finishOutLen_prime (c : ErrCode) (n : Nat) : (finishOutLen c n s).prime = s.prime := rfl
@[simp] theorem finishOutLen_neg (c : ErrCode) (n : Nat) : (finishOutLen c n s).neg = s.neg := rfl
@[simp] theorem finishOutLen_attempts (c : ErrCode) (n : Nat) : (finishOutLen c n s).attempts = s.attempts := rfl
@[simp] theorem finishOutLen_outLen (c : ErrCode) (n : Nat) : (finishOutLen c n s).outLen = sat32 n := rfl
@[simp] theorem finishOutLen_run (c : ErrCode) (n : Nat) : (finishOutLen c n s).run = none := rfl
@[simp] theorem finishOutLen_mem (c : ErrCode) (n : Nat) : (finishOutLen c n s).mem = s.mem := rfl
@[simp] theorem finishOutLen_cache (c : ErrCode) (n : Nat) : (finishOutLen c n s).cache = s.cache := rfl
@[simp] theorem finishOutLen_inbox (c : ErrCode) (n : Nat) : (finishOutLen c n s).inbox = s.inbox := rfl
@[simp] theorem finishOutLen_replies (c : ErrCode) (n : Nat) : (finishOutLen c n s).replies = s.replies := rfl
@[simp] theorem finishOutLen_entropy (c : ErrCode) (n : Nat) : (finishOutLen c n s).entropy = s.entropy := rfl
@[simp] theorem finishOutLen_drawCount (c : ErrCode) (n : Nat) : (finishOutLen c n s).drawCount = s.drawCount := rfl
@[simp] theorem finishOutLen_races (c : ErrCode) (n : Nat) : (finishOutLen c n s).races = s.races := rfl
@[simp] theorem finishOutLen_raceCount (c : ErrCode) (n : Nat) : (finishOutLen c n s).raceCount = s.raceCount := rfl

@[simp] theorem startTurn_params : (startTurn s).params = s.params := rfl
@[simp] theorem startTurn_bigs : (startTurn s).bigs = s.bigs := rfl
@[simp] theorem startTurn_desc : (startTurn s).desc = s.desc := rfl
@[simp] theorem startTurn_ie : (startTurn s).ie = s.ie := rfl
@[simp] theorem startTurn_embedMode : (startTurn s).embedMode = s.embedMode := rfl
@[simp] theorem startTurn_done : (startTurn s).done = s.done := rfl
@[simp] theorem startTurn_ovr : (startTurn s).ovr = s.ovr := rfl
@[simp] theorem startTurn_err : (startTurn s).err = s.err := rfl
@[simp] theorem startTurn_prime : (startTurn s).prime = s.prime := rfl
@[simp] theorem startTurn_neg : (startTurn s).neg = s.neg := rfl
@[simp] theorem startTurn_attempts : (startTurn s).attempts = s.attempts := rfl
@[simp] theorem startTurn_outLen : (startTurn s).outLen = s.outLen := rfl
@[simp] theorem startTurn_run : (startTurn s).run = s.run := rfl
@[simp] theorem startTurn_mem : (startTurn s).mem = s.mem := rfl
@[simp] theorem startTurn_cache : (startTurn s).cache = s.cache := rfl
@[simp] theorem startTurn_inbox : (startTurn s).inbox = hostNowDue s.inbox := rfl
@[simp] theorem startTurn_replies : (startTurn s).replies = s.replies := rfl
@[simp] theorem startTurn_entropy : (startTurn s).entropy = s.entropy := rfl
@[simp] theorem startTurn_drawCount : (startTurn s).drawCount = s.drawCount := rfl
@[simp] theorem startTurn_races : (startTurn s).races = s.races := rfl
@[simp] theorem startTurn_raceCount : (startTurn s).raceCount = s.raceCount := rfl

@[simp] theorem cachePut_params (c : CacheByte) : (cachePut c s).params = s.params := rfl
@[simp] theorem cachePut_bigs (c : CacheByte) : (cachePut c s).bigs = s.bigs := rfl
@[simp] theorem cachePut_desc (c : CacheByte) : (cachePut c s).desc = s.desc := rfl
@[simp] theorem cachePut_ie (c : CacheByte) : (cachePut c s).ie = s.ie := rfl
@[simp] theorem cachePut_embedMode (c : CacheByte) : (cachePut c s).embedMode = s.embedMode := rfl
@[simp] theorem cachePut_done (c : CacheByte) : (cachePut c s).done = s.done := rfl
@[simp] theorem cachePut_ovr (c : CacheByte) : (cachePut c s).ovr = s.ovr := rfl
@[simp] theorem cachePut_err (c : CacheByte) : (cachePut c s).err = s.err := rfl
@[simp] theorem cachePut_prime (c : CacheByte) : (cachePut c s).prime = s.prime := rfl
@[simp] theorem cachePut_neg (c : CacheByte) : (cachePut c s).neg = s.neg := rfl
@[simp] theorem cachePut_attempts (c : CacheByte) : (cachePut c s).attempts = s.attempts := rfl
@[simp] theorem cachePut_outLen (c : CacheByte) : (cachePut c s).outLen = s.outLen := rfl
@[simp] theorem cachePut_run (c : CacheByte) : (cachePut c s).run = s.run := rfl
@[simp] theorem cachePut_mem (c : CacheByte) : (cachePut c s).mem = s.mem := rfl
@[simp] theorem cachePut_cache (c : CacheByte) : (cachePut c s).cache = c :: s.cache.filter fun e => e.addr ≠ c.addr := rfl
@[simp] theorem cachePut_inbox (c : CacheByte) : (cachePut c s).inbox = s.inbox := rfl
@[simp] theorem cachePut_replies (c : CacheByte) : (cachePut c s).replies = s.replies := rfl
@[simp] theorem cachePut_entropy (c : CacheByte) : (cachePut c s).entropy = s.entropy := rfl
@[simp] theorem cachePut_drawCount (c : CacheByte) : (cachePut c s).drawCount = s.drawCount := rfl
@[simp] theorem cachePut_races (c : CacheByte) : (cachePut c s).races = s.races := rfl
@[simp] theorem cachePut_raceCount (c : CacheByte) : (cachePut c s).raceCount = s.raceCount := rfl

end Sys2Proof.Machine
end

