-- ==== Sys2Proof/Laws/Memory.lean ====
section
/-! SUPPORT. The laws of memory: a read after a write, and that every operation keeps the canonical form. -/

namespace Sys2Proof.Machine

theorem memRead_memWrite_other (m : Memory) {x y : Nat} (v : Byte) (h : y ≠ x) :
    memRead (memWrite m x v) y = memRead m y := by
  induction m with
  | nil => by_cases hv : v = unlistedByte <;> simp [memWrite, memRead, hv, h]
  | cons c rest ih =>
    obtain ⟨a, b⟩ := c
    by_cases hlt : x < a
    · by_cases hv : v = unlistedByte <;> simp [memWrite, memRead, hlt, hv, h]
    · by_cases he : x = a
      · subst he
        by_cases hv : v = unlistedByte <;> simp [memWrite, memRead, hv, h]
      · simp [memWrite, memRead, hlt, he, ih]

theorem memRead_of_wfFrom {lo : Nat} {m : Memory} (h : m.wfFrom lo = true) {x : Nat} (hx : x < lo) :
    memRead m x = unlistedByte := by
  induction m generalizing lo with
  | nil => rfl
  | cons c rest ih =>
    obtain ⟨a, b⟩ := c
    simp only [Memory.wfFrom, Bool.and_eq_true, decide_eq_true_eq] at h
    have hne : x ≠ a := by omega
    rw [memRead, if_neg hne]
    exact ih h.2 (by omega)

theorem memRead_memWrite_same {lo : Nat} {m : Memory} (h : m.wfFrom lo = true) (x : Nat) (v : Byte) :
    memRead (memWrite m x v) x = v := by
  induction m generalizing lo with
  | nil => by_cases hv : v = unlistedByte <;> simp [memWrite, memRead, hv]
  | cons c rest ih =>
    obtain ⟨a, b⟩ := c
    simp only [Memory.wfFrom, Bool.and_eq_true, decide_eq_true_eq] at h
    by_cases hlt : x < a
    · by_cases hv : v = unlistedByte
      · have hne : x ≠ a := by omega
        simp [memWrite, memRead, hlt, hv, hne, memRead_of_wfFrom h.2 (show x < a + 1 by omega)]
      · simp [memWrite, memRead, hlt, hv]
    · by_cases he : x = a
      · subst he
        by_cases hv : v = unlistedByte
        · simp [memWrite, hv, memRead_of_wfFrom h.2 (Nat.lt_succ_self x)]
        · simp [memWrite, memRead, hv]
      · simp [memWrite, memRead, hlt, he, ih h.2]

theorem Memory.wfFrom_mono {lo lo' : Nat} {m : Memory} (hl : lo' ≤ lo) (h : m.wfFrom lo = true) :
    m.wfFrom lo' = true := by
  cases m with
  | nil => rfl
  | cons c rest =>
    simp only [Memory.wfFrom, Bool.and_eq_true, decide_eq_true_eq] at h ⊢
    exact ⟨⟨⟨by omega, h.1.1.2⟩, h.1.2⟩, h.2⟩

theorem memWrite_wfFrom {lo : Nat} {m : Memory} (h : m.wfFrom lo = true) {x : Nat} (hlo : lo ≤ x) (hx : x < 2 ^ 32)
    (v : Byte) : Memory.wfFrom lo (memWrite m x v) = true := by
  induction m generalizing lo with
  | nil =>
    by_cases hv : v = unlistedByte
    · simp [memWrite, hv, Memory.wfFrom]
    · simp [memWrite, hv, Memory.wfFrom, hlo]; omega
  | cons c rest ih =>
    obtain ⟨a, b⟩ := c
    simp only [Memory.wfFrom, Bool.and_eq_true, decide_eq_true_eq] at h
    obtain ⟨⟨⟨h1, h2⟩, h3⟩, h4⟩ := h
    by_cases hlt : x < a
    · by_cases hv : v = unlistedByte
      · simp [memWrite, hlt, hv, Memory.wfFrom, h1, h4, by simpa using h3]; omega
      · have : x + 1 ≤ a := hlt
        simp [memWrite, hlt, hv, Memory.wfFrom, hlo, h4, this, by simpa using h3]; omega
    · by_cases he : x = a
      · subst he
        by_cases hv : v = unlistedByte
        · simp [memWrite, hv, Memory.wfFrom_mono (show lo ≤ x + 1 by omega) h4]
        · simp [memWrite, hv, Memory.wfFrom, h1, h4]; omega
      · simp [memWrite, hlt, he, Memory.wfFrom, h1, ih h4 (show a + 1 ≤ x by omega), by simpa using h3]; omega

/-- A write of memory keeps its canonical form. -/
theorem memWrite_wf {m : Memory} (h : m.wf = true) (a : Addr) (v : Byte) : (memWrite m a.toNat v).wf = true :=
  memWrite_wfFrom h (Nat.zero_le _) a.isLt v

theorem memRead_memWrite {m : Memory} (h : m.wf = true) (x y : Nat) (v : Byte) :
    memRead (memWrite m x v) y = if y = x then v else memRead m y := by
  by_cases hxy : y = x
  · subst hxy; simp [memRead_memWrite_same h]
  · simp [hxy, memRead_memWrite_other m v hxy]

theorem dmaRead_eq_some {a : Addr} {s : State} {b : Byte} :
    dmaRead a s = some b ↔ memAdmits s.params a = true ∧ b = memRead s.mem a.toNat := by
  by_cases h : memAdmits s.params a = true <;> simp [dmaRead, h, eq_comm]

theorem dmaWrite_eq_some {a : Addr} {v : Byte} {s t : State} :
    dmaWrite a v s = some t ↔ memAdmits s.params a = true ∧ t = { s with mem := memWrite s.mem a.toNat v } := by
  by_cases h : memAdmits s.params a = true <;> simp [dmaWrite, h, eq_comm]

/-- Cleaning the host's caches keeps the canonical form of memory. -/
theorem writeBack_wf (a : Addr) (n : Nat) (l : List CacheByte) {m : Memory} (h : m.wf = true) :
    (writeBack a n l m).wf = true := by
  induction l generalizing m with
  | nil => exact h
  | cons c rest ih =>
    by_cases hc : dirtyHit a n c = true
    · simp only [writeBack, hc, if_true]; exact ih (memWrite_wf h c.addr c.byte)
    · simp only [writeBack, hc]; exact ih h

end Sys2Proof.Machine
end

