-- ==== Sys2Proof/Laws/Registers.lean ====
section
/-! SUPPORT. The laws of the big registers (spec/10_state.md R21, R22). -/

namespace Sys2Proof.Machine

@[simp] theorem bigOfNat_length (n v : Nat) : (bigOfNat n v).length = n := by
  induction n generalizing v with
  | zero => rfl
  | succ n ih => simp [bigOfNat, ih]

theorem bigValue_lt (b : BigReg) : bigValue b < 2 ^ (32 * b.length) := by
  induction b with
  | nil => simp [bigValue]
  | cons w rest ih =>
    have hw : w.value.toNat < 2 ^ 32 := w.value.isLt
    have hp : 2 ^ (32 * (rest.length + 1)) = 2 ^ 32 * 2 ^ (32 * rest.length) := by rw [Nat.mul_succ, Nat.pow_add, Nat.mul_comm]
    simp only [bigValue, List.length_cons, hp]
    have : 2 ^ 32 * (bigValue rest + 1) ≤ 2 ^ 32 * 2 ^ (32 * rest.length) := Nat.mul_le_mul_left _ ih
    omega

/-- A register written with `v` holds `v` modulo the register's width. -/
theorem bigValue_bigOfNat (n v : Nat) : bigValue (bigOfNat n v) = v % 2 ^ (32 * n) := by
  induction n generalizing v with
  | zero => simp [bigOfNat, bigValue, Nat.mod_one]
  | succ n ih =>
    have hp : 2 ^ (32 * (n + 1)) = 2 ^ 32 * 2 ^ (32 * n) := by rw [Nat.mul_succ, Nat.pow_add, Nat.mul_comm]
    simp only [bigOfNat, bigValue, ih, BitVec.toNat_ofNat, hp]
    rw [Nat.mod_mul]

/-- A value that fits is read back as it is. -/
theorem bigValue_bigOfNat_of_lt {n v : Nat} (h : v < 2 ^ (32 * n)) : bigValue (bigOfNat n v) = v := by
  rw [bigValue_bigOfNat, Nat.mod_eq_of_lt h]

theorem bigOfNat_written (n v : Nat) : ∀ w ∈ bigOfNat n v, w.written = true := by
  induction n generalizing v with
  | zero => simp [bigOfNat]
  | succ n ih =>
    intro w hw
    rcases List.mem_cons.1 hw with rfl | h
    · rfl
    · exact ih _ w h

/-- A register a command writes has no unwritten word (spec/10_state.md R22). -/
@[simp] theorem firstUnwritten_bigOfNat (n v : Nat) : firstUnwritten (bigOfNat n v) = none := by
  simpa [firstUnwritten] using bigOfNat_written n v

theorem setBig_get (d k : Reg) (v : Nat) (s : State) :
    (setBig d v s).bigs[k] = if k = d then bigOfNat s.params.opwWords v else s.bigs[k] := by
  by_cases h : k = d
  · subst h; simp
  · have : d.val ≠ k.val := fun e => h (Fin.ext e.symm)
    simp [h, this]

theorem bigsSized_setBig {d : Reg} {v : Nat} {s : State} (h : bigsSized s.params s.bigs) :
    bigsSized s.params (setBig d v s).bigs := by
  intro k
  rw [setBig_get]
  split
  · exact bigOfNat_length _ _
  · exact h k

/-- The value of an operand is below 2^OPW (spec/41_modular_arithmetic.md R150). -/
theorem operand_lt {p : Params} {r : Running} (h : bigsSized p r.snap.bigs) (i : Reg) : operand i r < 2 ^ p.opw := by
  have := bigValue_lt r.snap.bigs[i]
  rw [h i] at this
  exact this

end Sys2Proof.Machine
end

