-- ==== Sys2Proof/Laws/Lifecycle.lean ====
section
/-! SUPPORT. What the engine's turn can do: each law is proved once here for any command's rule, and the commands cite it. -/

namespace Sys2Proof.Machine

variable {onAbort : State → State} {rule : Running → State → State}

/-- An engine step is the rule's step, with or without a race settled before it, or the abort. -/
theorem engineStep_cases (r : Running) (s : State) :
    (r.abortReq = false ∧ engineStep onAbort rule r s = rule r s) ∨
    (r.abortReq = true ∧ raceValue s = true ∧ engineStep onAbort rule r s = onAbort (afterRace s)) ∨
    (r.abortReq = true ∧ raceValue s = false ∧ engineStep onAbort rule r s = rule r (afterRace s)) := by
  cases hr : r.abortReq <;> cases hv : raceValue s <;> simp [engineStep, hr, hv]

/-- What every engine step keeps, the engine's steps keep. -/
theorem runSteps_induct (P : State → Prop)
    (hstep : ∀ r s, s.run = some r → P s → P (engineStep onAbort rule r s)) :
    ∀ (n : Nat) (s : State), P s → P (runSteps onAbort rule n s)
  | 0, _, h => h
  | n + 1, s, h => by
    rw [runSteps]
    split
    · exact h
    · exact runSteps_induct P hstep n _ (hstep _ _ ‹_› h)

/-- What the waiting moves' arrival and every engine step keep, the engine's turn keeps. -/
theorem runCommand_induct (P : State → Prop)
    (harrive : ∀ s, P s → P (startTurn s))
    (hstep : ∀ r s, s.run = some r → P s → P (engineStep onAbort rule r s))
    {s : State} (h : P s) : P (runCommand onAbort rule s) := by
  rw [runCommand]
  split
  · exact h
  · exact runSteps_induct P hstep _ _ (harrive s h)

/-- A rule that keeps a property, an abort that keeps it, and a settled race that keeps it: so does an engine step. -/
theorem engineStep_keeps (P : State → Prop) (habort : ∀ s, P s → P (onAbort s)) (hrace : ∀ s, P s → P (afterRace s))
    (hrule : ∀ r s, s.run = some r → P s → P (rule r s)) (r : Running) (s : State) (hr : s.run = some r) (h : P s) :
    P (engineStep onAbort rule r s) := by
  rcases engineStep_cases (onAbort := onAbort) (rule := rule) r s with ⟨_, e⟩ | ⟨_, _, e⟩ | ⟨_, _, e⟩ <;> rw [e]
  · exact hrule r s hr h
  · exact habort _ (hrace s h)
  · exact hrule r _ hr (hrace s h)

@[simp] theorem runSteps_idle {s : State} (h : s.run = none) (n : Nat) : runSteps onAbort rule n s = s := by
  cases n <;> simp [runSteps, h]

theorem runSteps_succ {s : State} {r : Running} (h : s.run = some r) (n : Nat) :
    runSteps onAbort rule (n + 1) s = runSteps onAbort rule n (engineStep onAbort rule r s) := by
  simp [runSteps, h]

theorem runSteps_add (m n : Nat) (s : State) :
    runSteps onAbort rule (m + n) s = runSteps onAbort rule n (runSteps onAbort rule m s) := by
  induction m generalizing s with
  | zero => rw [Nat.zero_add]; rfl
  | succ m ih =>
    rw [show m + 1 + n = (m + n) + 1 by omega]
    cases h : s.run with
    | none => simp [h]
    | some r => rw [runSteps_succ h, runSteps_succ h, ih]

/-- The engine's turn on an idle machine does nothing. -/
@[simp] theorem runCommand_idle {s : State} (h : s.run = none) : runCommand onAbort rule s = s := by
  simp [runCommand, h]

theorem runCommand_running {s : State} {r : Running} (h : s.run = some r) :
    runCommand onAbort rule s = runSteps onAbort rule (engineTurns s.inbox) (startTurn s) := by
  simp [runCommand, h]

/-- A command whose rule completes at its first step is that step. -/
theorem runCommand_of_completes {s : State} {r : Running} (h : s.EngineToMove r)
    (hc : (rule r (startTurn s)).run = none) :
    runCommand onAbort rule s = rule r (startTurn s) := by
  obtain ⟨n, hn⟩ := Nat.exists_eq_add_of_lt h.turn
  rw [runCommand_running h.running, hn, Nat.zero_add, runSteps_succ (r := r) (by simpa using h.running)]
  have : engineStep onAbort rule r (startTurn s)
      = rule r (startTurn s) := by simp [engineStep, h.noAbort]
  rw [this, runSteps_idle hc]

/-- A draw lies in its range (spec/43_candidate_generation.md R211). -/
theorem drawValue_mem {lo hi : Nat} (h : lo ≤ hi) (s : State) : lo ≤ drawValue lo hi s ∧ drawValue lo hi s ≤ hi := by
  unfold drawValue intoRange
  split
  · assumption
  · generalize s.entropy.head?.getD (Config.freeDraw s.drawCount) = raw
    have : raw % (hi - lo + 1) < hi - lo + 1 := Nat.mod_lt _ (by omega)
    omega

/-- Every value of the range is the draw of some state. -/
theorem drawValue_surjective {lo hi v : Nat} (hl : lo ≤ v) (hh : v ≤ hi) (s : State) :
    drawValue lo hi { s with entropy := v :: s.entropy } = v := by
  simp [drawValue, intoRange, hl, hh]

end Sys2Proof.Machine
end

