-- ==== Sys2Proof/Laws/Codec.lean ====
section
/-! SUPPORT. The laws of the codec's geometry and slot write (spec/44_lsb_codec.md R240 to R245), and of one engine step of a
command at a given stage. -/

namespace Sys2Proof.Machine

/-- A slot below the top of memory lies at `PIX_BASE + k` (spec/44_lsb_codec.md R240). -/
theorem slotAddr_toNat {d : Desc} {k : Nat} (h : d.pixBase.toNat + k < 2 ^ 32) :
    (slotAddr d k).toNat = d.pixBase.toNat + k := by
  rw [slotAddr, BitVec.toNat_add, BitVec.toNat_ofNat, Nat.mod_eq_of_lt (show k < 2 ^ 32 by omega), Nat.mod_eq_of_lt h]

/-- A message byte below the top of memory lies at `MSG_BASE + j`. -/
theorem msgAddr_toNat {d : Desc} {j : Nat} (h : d.msgBase.toNat + j < 2 ^ 32) :
    (msgAddr d j).toNat = d.msgBase.toNat + j := by
  rw [msgAddr, BitVec.toNat_add, BitVec.toNat_ofNat, Nat.mod_eq_of_lt (show j < 2 ^ 32 by omega), Nat.mod_eq_of_lt h]

/-- What a passed range check gives (spec/44_lsb_codec.md R242). -/
theorem outOfRange_eq_false {d : Desc} {n : Nat} :
    outOfRange d n = false ↔ d.pixBase.toNat + slotCount d ≤ 2 ^ 32 ∧ d.msgBase.toNat + n ≤ 2 ^ 32 := by
  simp [outOfRange]

/-- Buffers that passed the overlap check share no byte (spec/44_lsb_codec.md R243). -/
theorem disjoint_of_buffersOverlap {d : Desc} {n : Nat} (h : buffersOverlap d n = false) {j k : Nat} (hj : j < n)
    (hk : k < slotCount d) : d.msgBase.toNat + j ≠ d.pixBase.toNat + k := by
  simp only [buffersOverlap, rangesOverlap, Bool.and_eq_false_iff, decide_eq_false_iff_not] at h
  omega

/-- The machine with its running command at stage `p` and memory `m`. -/
def atStage (s : State) (r : Running) (p : Progress) (m : Memory) : State :=
  { s with mem := m, run := some { r with progress := p } }

@[simp] theorem setProgress_atStage (s : State) (r : Running) (p q : Progress) (m : Memory) :
    setProgress q (atStage s r p m) = atStage s r q m := rfl

theorem dmaRead_atStage {s : State} {r : Running} {p : Progress} {m : Memory} {a : Addr}
    (h : memAdmits s.params a = true) : dmaRead a (atStage s r p m) = some (memRead m a.toNat) := by
  simp [dmaRead, atStage, h]

theorem dmaWrite_atStage {s : State} {r : Running} {p : Progress} {m : Memory} {a : Addr} {v : Byte}
    (h : memAdmits s.params a = true) :
    dmaWrite a v (atStage s r p m) = some (atStage s r p (memWrite m a.toNat v)) := by
  simp [dmaWrite, atStage, h]

/-- One engine step of a command nobody aborts. -/
theorem runSteps_atStage {onAbort : State → State} {rule : Running → State → State} {s : State} {r : Running}
    {p : Progress} {m : Memory} (h : r.abortReq = false) (n : Nat) :
    runSteps onAbort rule (n + 1) (atStage s r p m) =
      runSteps onAbort rule n (rule { r with progress := p } (atStage s r p m)) := by
  rw [runSteps_succ (r := { r with progress := p }) rfl]
  simp [engineStep, h]

end Sys2Proof.Machine
end

