-- ==== Sys2Proof/Laws/Sampler.lean ====
section
/-! SUPPORT. What one step of the Fermat test and of the prime sampler can do (spec/42_primality.md R190,
spec/43_candidate_generation.md R212). -/

namespace Sys2Proof.Machine

/-- A Fermat step makes one draw or none. -/
theorem fermatAfter_cases (num k passed : Nat) (s : State) :
    (fermatDraws num k passed = true ∧ fermatAfter num k passed s = afterDraw s) ∨
    (fermatDraws num k passed = false ∧ fermatAfter num k passed s = s) := by
  cases h : fermatDraws num k passed <;> simp [fermatAfter, h]

/-- A Fermat step goes on only after a draw that is no witness. -/
theorem fermatVerdict_eq_none {num k passed : Nat} {s : State} (h : fermatVerdict num k passed s = none) :
    4 ≤ num ∧ passed < k ∧ powMod (drawValue 2 (num - 2) s) (num - 1) num = 1 := by
  unfold fermatVerdict at h
  split at h
  · cases h
  · split at h
    · cases h
    · split at h
      · cases h
      · split at h
        · exact ⟨by omega, by omega, ‹_›⟩
        · cases h

/-- A sampler step makes one draw or none. -/
theorem primeAfter_cases (d : Desc) (st : PrimeStage) (s : State) :
    primeAfter d st s = s ∨ primeAfter d st s = afterDraw s := by
  cases st with
  | attempt cnt => by_cases h : cnt < d.attemptCap.toNat <;> simp [primeAfter, h]
  | length cnt len => exact .inr rfl
  | testing cnt c passed =>
    rcases fermatAfter_cases c d.rounds.toNat passed s with ⟨_, h⟩ | ⟨_, h⟩ <;> simp [primeAfter, h]

/-- A candidate forced odd is odd and keeps its bit-length (spec/43_candidate_generation.md R212). -/
theorem forceOdd_spec {len c : Nat} (hl : 1 ≤ len) (h1 : 2 ^ (len - 1) ≤ c) (h2 : c ≤ 2 ^ len - 1) :
    forceOdd c % 2 = 1 ∧ 2 ^ (len - 1) ≤ forceOdd c ∧ forceOdd c < 2 ^ len := by
  obtain ⟨l, rfl⟩ := Nat.exists_eq_add_of_le' hl
  have hp : 2 ^ (l + 1) = 2 * 2 ^ l := by rw [pow_succ, mul_comm]
  have hpos : 0 < 2 ^ l := Nat.two_pow_pos l
  simp only [Nat.add_sub_cancel] at h1 ⊢
  unfold forceOdd
  split <;> omega

end Sys2Proof.Machine
end

