-- ==== Sys2Proof/Laws/Draws.lean ====
section
/-! SUPPORT. What the draws of the Fermat test and of the samplers give: from any state,
    gen_prime() and gen_rand() take the draws
their pseudocode makes, in order, and give what it gives on them (spec/42_primality.md R190,
    spec/43_candidate_generation.md R211 to
R216). -/

namespace Sys2Proof.Machine

/-- The state `n` draws later. -/
def later (n : Nat) (s : State) : State := { s with entropy := s.entropy.drop n, drawCount := s.drawCount + n }
theorem later_zero (s : State) : later 0 s = s := rfl
theorem later_succ (n : Nat) (s : State) : later (n+1) s = later n (afterDraw s) := by
  simp [later, afterDraw]; omega
theorem later_add (m n : Nat) (s : State) : later (m+n) s = later n (later m s) := by
  simp [later, Nat.add_assoc]

/-- A waiting value of the range is the draw. -/
theorem draw_waiting {lo hi v : Nat} {rest : List Nat} {s : State} (he : s.entropy = v :: rest) (h : lo ≤ v ∧ v ≤ hi) :
    drawValue lo hi s = v := by simp [drawValue, intoRange, he, h]

/-- On the draws `ds` and no more, `f` gives `x`; and if the waiting values suffice `f`, they begin with `ds`. -/
structure Takes {α : Type} (f : List Nat → Option (α × List Nat)) (s : State) (ds : List Nat) (x : α) : Prop where
  given : ∀ rest, f (ds ++ rest) = some (x, rest)
  waiting : ∀ x' rest, f s.entropy = some (x', rest) → x' = x ∧ s.entropy.drop ds.length = rest

/-- No draw. -/
theorem Takes.ret {α} {f : List Nat → Option (α × List Nat)} {s : State} {x : α} (h : ∀ l, f l = some (x, l)) :
    Takes f s [] x :=
  ⟨fun rest => h rest, fun x' rest hx => by rw [h] at hx; cases hx; exact ⟨rfl, rfl⟩⟩

/-- One after the other. -/
theorem Takes.bind {α β} {f : List Nat → Option (α × List Nat)} {g : α → List Nat → Option (β × List Nat)}
    {h : List Nat → Option (β × List Nat)} {s : State} {ds es : List Nat} {x : α} {y : β}
    (hf : Takes f s ds x) (hg : Takes (g x) (later ds.length s) es y)
    (hh : ∀ l, h l = (f l).bind fun p => g p.1 p.2) : Takes h s (ds ++ es) y := by
  constructor
  · intro rest
    rw [hh, List.append_assoc, hf.given, Option.bind_some]; exact hg.given rest
  · intro y' rest hy
    rw [hh] at hy
    cases hfe : f s.entropy with
    | none => rw [hfe] at hy; cases hy
    | some p =>
      obtain ⟨x', l⟩ := p
      obtain ⟨rfl, hl⟩ := hf.waiting _ _ hfe
      rw [hfe] at hy
      have := hg.waiting y' rest (by simpa [later, hl] using hy)
      refine ⟨this.1, ?_⟩
      rw [← this.2]; simp [later, List.drop_drop]

/-- One Fermat step: a draw that is no witness, or the verdict, after a draw or none. -/
theorem fermatStep_takes (num k : Nat) (s : State) : ∀ m passed, passed + m = k →
   (fermatVerdict num k passed s = none ∧ fermatAfter num k passed s = afterDraw s ∧ ∃ m', m = m' + 1 ∧
      ∀ ds b, Takes (fermatOn num m') (afterDraw s) ds b → Takes (fermatOn num m) s (drawValue 2 (num-2) s :: ds) b) ∨
   (∃ b ds, fermatVerdict num k passed s = some b ∧ fermatAfter num k passed s = later ds.length s ∧
       Takes (fermatOn num m) s ds b) := by
  intro m passed hk
  unfold fermatVerdict fermatAfter fermatDraws
  by_cases h1 : num ≤ 1
  · right; refine ⟨false, [], by simp [h1], (by simp [later_zero]; try omega), .ret ?_⟩
    intro l; cases m <;> simp [fermatOn, h1]; try omega
  by_cases h2 : num = 2 ∨ num = 3
  · right; refine ⟨true, [], by simp [h1, h2], (by simp [later_zero]; try omega), .ret ?_⟩
    intro l; cases m <;> simp [fermatOn, h1, h2]; omega
  by_cases h3 : k ≤ passed
  · right; refine ⟨true, [], by simp [h1, h2, h3], by simp [later_zero]; omega, .ret ?_⟩
    intro l; obtain rfl : m = 0 := by omega
    simp [fermatOn]; omega
  have h4 : 4 ≤ num := by omega
  obtain ⟨m', rfl⟩ : ∃ m', m = m'+1 := ⟨m-1, by omega⟩
  have hd := drawValue_mem (lo := 2) (hi := num - 2) (by omega) s
  have hpw : powMod (drawValue 2 (num-2) s) (num-1) num = drawValue 2 (num-2) s ^ (num-1) % num := powMod_eq _ _ _
  have hw : ∀ b' rest, fermatOn num (m'+1) s.entropy = some (b', rest) → ∃ l, s.entropy = drawValue 2 (num-2) s :: l :=
      by
    intro b' rest h
    simp only [fermatOn, if_neg h1, if_neg h2] at h
    split at h
    · cases h
    · rename_i a l he
      split at h
      · rename_i hr; exact ⟨l, by rw [draw_waiting he hr]; exact he⟩
      · cases h
  by_cases h5 : drawValue 2 (num-2) s ^ (num-1) % num = 1
  · left
    refine ⟨by simp [h1, h2, h3, hpw, h5], by simp [h4]; omega, m', rfl, ?_⟩
    intro ds b hb
    constructor
    · intro rest; simp [fermatOn, h1, h2, hd, h5, hb.given]
    · intro b' rest h
      obtain ⟨l, hl⟩ := hw _ _ h
      have ha : (afterDraw s).entropy = l := by simp [hl]
      rw [hl] at h
      simp only [fermatOn, if_neg h1, if_neg h2, if_pos hd, if_pos h5] at h
      obtain ⟨rfl, h'⟩ := hb.waiting b' rest (by rw [ha]; exact h)
      exact ⟨rfl, by rw [← h', ha, hl]; rfl⟩
  · right
    refine ⟨false, [drawValue 2 (num-2) s], by simp [h1, h2, h3, hpw, h5], by simp [h4, later_succ, later_zero]; omega,
        ?_⟩
    constructor
    · intro rest; simp [fermatOn, h1, h2, hd, h5]
    · intro b' rest h
      obtain ⟨l, hl⟩ := hw _ _ h
      rw [hl] at h ⊢
      simp only [fermatOn, if_neg h1, if_neg h2, if_pos hd, if_neg h5] at h
      cases h; exact ⟨rfl, rfl⟩

/-- gen_prime() from a stage: its `n` steps, and how it ends. -/
def primeRun (d : Desc) : Nat → PrimeStage → State → Option (PrimeEvent × State)
  | 0, _, _ => none
  | n+1, st, s => match primeEvent d st s with
    | .goOn st' => primeRun d n st' (primeAfter d st s)
    | .found c cnt => if n = 0 then some (.found c cnt, primeAfter d st s) else none
    | .fail cnt => if n = 0 then some (.fail cnt, primeAfter d st s) else none

/-- The test of one candidate. -/
theorem primeRun_testing (d : Desc) (cnt c : Nat) : ∀ m passed s, passed + m = d.rounds.toNat →
    ∃ n b ds, n ≤ m ∧ Takes (fermatOn c m) s ds b ∧
      (b = true → primeRun d (n+1) (.testing cnt c passed) s = some (.found c cnt, later ds.length s)) ∧
      (b = false → ∀ n', primeRun d (n+1+n') (.testing cnt c passed) s =
          primeRun d n' (.attempt cnt) (later ds.length s)) := by
  intro m
  induction m with
  | zero =>
    intro passed s hk
    rcases fermatStep_takes c d.rounds.toNat s 0 passed hk with ⟨_, _, m', h, _⟩ | ⟨b, ds, h1, h2, h3⟩
    · omega
    · refine ⟨0, b, ds, le_rfl, h3, ?_, ?_⟩
      · rintro rfl; simp [primeRun, primeEvent, primeAfter, h1, h2]
      · rintro rfl n'
        rw [show 0 + 1 + n' = n' + 1 by omega]
        simp [primeRun, primeEvent, primeAfter, h1, h2]
  | succ m ih =>
    intro passed s hk
    rcases fermatStep_takes c d.rounds.toNat s (m+1) passed hk with ⟨h1, h2, m', h, h3⟩ | ⟨b, ds, h1, h2, h3⟩
    · obtain rfl : m = m' := by omega
      obtain ⟨n, b, ds, hn, ht, hr⟩ := ih (passed+1) (afterDraw s) (by omega)
      refine ⟨n+1, b, _, by omega, h3 _ _ ht, fun hb => ?_, fun hb n' => ?_⟩
      · rw [primeRun]; simp only [primeEvent, primeAfter, h1, h2, hr.1 hb, List.length_cons, later_succ]
      · rw [show n + 1 + 1 + n' = (n+1+n') + 1 by omega, primeRun]
        simp only [primeEvent, primeAfter, h1, h2, hr.2 hb, List.length_cons, later_succ]
    · refine ⟨0, b, ds, by omega, h3, ?_, ?_⟩
      · rintro rfl; simp [primeRun, primeEvent, primeAfter, h1, h2]
      · rintro rfl n'
        rw [show 0 + 1 + n' = n' + 1 by omega]
        simp [primeRun, primeEvent, primeAfter, h1, h2]

/-- A drawn length and value are one gen_rand(). -/
theorem genRand_takes (d : Desc) (s : State) (h : 1 ≤ d.minbits.toNat) (h' : d.minbits.toNat ≤ d.maxbits.toNat) :
    Takes (genRandOn d) s [lengthDraw d s,
        valueDraw (lengthDraw d s) (afterDraw s)] (valueDraw (lengthDraw d s) (afterDraw s)) := by
  have hl := drawValue_mem h' s
  have hp : ∀ L, 2 ^ (L-1) ≤ 2 ^ L - 1 ∨ L = 0 := by
    intro L; cases L with
    | zero => right; rfl
    | succ L => left; simp [pow_succ]; have := Nat.two_pow_pos L; omega
  have hv := drawValue_mem (lo := 2 ^ (lengthDraw d s - 1)) (hi := 2 ^ lengthDraw d s - 1)
    ((hp _).resolve_right (by simp only [lengthDraw]; omega)) (afterDraw s)
  have hc : d.minbits.toNat ≤ lengthDraw d s ∧ lengthDraw d s ≤ d.maxbits.toNat ∧
      2 ^ (lengthDraw d s - 1) ≤ valueDraw (lengthDraw d s) (afterDraw s) ∧
      valueDraw (lengthDraw d s) (afterDraw s) ≤ 2 ^ lengthDraw d s - 1 := ⟨hl.1, hl.2, hv.1, hv.2⟩
  constructor
  · intro rest; simp [genRandOn, hc]
  · intro x' rest hx
    unfold genRandOn at hx
    split at hx
    · rename_i len v l he
      split at hx
      · rename_i hr
        cases hx
        have h1 : lengthDraw d s = len := draw_waiting he ⟨hr.1, hr.2.1⟩
        have h2 : valueDraw len (afterDraw s) = x' := draw_waiting (s := afterDraw s) (rest :=
            rest) (by simp [he]) ⟨hr.2.2.1, hr.2.2.2⟩
        rw [h1, h2, he]; exact ⟨rfl, rfl⟩
      · cases hx
    · cases hx

/-- The end of gen_prime() as an event. -/
def asEvent : Option Nat → Nat → PrimeEvent
  | some c, cnt => .found c cnt
  | none, cnt => .fail cnt

/-- `genPrimeOn` with its result apart from the draws left over. -/
def genPrimeDraws (d : Desc) (n cnt : Nat) (l : List Nat) : Option ((Option Nat × Nat) × List Nat) :=
  (genPrimeOn d n cnt l).map fun p => ((p.1, p.2.1), p.2.2)

/-- gen_prime() with `budget` candidates left. -/
theorem primeRun_attempt (d : Desc) (h : 1 ≤ d.minbits.toNat) (h' : d.minbits.toNat ≤ d.maxbits.toNat) :
    ∀ budget cnt s, cnt + budget = d.attemptCap.toNat →
    ∃ n ds found cnt', n ≤ budget * (d.rounds.toNat + 3) + 1 ∧ Takes (genPrimeDraws d budget cnt) s ds (found, cnt') ∧
      primeRun d n (.attempt cnt) s = some (asEvent found cnt', later ds.length s) := by
  intro budget
  induction budget with
  | zero =>
    intro cnt s hc
    refine ⟨1, [], none, cnt, by omega, .ret (fun l => rfl), ?_⟩
    simp [primeRun, primeEvent, primeAfter, show ¬ cnt < d.attemptCap.toNat by omega, later_zero, asEvent]
  | succ budget ih =>
    intro cnt s hc
    let L := lengthDraw d s
    let v := valueDraw L (afterDraw s)
    let s2 := afterDraw (afterDraw s)
    let c := forceOdd v
    let G : Nat → Bool → List Nat → Option ((Option Nat × Nat) × List Nat) := fun c b l => if b then some ((some c,
        cnt+1), l) else genPrimeDraws d budget (cnt+1) l
    have hg := genRand_takes d s h h'
    obtain ⟨n, b, ds, hn, ht, hr⟩ := primeRun_testing d (cnt+1) c d.rounds.toNat 0 s2 (by omega)
    have hs2 : later [L, v].length s = s2 := by simp [later_succ, later_zero, s2]
    have key : ∀ l, genPrimeDraws d (budget+1) cnt l = (genRandOn d l).bind
        fun p => (fermatOn (forceOdd p.1) d.rounds.toNat p.2).bind fun q => if q.1 then some ((some (forceOdd p.1),
        cnt+1), q.2) else genPrimeDraws d budget (cnt+1) q.2 := by
      intro l
      unfold genPrimeDraws
      rw [genPrimeOn]
      cases genRandOn d l with
      | none => rfl
      | some p =>
        simp only [Option.bind_some]
        change Option.map _ (match fermatOn (forceOdd p.1) d.rounds.toNat p.2 with
          | none => _
          | some (true, rest) => _
          | some (false, rest) => _) = _
        cases fermatOn (forceOdd p.1) d.rounds.toNat p.2 with
        | none => rfl
        | some q => obtain ⟨b, l⟩ := q; cases b <;> rfl
    have step2 : ∀ n', primeRun d (n'+2) (.attempt cnt) s = primeRun d n' (.testing (cnt+1) c 0) s2 := by
      intro n'
      rw [primeRun]
      simp only [primeEvent, primeAfter, show cnt < d.attemptCap.toNat by omega, if_true]
      rw [primeRun]; rfl
    cases b with
    | true =>
      refine ⟨n+1+2, [L, v] ++ (ds ++ []), some c, cnt+1, by nlinarith, ?_, ?_⟩
      · have h2 : Takes (fun l => (fermatOn c d.rounds.toNat l).bind fun q => G c q.1 q.2) s2 (ds ++ []) (some c,
          cnt+1) :=
          Takes.bind (g := G c) ht (.ret (fun l => rfl)) (fun l => rfl)
        rw [← hs2] at h2
        exact Takes.bind (g := fun v l => (fermatOn (forceOdd v) d.rounds.toNat l).bind
            fun q => G (forceOdd v) q.1 q.2) hg h2 key
      · rw [step2]
        rw [hr.1 rfl, List.length_append, later_add, hs2]; simp [asEvent]
    | false =>
      obtain ⟨n2, es, found, cnt', hn2, ht2, hr2⟩ := ih (cnt+1) (later ds.length s2) (by omega)
      refine ⟨n+1+n2+2, [L, v] ++ (ds ++ es), found, cnt', by nlinarith, ?_, ?_⟩
      · have h2 : Takes (fun l => (fermatOn c d.rounds.toNat l).bind fun q => G c q.1 q.2) s2 (ds ++ es) (found,
          cnt') :=
          Takes.bind (g := G c) ht (by simpa [G] using ht2) (fun l => rfl)
        rw [← hs2] at h2
        exact Takes.bind (g := fun v l => (fermatOn (forceOdd v) d.rounds.toNat l).bind
            fun q => G (forceOdd v) q.1 q.2) hg h2 key
      · rw [step2, hr.2 rfl n2]
        rw [hr2, List.length_append, later_add, hs2, List.length_append, later_add]

/-- A run ends with a candidate or a failure. -/
theorem primeRun_ends {d : Desc} :
    ∀ {n st s ev t}, primeRun d n st s = some (ev, t) → (∃ c k, ev = .found c k) ∨ (∃ k, ev = .fail k)
  | 0, _, _, _, _, h => by cases h
  | n+1, st, s, ev, t, h => by
    rw [primeRun] at h
    split at h
    · exact primeRun_ends h
    · split at h <;> cases h; exact .inl ⟨_, _, rfl⟩
    · split at h <;> cases h; exact .inr ⟨_, rfl⟩

/-- The machine with GENPRIME at a stage. -/
def atPrime (r : Running) (st : PrimeStage) (s : State) :
    State := { s with run := some { r with progress := .prime st } }
/-- The machine with GENPQR at a stage of a round. -/
def atPqr (r : Running) (outer total : Nat) (st : PqrStage) (s : State) :
    State := { s with run := some { r with progress := .pqr outer total st } }

theorem fermatAfter_run (num k passed : Nat) (s : State) (x : Option Running) :
    fermatVerdict num k passed { s with run := x } = fermatVerdict num k passed s ∧
    fermatAfter num k passed { s with run := x } = { fermatAfter num k passed s with run := x } := by
  refine ⟨rfl, ?_⟩
  unfold fermatAfter; split <;> rfl

theorem primeEvent_run (d : Desc) (st : PrimeStage) (s : State) (x : Option Running) :
    primeEvent d st { s with run := x } = primeEvent d st s := by
  cases st <;> rfl
theorem primeAfter_run (d : Desc) (st : PrimeStage) (s : State) (x : Option Running) :
    primeAfter d st { s with run := x } = { primeAfter d st s with run := x } := by
  cases st with
  | attempt cnt => simp only [primeAfter]; split <;> rfl
  | length => rfl
  | testing _ c p => exact (fermatAfter_run _ _ _ _ _).2

/-- GENPRIME's engine steps are those of gen_prime(). -/
theorem runSteps_genprime {r : Running} (hr : r.abortReq = false) (rd : Reg) :
    ∀ {n st s ev t} m, primeRun r.snap.desc n st s = some (ev, t) →
    runSteps abortAttempts (genprimeRule rd) (n+m) (atPrime r st s) =
      match ev with
      | .found c k => finishAttempts .ok k (setBig rd c t)
      | .fail k => finishAttempts .genFail k t
      | .goOn _ => t
  | 0, _, _, _, _, _, h => by cases h
  | n+1, st, s, ev, t, m, h => by
    rw [show n + 1 + m = (n+m)+1 by omega, runSteps_succ (r := { r with progress := .prime st }) rfl]
    simp only [engineStep, hr, genprimeRule, Bool.false_eq_true, if_false]
    simp only [atPrime, primeEvent_run, primeAfter_run]
    rw [primeRun] at h
    generalize primeEvent r.snap.desc st s = e at h ⊢
    cases e <;> dsimp only at h ⊢
    · have := runSteps_genprime hr rd (r := r) m h; exact this
    · split at h <;> cases h; exact runSteps_idle rfl _
    · split at h <;> cases h; exact runSteps_idle rfl _

/-- GENPQR's engine steps inside gen_prime(). -/
theorem runSteps_pqr_prime {r : Running} (hr : r.abortReq = false) (rd ra rb : Reg) (outer total : Nat) :
    ∀ {n st s ev t} m, primeRun r.snap.desc n st s = some (ev, t) →
    runSteps abortAttempts (genpqrRule rd ra rb) (n+m) (atPqr r outer total (.prime st) s) =
      match ev with
      | .found p k => runSteps abortAttempts (genpqrRule rd ra rb) m (atPqr r outer (total+k) (.qLength p) t)
      | .fail k => finishAttempts .genFail (total+k) t
      | .goOn _ => t
  | 0, _, _, _, _, _, h => by cases h
  | n+1, st, s, ev, t, m, h => by
    rw [show n + 1 + m = (n+m)+1 by omega, runSteps_succ (r := { r with progress := .pqr outer total (.prime st) }) rfl]
    simp only [engineStep, hr, genpqrRule, pqrRule, Bool.false_eq_true, if_false]
    simp only [atPqr, primeEvent_run, primeAfter_run]
    rw [primeRun] at h
    generalize primeEvent r.snap.desc st s = e at h ⊢
    cases e <;> dsimp only at h ⊢
    · have := runSteps_pqr_prime hr rd ra rb outer total (r := r) m h; exact this
    · split at h <;> cases h; subst n; rw [Nat.zero_add]; rfl
    · split at h <;> cases h; exact runSteps_idle rfl _

/-- One engine step of GENPQR. -/
theorem runSteps_atPqr {r : Running} (hr : r.abortReq = false)
    (rd ra rb : Reg) (o t : Nat) (st : PqrStage) (s : State) (m : Nat) :
    runSteps abortAttempts (genpqrRule rd ra rb) (m+1) (atPqr r o t st s) =
      runSteps abortAttempts (genpqrRule rd ra rb) m (pqrRule rd ra rb r.snap.desc o t st (atPqr r o t st s)) := by
  rw [runSteps_succ (r := { r with progress := .pqr o t st }) rfl]
  simp only [engineStep, hr, genpqrRule, Bool.false_eq_true, if_false]

theorem pqrRule_qLength (r : Running) (rd ra rb : Reg) (o t p : Nat) (s : State) :
    pqrRule rd ra rb r.snap.desc o t (.qLength p) (atPqr r o t (.qLength p) s) =
      atPqr r o t (.qValue p (lengthDraw r.snap.desc s)) (afterDraw s) := rfl
theorem pqrRule_qValue (r : Running) (rd ra rb : Reg) (o t p l : Nat) (s : State) :
    pqrRule rd ra rb r.snap.desc o t (.qValue p l) (atPqr r o t (.qValue p l) s) =
      atPqr r o t (.rLength p (valueDraw l s)) (afterDraw s) := rfl
theorem pqrRule_rLength (r : Running) (rd ra rb : Reg) (o t p q : Nat) (s : State) :
    pqrRule rd ra rb r.snap.desc o t (.rLength p q) (atPqr r o t (.rLength p q) s) =
      atPqr r o t (.rValue p q (lengthDraw r.snap.desc s)) (afterDraw s) := rfl
theorem pqrRule_rValue (r : Running) (rd ra rb : Reg) (o t p q l : Nat) (s : State) :
    pqrRule rd ra rb r.snap.desc o t (.rValue p q l) (atPqr r o t (.rValue p q l) s) =
      atPqr r o t (.judge p q (valueDraw l s)) (afterDraw s) := rfl
theorem pqrRule_judge (r : Running) (rd ra rb : Reg) (o t p q w : Nat) (s : State) :
    pqrRule rd ra rb r.snap.desc o t (.judge p q w) (atPqr r o t (.judge p q w) s) =
      if p < q * w then finishAttempts .ok t (setBig rb w (setBig ra q (setBig rd p s))) else atPqr r o t .round s := rfl

theorem later_four (s : State) :
    later 4 s = afterDraw (afterDraw (afterDraw (afterDraw s))) := by simp [later_succ, later_zero]
theorem later_two (s : State) : later 2 s = (afterDraw (afterDraw s)) := by simp [later_succ, later_zero]

/-- The last five steps of a round of GENPQR. -/
theorem runSteps_afterPrime {r : Running} (hr : r.abortReq = false)
    (rd ra rb : Reg) (outer total p q w : Nat) (s : State) (m : Nat)
    (hq : q = valueDraw (lengthDraw r.snap.desc s) (afterDraw s))
    (hw : w = valueDraw (lengthDraw r.snap.desc (later 2 s)) (afterDraw (later 2 s))) :
    runSteps abortAttempts (genpqrRule rd ra rb) (5+m) (atPqr r outer total (.qLength p) s) =
      if p < q * w then finishAttempts .ok total (setBig rb w (setBig ra q (setBig rd p (later 4 s))))
      else runSteps abortAttempts (genpqrRule rd ra rb) m (atPqr r outer total .round (later 4 s)) := by
  rw [show 5 + m = m+1+1+1+1+1 by omega]
  rw [runSteps_atPqr hr, pqrRule_qLength, runSteps_atPqr hr, pqrRule_qValue, ← hq, runSteps_atPqr hr, pqrRule_rLength,
      runSteps_atPqr hr, pqrRule_rValue, ← later_two, ← hw, runSteps_atPqr hr, pqrRule_judge, later_two, ← later_four]
  split
  · exact runSteps_idle rfl _
  · rfl

/-- `genPqrOn` with its result apart from the draws left over. -/
def genPqrDraws (d : Desc) (outer total : Nat) (l : List Nat) :
    Option ((Option (Nat × Nat × Nat) × Nat) × List Nat) :=
  (genPqrOn d outer total l).map fun p => ((p.1, p.2.1), p.2.2)

/-- GENPQR with `left` rounds left. -/
theorem runSteps_pqr_round {r : Running} (hr : r.abortReq = false)
    (rd ra rb : Reg) (h : 1 ≤ r.snap.desc.minbits.toNat)
    (h' : r.snap.desc.minbits.toNat ≤ r.snap.desc.maxbits.toNat) :
    ∀ left outer total s, outer + left = r.snap.desc.attemptCap.toNat →
    ∃ n ds found tot, n ≤ left * (r.snap.desc.attemptCap.toNat * (r.snap.desc.rounds.toNat + 3) + 7) + 1 ∧
      Takes (genPqrDraws r.snap.desc left total) s ds (found, tot) ∧
      ∀ m, runSteps abortAttempts (genpqrRule rd ra rb) (n+m) (atPqr r outer total .round s) =
        match found with
        | some (p, q, w) => finishAttempts .ok tot (setBig rb w (setBig ra q (setBig rd p (later ds.length s))))
        | none => finishAttempts .genFail tot (later ds.length s) := by
  intro left
  induction left with
  | zero =>
    intro outer total s hc
    refine ⟨1, [], none, total, by omega, .ret (fun l => rfl), fun m => ?_⟩
    rw [Nat.add_comm, runSteps_atPqr hr]
    simp only [pqrRule, show ¬ outer < r.snap.desc.attemptCap.toNat by omega, if_false]
    exact runSteps_idle rfl _
  | succ left ih =>
    intro outer total s hc
    let d := r.snap.desc
    let K : (Option Nat × Nat) → List Nat → Option ((Option (Nat × Nat × Nat) × Nat) × List Nat) := fun f l =>
      match f.1 with
      | none => some ((none, total + f.2), l)
      | some p => (genRandOn d l).bind fun q => (genRandOn d q.2).bind fun w =>
          if p < q.1 * w.1 then some ((some (p, q.1, w.1), total + f.2), w.2) else genPqrDraws d left (total + f.2) w.2
    have key : ∀ l, genPqrDraws d (left+1) total l = (genPrimeDraws d d.attemptCap.toNat 0 l).bind
        fun f => K f.1 f.2 := by
      intro l
      unfold genPqrDraws genPrimeDraws
      rw [genPqrOn]
      cases genPrimeOn d d.attemptCap.toNat 0 l with
      | none => rfl
      | some f =>
        obtain ⟨f, cnt, l⟩ := f
        cases f with
        | none => rfl
        | some p =>
          simp only [Option.map_some, Option.bind_some, K]
          cases genRandOn d l with
          | none => rfl
          | some q =>
            obtain ⟨q, l⟩ := q
            simp only [Option.bind_some]
            cases genRandOn d l with
            | none => rfl
            | some w =>
              simp only [Option.bind_some]
              split
              · rfl
              · rfl
    obtain ⟨n, ds, found, cnt, hn, ht, hp⟩ := primeRun_attempt d h h' d.attemptCap.toNat 0 s (by omega)
    have hn : n ≤ r.snap.desc.attemptCap.toNat * (r.snap.desc.rounds.toNat + 3) + 1 := hn
    have hstart : ∀ m, runSteps abortAttempts (genpqrRule rd ra rb) (m+1) (atPqr r outer total .round s) =
        runSteps abortAttempts (genpqrRule rd ra rb) m (atPqr r (outer+1) total (.prime (.attempt 0)) s) := by
      intro m
      rw [runSteps_atPqr hr]
      simp only [pqrRule, show outer < r.snap.desc.attemptCap.toNat by omega, if_true]
      rfl
    cases found with
    | none =>
      refine ⟨n+1, ds ++ [], none, total + cnt, (by rw [Nat.succ_mul]; omega), Takes.bind (g := K) ht (.ret
          fun l => rfl) key, fun m => ?_⟩
      rw [show n + 1 + m = (n+m)+1 by omega, hstart, runSteps_pqr_prime hr rd ra rb (outer+1) total m hp]
      simp [asEvent]
    | some p =>
      let s1 := later ds.length s
      let q := valueDraw (lengthDraw d s1) (afterDraw s1)
      let s2 := later 2 s1
      let w := valueDraw (lengthDraw d s2) (afterDraw s2)
      have hq := genRand_takes d s1 h h'
      have hw := genRand_takes d s2 h h'
      have htail := fun m => runSteps_afterPrime hr rd ra rb (outer+1) (total+cnt) p q w s1 m rfl rfl
      by_cases hlt : p < q * w
      · refine ⟨n+1+5, ds ++ ([lengthDraw d s1, q] ++ ([lengthDraw d s2, w] ++ [])), some (p, q, w), total+cnt,
          (by rw [Nat.succ_mul]; omega), ?_, fun m => ?_⟩
        · refine Takes.bind (g := K) ht ?_ key
          refine Takes.bind (g := fun q l => (genRandOn d l).bind fun w => if p < q * w.1 then some ((some (p, q, w.1),
              total + cnt), w.2) else genPqrDraws d left (total + cnt) w.2) hq ?_ (fun l => rfl)
          refine Takes.bind (g := fun w l => if p < q * w then some ((some (p, q, w), total + cnt), l)
              else genPqrDraws d left (total + cnt) l) hw ?_ (fun l => rfl)
          exact .ret fun l => if_pos hlt
        · rw [show n + 1 + 5 + m = (n+(5+m))+1 by omega, hstart,
            runSteps_pqr_prime hr rd ra rb (outer+1) total (5+m) hp]
          simp only [asEvent]
          have e : later 4 s1 = later 2 s2 := by simp only [s2, ← later_add]
          have e' : later (ds ++ ([lengthDraw d s1, q] ++ ([lengthDraw d s2, w] ++ []))).length s = later 2 s2 := by
            rw [List.length_append, List.length_append, List.append_nil, later_add, later_add]; rfl
          rw [htail m, if_pos hlt, e, e']
      · obtain ⟨n2, es, found, tot, hn2, ht2, hr2⟩ := ih (outer+1) (total+cnt) (later 2 s2) (by omega)
        refine ⟨n+1+5+n2, ds ++ ([lengthDraw d s1, q] ++ ([lengthDraw d s2, w] ++ es)), found, tot,
            (by rw [Nat.succ_mul]; omega), ?_, fun m => ?_⟩
        · refine Takes.bind (g := K) ht ?_ key
          change Takes (fun l => (genRandOn d l).bind fun q => (genRandOn d q.2).bind fun w => if p < q.1 * w.1
              then some ((some (p, q.1, w.1), total + cnt), w.2) else genPqrDraws d left (total + cnt) w.2) s1 _ _
          refine Takes.bind (g := fun q l => (genRandOn d l).bind fun w => if p < q * w.1 then some ((some (p, q, w.1),
              total + cnt), w.2) else genPqrDraws d left (total + cnt) w.2) hq ?_ (fun l => rfl)
          refine Takes.bind (g := fun w l => if p < q * w then some ((some (p, q, w), total + cnt), l)
              else genPqrDraws d left (total + cnt) l) hw ?_ (fun l => rfl)
          have : (fun l => if p < q * w then some ((some (p, q, w), total + cnt), l)
              else genPqrDraws d left (total + cnt) l) = genPqrDraws d left (total + cnt) := by
            funext l; exact if_neg hlt
          rw [this]; exact ht2
        · rw [show n + 1 + 5 + n2 + m = (n+(5+(n2+m)))+1 by omega, hstart,
            runSteps_pqr_prime hr rd ra rb (outer+1) total (5+(n2+m)) hp]
          simp only [asEvent]
          have e : later 4 s1 = later 2 s2 := by simp only [s2, ← later_add]
          have e' : later (ds ++ ([lengthDraw d s1, q] ++ ([lengthDraw d s2, w] ++ es))).length s =
              later es.length (later 2 s2) := by
            rw [List.length_append, List.length_append, List.length_append, later_add, later_add, later_add]; rfl
          rw [htail (n2+m), if_neg hlt, e, hr2 m, e']
end Sys2Proof.Machine
end

