-- ==== Sys2Proof/Laws/HostPort.lean ====
section
/-! SUPPORT. What the shared operations of the host port can do. -/

namespace Sys2Proof.Machine

/-- Issuing a word is its acceptance, or faults at an unwritten source word or at stores not performed at memory
(spec/40_system.md R130, spec/60_exceptions.md R298). -/
theorem issue_cases (w : Word) (s : State) :
    (unwrittenOperand w s = none ∧ storesPending (ownedRanges w s.desc) s = false ∧ issue w s = .next (takeCommand w s)) ∨
    (∃ k i, unwrittenOperand w s = some (k, i) ∧ issue w s = .fault (.unwrittenRead k i)) ∨
    (unwrittenOperand w s = none ∧ storesPending (ownedRanges w s.desc) s = true ∧
      issue w s = .fault (.hostDuty .performStores)) := by
  unfold issue
  cases h : unwrittenOperand w s with
  | some p => exact .inr (.inl ⟨p.1, p.2, rfl, rfl⟩)
  | none => cases hp : storesPending (ownedRanges w s.desc) s <;> simp

/-- Stores are never pending where DMA is coherent. -/
@[simp] theorem storesPending_coherent {ranges : List (Nat × Nat)} {s : State} (h : s.params.dmaCoherent = true) :
    storesPending ranges s = false := by simp [storesPending, h]

/-- Stores are pending exactly where one that is not performed lies in the buffers. -/
theorem storesPending_eq_true {ranges : List (Nat × Nat)} {s : State} :
    storesPending ranges s = true ↔ s.params.dmaCoherent = false ∧
      ∃ c ∈ s.cache, unperformed c = true ∧ inRanges ranges c.addr.toNat = true := by simp [storesPending]

/-- An invalidate leaves of a byte in its range nothing, or the record of a store that was never performed. -/
theorem dropCopy_eq_some {c e : CacheByte} (h : dropCopy c = some e) : unperformed c = true ∧ e = { c with copy := .lost } := by
  unfold dropCopy at h
  split at h <;> simp_all

/-- An invalidate keeps a store that was never performed pending (spec/20_memory.md R81). -/
theorem unperformed_dropCopy {c : CacheByte} (h : unperformed c = true) :
    ∃ e, dropCopy c = some e ∧ e.addr = c.addr ∧ unperformed e = true :=
  ⟨{ c with copy := .lost }, by simp [dropCopy, h], rfl, rfl⟩

/-- A command without buffers hands nothing over. -/
@[simp] theorem handOver_nil (c : CacheByte) : handOver [] c = c := by simp [handOver, inRanges]

/-- A copy handed over keeps its address and byte. -/
theorem handOver_data (ranges : List (Nat × Nat)) (c : CacheByte) :
    (handOver ranges c).addr = c.addr ∧ (handOver ranges c).byte = c.byte := by
  unfold handOver
  split
  · split <;> exact ⟨rfl, rfl⟩
  · exact ⟨rfl, rfl⟩

/-- A byte a command may write is one of its buffers (spec/20_memory.md R84). -/
theorem engineOwns_of_mayWrite {a : Addr} {s : State} (h : engineMayWrite a s = true) : engineOwns a s = true := by
  unfold engineMayWrite at h
  unfold engineOwns
  split at h
  · rename_i r _
    unfold writableRanges at h
    unfold ownedRanges
    split at h <;> simp_all [inRanges]
  · cases h

/-- A byte of no buffer of the running command is loaded as memory has it (spec/20_memory.md R84). -/
theorem loadByte_of_not_owned {a : Addr} {s : State} (h : engineOwns a s = false) :
    loadByte a s = memRead s.mem a.toNat ∧ afterLoad a s = s := by
  have hw : engineMayWrite a s = false := by
    cases he : engineMayWrite a s
    · rfl
    · rw [engineOwns_of_mayWrite he] at h; cases h
  simp only [loadByte, afterLoad, hw]
  split <;> exact ⟨rfl, rfl⟩

/-- A load that answers gives the host one byte, settles at most one race and changes nothing but the caches. -/
theorem hostLoad_eq_next {a : Addr} {s t : State} (h : hostLoad a s = .next t) :
    ∃ v c, t = { s with cache := c, replies := .mem v :: s.replies } ∨
      t = { afterRace s with cache := c, replies := .mem v :: s.replies } := by
  have hl : ∀ v c, ∃ c', reply (.mem v) (cachePut c (afterLoad a s)) =
      { s with cache := c', replies := .mem v :: s.replies } ∨ reply (.mem v) (cachePut c (afterLoad a s)) =
      { afterRace s with cache := c', replies := .mem v :: s.replies } := by
    intro v c
    unfold afterLoad
    split
    · exact ⟨_, .inr rfl⟩
    · exact ⟨_, .inl rfl⟩
  have hm : ∃ v c, reply (.mem (loadByte a s)) (afterLoad a s) = { s with cache := c, replies := .mem v :: s.replies } ∨
      reply (.mem (loadByte a s)) (afterLoad a s) = { afterRace s with cache := c, replies := .mem v :: s.replies } := by
    unfold afterLoad
    split
    · exact ⟨_, s.cache, .inr rfl⟩
    · exact ⟨_, s.cache, .inl rfl⟩
  unfold hostLoad at h
  split at h
  · cases h; exact hm
  · split at h
    · cases h; exact ⟨_, hl _ _⟩
    · cases h; exact ⟨_, s.cache, .inl rfl⟩
    · cases h; exact ⟨_, s.cache, .inl rfl⟩
    · split at h
      · cases h; exact ⟨_, hl _ _⟩
      · cases h
    · cases h
    · cases h; exact hm

/-- A busy-guarded write is dropped while BUSY and done while idle (spec/10_state.md R49). -/
theorem guarded_cases (act : State → Outcome) (s : State) :
    (busy s = true ∧ guarded act s = .next (dropWrite s)) ∨ (busy s = false ∧ guarded act s = act s) := by
  cases h : busy s <;> simp [guarded, h]

/-- An MMIO access reaches its register, faults or is refused (spec/20_memory.md R71, spec/10_state.md R43). -/
theorem mmioAccess_cases (addr width : Nat) (act : MmioReg → Outcome) (s : State) :
    ((addr < s.params.base ∨ s.params.base + 0x9000 ≤ addr) ∧ mmioAccess addr width act s = .refused (.outsideBlock addr)) ∨
    (s.params.base ≤ addr ∧ addr < s.params.base + 0x9000 ∧ ¬ (width = 4 ∧ (addr - s.params.base) % 4 = 0) ∧
      mmioAccess addr width act s = .fault (.unsupportedMmio (addr - s.params.base) width)) ∨
    (s.params.base ≤ addr ∧ addr < s.params.base + 0x9000 ∧ width = 4 ∧ (addr - s.params.base) % 4 = 0 ∧
      mmioAccess addr width act s = act (regAt (addr - s.params.base))) := by
  unfold mmioAccess
  split
  · exact .inl ⟨‹_›, rfl⟩
  · dsimp only
    split
    · exact .inr (.inr ⟨by omega, by omega, (‹_ ∧ _›).1, (‹_ ∧ _›).2, rfl⟩)
    · exact .inr (.inl ⟨by omega, by omega, ‹_›, rfl⟩)

/-- A host read that answers adds its reply and nothing else (spec/20_memory.md R75). -/
theorem hostRead_eq_next {reg : MmioReg} {s t : State} :
    hostRead reg s = .next t ↔ ∃ v, readReg reg s = .ok v ∧ t = reply (.mmio v) s := by
  unfold hostRead
  cases readReg reg s <;> simp [eq_comm]

end Sys2Proof.Machine
end

