-- ==== Sys2Proof/Laws/PerInstr.lean ====
section
/-! SUPPORT. The family MatchMask, one lemma per command: the word of the command passes the match and mask of its row of
spec/30_encoding.md R105. -/

namespace Sys2Proof.Laws.MatchMask

/-- The column `match` of spec/30_encoding.md R105. -/
def tableMatch : Instr → Word
  | .nop => 0x00000000
  | .clr _ => 0x00000001
  | .modexp _ _ _ _ => 0x00000010
  | .modmul _ _ _ _ => 0x00000011
  | .montmul _ _ _ _ => 0x00000012
  | .egcd _ _ _ => 0x00000018
  | .modinv _ _ _ => 0x00000019
  | .primetest _ => 0x00000020
  | .genprime _ => 0x00000028
  | .genrand _ => 0x00000029
  | .genpqr _ _ _ => 0x0000002A
  | .embed => 0x00000030
  | .extract => 0x00000031

/-- The column `mask` of spec/30_encoding.md R105. -/
def tableMask : Instr → Word
  | .nop => 0xFFFFFFFF
  | .clr _ => 0xFFFFF8FF
  | .modexp _ _ _ _ => 0xFFF000FF
  | .modmul _ _ _ _ => 0xFFF000FF
  | .montmul _ _ _ _ => 0xFFF000FF
  | .egcd _ _ _ => 0xFFFE00FF
  | .modinv _ _ _ => 0xFFFE00FF
  | .primetest _ => 0xFFFFC7FF
  | .genprime _ => 0xFFFFF8FF
  | .genrand _ => 0xFFFFF8FF
  | .genpqr _ _ _ => 0xFFFE00FF
  | .embed => 0xFFFFFFFF
  | .extract => 0xFFFFFFFF

/-- The word of the command passes its row's test. -/
def Statement (i : Instr) : Prop := encode i &&& tableMask i = tableMatch i

theorem packWord_three : ∀ opc ∈ [0x18#8, 0x19#8, 0x2A#8], ∀ rd ra rb : Reg,
    packWord opc rd ra rb 0 &&& 0xFFFE00FF = opc.zeroExtend 32 := by decide +kernel

theorem packWord_four : ∀ opc ∈ [0x10#8, 0x11#8, 0x12#8], ∀ rd ra rb rc : Reg,
    packWord opc rd ra rb rc &&& 0xFFF000FF = opc.zeroExtend 32 := by decide +kernel

theorem packWord_rd : ∀ opc ∈ [0x01#8, 0x28#8, 0x29#8], ∀ rd : Reg,
    packWord opc rd 0 0 0 &&& 0xFFFFF8FF = opc.zeroExtend 32 := by decide +kernel

theorem nop : Statement .nop := by unfold Statement; decide
theorem clr (rd : Reg) : Statement (.clr rd) := packWord_rd 0x01 (by decide) rd
theorem modexp (rd ra rb rc : Reg) : Statement (.modexp rd ra rb rc) := packWord_four 0x10 (by decide) rd ra rb rc
theorem modmul (rd ra rb rc : Reg) : Statement (.modmul rd ra rb rc) := packWord_four 0x11 (by decide) rd ra rb rc
theorem montmul (rd ra rb rc : Reg) : Statement (.montmul rd ra rb rc) := packWord_four 0x12 (by decide) rd ra rb rc
theorem egcd (rd ra rb : Reg) : Statement (.egcd rd ra rb) := packWord_three 0x18 (by decide) rd ra rb
theorem modinv (rd ra rb : Reg) : Statement (.modinv rd ra rb) := packWord_three 0x19 (by decide) rd ra rb
theorem primetest (ra : Reg) : Statement (.primetest ra) := by revert ra; unfold Statement; decide +kernel
theorem genprime (rd : Reg) : Statement (.genprime rd) := packWord_rd 0x28 (by decide) rd
theorem genrand (rd : Reg) : Statement (.genrand rd) := packWord_rd 0x29 (by decide) rd
theorem genpqr (rd ra rb : Reg) : Statement (.genpqr rd ra rb) := packWord_three 0x2A (by decide) rd ra rb
theorem embed : Statement .embed := by unfold Statement; decide
theorem extract : Statement .extract := by unfold Statement; decide

end Sys2Proof.Laws.MatchMask
end

