-- ==== Sys2Proof/Tests/Slice0.lean ====
section
/-! SUPPORT. The model's own tests: words written out from spec/30_encoding.md R101 and R105, and vectors of
spec/95_test_vectors.md, each on one step of a small state. -/

namespace Sys2Proof.Machine.Tests

/- One theorem is elaborated after another: the tests are too many small ones to be checked all at once. -/
set_option Elab.async false

/-! ## Well-formedness: a term each check refuses (spec/30_encoding.md R107) -/

theorem test_wf_rd_ra : (Instr.genpqr 1 1 2).wf = false := by decide
theorem test_wf_rd_rb : (Instr.genpqr 1 2 1).wf = false := by decide
theorem test_wf_ra_rb : (Instr.genpqr 2 1 1).wf = false := by decide
theorem test_wf_legal : (Instr.genpqr 0 1 2).wf = true := by decide

/-! ## Decoding: RSVD RC RB RA RD OPC, written out bit by bit (spec/30_encoding.md R101, R105) -/

theorem test_decode_nop : decode 0b000000000000_000_000_000_000_00000000#32 = .command .nop := by decide
theorem test_decode_clr : decode 0b000000000000_000_000_000_101_00000001#32 = .command (.clr 5) := by decide
theorem test_decode_modexp :
    decode 0b000000000000_011_010_001_000_00010000#32 = .command (.modexp 0 1 2 3) := by decide
theorem test_decode_modmul :
    decode 0b000000000000_011_001_001_000_00010001#32 = .command (.modmul 0 1 1 3) := by decide
theorem test_decode_montmul :
    decode 0b000000000000_001_010_000_011_00010010#32 = .command (.montmul 3 0 2 1) := by decide
theorem test_decode_egcd : decode 0b000000000000_000_010_001_000_00011000#32 = .command (.egcd 0 1 2) := by decide
theorem test_decode_modinv : decode 0b000000000000_000_001_000_010_00011001#32 = .command (.modinv 2 0 1) := by decide
theorem test_decode_primetest : decode 0b000000000000_000_000_001_000_00100000#32 = .command (.primetest 1) := by decide
theorem test_decode_genprime : decode 0b000000000000_000_000_000_111_00101000#32 = .command (.genprime 7) := by decide
theorem test_decode_genrand : decode 0b000000000000_000_000_000_011_00101001#32 = .command (.genrand 3) := by decide
theorem test_decode_genpqr : decode 0b000000000000_000_010_001_000_00101010#32 = .command (.genpqr 0 1 2) := by decide
theorem test_decode_embed : decode 0b000000000000_000_000_000_000_00110000#32 = .command .embed := by decide
theorem test_decode_extract : decode 0b000000000000_000_000_000_000_00110001#32 = .command .extract := by decide

/-- Vectors S3 to S6. -/
theorem test_illegal_opcode_or_reserved :
    decode 0x00000002 = .illegal .unknownOpcode ∧ decode 0x000000FF = .illegal .unknownOpcode ∧
    decode 0x00168810 = .illegal .reservedBits ∧ decode 0x80000000 = .illegal .reservedBits := by decide

/-- Vectors S7 to S12. -/
theorem test_illegal_unused_or_equal :
    decode 0x00000100 = .illegal .unusedField ∧ decode 0x00000801 = .illegal .unusedField ∧
    decode 0x00000120 = .illegal .unusedField ∧ decode 0x00004020 = .illegal .unusedField ∧
    decode 0x00000130 = .illegal .unusedField ∧ decode 0x0000892A = .illegal .equalDestinations := by decide

/-- The words of spec/95_test_vectors.md section 2.1, encoded. -/
theorem test_encode :
    encode (.modexp 0 1 2 3) = 0x00068810 ∧ encode (.modmul 0 1 1 3) = 0x00064811 ∧
    encode (.montmul 0 1 2 3) = 0x00068812 ∧ encode (.egcd 0 1 2) = 0x00008818 ∧ encode (.modinv 0 1 2) = 0x00008819 ∧
    encode (.primetest 1) = 0x00000820 ∧ encode (.genprime 0) = 0x00000028 ∧ encode (.genrand 3) = 0x00000329 ∧
    encode (.genpqr 0 1 2) = 0x0000882A := by decide

/-! ## Helpers: small states and what a step leaves -/

/-- A state from reset with the listed registers written. -/
def loaded (regs : List (Reg × Nat)) : State := regs.foldl (fun s e => setBig e.1 e.2 s) State.reset

/-- The state with a command accepted. -/
def issued (w : Nat) (s : State) : State := s.withFetchWord 32 w

/-- Sampler descriptors (MINBITS, MAXBITS, ROUNDS, ATTEMPT_CAP) and the draws to come. -/
def sampler (lo hi rounds cap : Word) (draws : List Nat) (s : State) : State :=
  { s with
    desc := { Desc.reset with minbits := lo, maxbits := hi, rounds := rounds, attemptCap := cap }
    entropy := draws }

/-- Memory holding the bytes from `a` on. -/
def stored (a : Nat) (bytes : List Byte) (m : Memory) : Memory :=
  (bytes.zipIdx.map fun b => (a + b.2, b.1)).foldl (fun m e => memWrite m e.1 e.2) m

/-- Codec descriptors at the addresses of spec/95_test_vectors.md: pixels at 0x1000, message at 0x2000. -/
def codec (height width len cap : Word) (m : Memory) (s : State) : State :=
  { s with
    desc := { Desc.reset with
      pixBase := 0x1000, pixHeight := height, pixWidth := width, msgBase := 0x2000, msgLen := len, msgCap := cap }
    mem := m }

/-- The bytes from `a` on. -/
def bytesAt (a n : Nat) (s : State) : List Byte := (List.range n).map fun k => memRead s.mem (a + k)

/-- What is read off the next state; none on a fault or a refusal. -/
def seen {α : Type} (f : State → α) : Outcome → Option α
  | .next t => some (f t)
  | _ => none

/-- The fault a step ends in. -/
def faultOf : Outcome → Option Fault
  | .fault f => some f
  | _ => none

/-- STATUS and the value of one big register. -/
def statusAnd (k : Reg) (t : State) : Word × Nat := (statusWord t, bigValue t.bigs[k])

/-! ## One command each (spec/95_test_vectors.md) -/

/-- S1. -/
theorem test_nop : seen statusWord (step (issued 0x00000000 State.reset)) = some 0x002 := by decide +kernel
/-- S2, over a register that held a value. -/
theorem test_clr : seen (statusAnd 5) (step (issued 0x00000501 (loaded [(5, 77)]))) = some (0x002, 0) := by
  decide +kernel
/-- W1. -/
theorem test_modexp : seen (statusAnd 0) (step (issued 0x00068810 (loaded [(1, 4), (2, 13), (3, 497)]))) =
    some (0x002, 445) := by decide +kernel
/-- M10: the destination is the base. -/
theorem test_modexp_same : seen (statusAnd 1) (step (issued 0x00068910 (loaded [(1, 2), (2, 10), (3, 1000)]))) =
    some (0x002, 24) := by decide +kernel
/-- M13: full-width factors. -/
theorem test_modmul : seen (statusAnd 0)
    (step (issued 0x00068811 (loaded [(1, 2 ^ 64 - 1), (2, 2 ^ 64 - 1), (3, 2 ^ 64 - 59)]))) = some (0x002, 3364) := by
  decide +kernel
/-- M12. -/
theorem test_modmul_zero : seen (statusAnd 0) (step (issued 0x00068811 (loaded [(1, 7), (2, 9), (3, 0)]))) =
    some (0x092, 0) := by decide +kernel
/-- M15. -/
theorem test_montmul : seen (statusAnd 0) (step (issued 0x00068812 (loaded [(1, 5), (2, 7), (3, 13)]))) =
    some (0x002, 3) := by decide +kernel
/-- M17. -/
theorem test_montmul_even : seen statusWord (step (issued 0x00068812 (loaded [(1, 5), (2, 7), (3, 12)]))) =
    some 0x0A2 := by decide +kernel
/-- M29. -/
theorem test_egcd_negative : seen (statusAnd 0) (step (issued 0x00008818 (loaded [(1, 240), (2, 46)]))) =
    some (0x202, 9) := by decide +kernel
/-- M32. -/
theorem test_egcd_wide : seen (statusAnd 0) (step (issued 0x00008818 (loaded [(1, 2 ^ 64 - 1), (2, 2 ^ 63)]))) =
    some (0x202, 1) := by decide +kernel
/-- M34. -/
theorem test_modinv : seen (statusAnd 0) (step (issued 0x00008819 (loaded [(1, 17), (2, 3120)]))) =
    some (0x002, 2753) := by decide +kernel
/-- M42: a modulus of 1 has no inverse. -/
theorem test_modinv_one : seen statusWord (step (issued 0x00008819 (loaded [(1, 5), (2, 1)]))) = some 0x022 := by
  decide +kernel
/-- T13: two liars, then a witness. -/
theorem test_primetest_witness :
    seen statusWord (step (issued 0x00000820 (sampler 1 1 3 1 [4, 11, 2] (loaded [(1, 15)])))) = some 0x002 := by
  decide +kernel
/-- T8: a liar. -/
theorem test_primetest_liar :
    seen statusWord (step (issued 0x00000820 (sampler 1 1 1 1 [2] (loaded [(1, 561)])))) = some 0x102 := by
  decide +kernel
/-- G2. -/
theorem test_genprime :
    seen (fun t => (statusAnd 0 t, t.attempts))
      (step (issued 0x00000028 (sampler 4 5 2 65536 [4, 8, 2, 5, 20, 2, 5, 22, 3, 7] State.reset))) =
    some ((0x002, 23), 3) := by decide +kernel
/-- G6: no candidate passes. -/
theorem test_genprime_fails :
    seen (fun t => (statusWord t, t.attempts))
      (step (issued 0x00000028 (sampler 1 1 100 3 [1, 1, 1, 1, 1, 1] State.reset))) = some (0x012, 3) := by
  decide +kernel
/-- G13: an even value is kept. -/
theorem test_genrand :
    seen (statusAnd 3) (step (issued 0x00000329 (sampler 2 4 100 65536 [3, 6] State.reset))) = some (0x002, 6) := by
  decide +kernel
/-- G15. -/
theorem test_genrand_config :
    seen statusWord (step (issued 0x00000329 (sampler 3 2 100 65536 [] State.reset))) = some 0x0B2 := by decide +kernel
/-- G17: one rejected round. -/
theorem test_genpqr :
    seen (fun t => (statusAnd 0 t, bigValue t.bigs[1], bigValue t.bigs[2], t.attempts))
      (step (issued 0x0000882A (sampler 2 4 1 65536 [4, 12, 5, 2, 2, 2, 3, 3, 4, 2, 4, 8, 2, 3] State.reset))) =
    some ((0x002, 5), 8, 3, 2) := by decide +kernel
/-- G18. -/
theorem test_genpqr_rejects :
    seen (fun t => (statusWord t, t.attempts))
      (step (issued 0x0000882A (sampler 2 4 1 1 [4, 12, 5, 2, 2, 2, 3] State.reset))) = some (0x012, 1) := by
  decide +kernel

/-- The 2x3 pixel buffer of spec/95_test_vectors.md section 2.5. -/
def p18 : List Byte := [0x10, 0x21, 0x32, 0x43, 0x54, 0x65, 0x76, 0x87, 0x98, 0xA9, 0xBA, 0xCB, 0xDC, 0xED, 0xFE,
  0x0F, 0x00, 0x11]

/-- The pixels of vector E5. -/
def e5 : List Byte := [0x10, 0x21, 0x32, 0x42, 0x55, 0x64, 0x76, 0x86, 0x98, 0xA8, 0xBB, 0xCB, 0xDC, 0xED, 0xFE,
  0x0E, 0x01, 0x11]

/-- E5. -/
theorem test_embed :
    seen (fun t => (bytesAt 0x1000 18 t, t.outLen, statusWord t))
      (step (issued 0x00000030 (codec 2 3 2 0 (stored 0x2000 [0x48, 0x69] (stored 0x1000 p18 [])) State.reset))) =
    some (e5, 2, 0x002) := by decide +kernel
/-- E2: DECREMENT wraps 0 to 255. -/
theorem test_embed_decrement :
    seen (bytesAt 0x1000 9)
      (step (issued 0x00000030
        { codec 1 3 1 0 (stored 0x2000 [0x41] []) State.reset with embedMode := .decrement })) =
    some [0x00, 0xFF, 0x00, 0x00, 0x00, 0x00, 0x00, 0xFF, 0xFF] := by decide +kernel
/-- X3: the capacity is exactly the message's length. -/
theorem test_extract :
    seen (fun t => (bytesAt 0x2000 3 t, t.outLen, statusWord t))
      (step (issued 0x00000031 (codec 2 3 0 2 (stored 0x1000 e5 []) State.reset))) =
    some ([0x48, 0x69, 0x00], 2, 0x002) := by decide +kernel
/-- X4. -/
theorem test_extract_overflow :
    seen (fun t => (bytesAt 0x2000 2 t, t.outLen, statusWord t))
      (step (issued 0x00000031 (codec 2 3 0 1 (stored 0x1000 e5 []) State.reset))) =
    some ([0x48, 0x00], 1, 0x0E2) := by decide +kernel
/-- E14: a bus error at the read of slot 10. -/
theorem test_embed_bus_error :
    seen (fun t => (bytesAt 0x1000 18 t, t.outLen, statusWord t))
      (step (issued 0x00000030
        { codec 2 3 2 0 (stored 0x2000 [0x48, 0x69] []) State.reset with
          params := ⟨0, 0, [(0x100A, 1)], true⟩ })) =
    some ([0, 1, 0, 0, 1, 0, 0, 0, 0, 0, 0, 0, 0, 0, 0, 0, 0, 0], 1, 0x072) := by decide +kernel

/-- X12: a bus error at the write of byte 1. -/
theorem test_extract_bus_error :
    seen (fun t => (bytesAt 0x2000 2 t, t.outLen, statusWord t))
      (step (issued 0x00000031
        { codec 2 3 0 2 (stored 0x1000 e5 []) State.reset with params := ⟨0, 0, [(0x2001, 1)], true⟩ })) =
    some ([0x48, 0x00], 1, 0x072) := by decide +kernel

/-! ## The host port -/

/-- The machine with one host move due. -/
def due (m : HostMove) (s : State) : State := { s with inbox := [⟨.after 0, m⟩] }

/-- S3: an illegal word completes with ILLEGAL_CMD. -/
theorem test_illegal_word : seen statusWord (step (issued 0x00000002 State.reset)) = some 0x082 := by decide +kernel
/-- S15. -/
theorem test_busy_guard :
    seen (fun t => (statusWord t, t.desc.minbits))
      (step (due (.mmioWrite 0x014 4 4) (issued 0x00000028 State.reset))) = some (0x005, 1024) := by decide +kernel
/-- S20: the abort won the race, then lost it. -/
theorem test_abort :
    seen statusWord (step { issued 0x00000028 (sampler 1 1 100 3 [9] State.reset) with
      run := (issued 0x00000028 (sampler 1 1 100 3 [9] State.reset)).run.map fun r => { r with abortReq := true }
      races := [true] }) = some 0x0F2 ∧
    seen statusWord (step { issued 0x00000000 State.reset with
      run := (issued 0x00000000 State.reset).run.map fun r => { r with abortReq := true }
      races := [false] }) = some 0x002 := by decide +kernel
/-- S23. -/
theorem test_unwritten_read : faultOf (step (due (.mmioRead 0x1000 4) State.reset)) = some (.unwrittenRead 0 0) := by
  decide +kernel
/-- R298: a command whose source is unwritten faults at its acceptance. -/
theorem test_unwritten_source :
    faultOf (step (due (.mmioWrite 0x010 4 0x00068810) (loaded [(1, 4), (2, 13)]))) = some (.unwrittenRead 3 0) := by
  decide +kernel
/-- S24. -/
theorem test_id_param :
    seen State.replies (step (due (.mmioRead 0x000 4) State.reset)) = some [.mmio 0x424D5231] ∧
    seen State.replies (step (due (.mmioRead 0x004 4) State.reset)) = some [.mmio 0x02080002] := by decide +kernel
/-- R71. -/
theorem test_narrow_access :
    faultOf (step (due (.mmioRead 0x00C 1) State.reset)) = some (.unsupportedMmio 0x00C 1) ∧
    faultOf (step (due (.mmioRead 0x00E 4) State.reset)) = some (.unsupportedMmio 0x00E 4) := by decide +kernel
/-- The host moves after four engine steps of EMBED (the checks, the message byte, slot 0 read and written): slot 1 is as it was. -/
theorem test_interleaving :
    seen (fun t => (busy t, bytesAt 0x1000 2 t, t.inbox))
      (step { issued 0x00000030 (codec 1 3 1 0 (stored 0x1000 [0xFF, 0x02] (stored 0x2000 [0x41] [])) State.reset) with
        inbox := [⟨.after 4, .senseIrq⟩] }) =
    some (true, [0xFE, 0x02], [⟨.after 0, .senseIrq⟩]) := by decide +kernel
/-- The host moves after EXTRACT's last access of E1's buffer, its 9 reads and one write, each after the test that allows it: the
byte is written and BUSY is still 1 (spec/40_system.md R131). -/
theorem test_finish_apart :
    seen (fun t => (busy t, bytesAt 0x2000 1 t))
      (step { issued 0x00000031 (codec 1 3 0 4 (stored 0x1000 [0, 1, 0, 0, 0, 0, 0, 1, 1] []) State.reset) with
        inbox := [⟨.after 12, .senseIrq⟩] }) = some (true, [0x41]) := by decide +kernel
/-- A dirty byte in the host's cache reaches memory only when it is cleaned (spec/20_memory.md R88). -/
theorem test_cache :
    seen (fun t => (memRead t.mem 0x2000, t.cache))
      (step (due (.memStore 0x2000 0x41) { State.reset with params := ⟨0, 0, [], false⟩ })) =
      some (0, [⟨0x2000, 0x41, .dirty⟩]) ∧
    seen (fun t => (memRead t.mem 0x2000, t.cache))
      (step (due (.cacheClean 0x2000 1)
        { State.reset with params := ⟨0, 0, [], false⟩, cache := [⟨0x2000, 0x41, .dirty⟩] })) =
      some (0x41, [⟨0x2000, 0x41, .clean⟩]) := by decide +kernel
/-- A host without coherent DMA whose cache holds one byte of the message, about to write CMD. -/
def hoarder (c : CopyState) : State :=
  { codec 1 3 1 0 [] State.reset with params := ⟨0, 0, [], false⟩, cache := [⟨0x2000, 0x41, c⟩] }
/-- The duties of spec/60_exceptions.md R306: a buffer is cleaned before the CMD write, and a copy older than the completion is not
read. -/
theorem test_cache_duties :
    faultOf (step (due (.mmioWrite 0x010 4 0x30) (hoarder .dirty))) = some (.hostDuty .performStores) ∧
    seen (fun t => t.cache) (step (due (.cacheInvalidate 0x2000 1) (hoarder .dirty))) = some [⟨0x2000, 0x41, .lost⟩] ∧
    seen (fun t => t.cache) (step (due (.cacheInvalidate 0x2000 1) (hoarder .clean))) = some [] ∧
    faultOf (step (due (.mmioWrite 0x010 4 0x30) (hoarder .lost))) = some (.hostDuty .performStores) ∧
    seen (fun t => t.cache) (step (due (.mmioWrite 0x010 4 0x30) (hoarder .clean))) = some [⟨0x2000, 0x41, .handed⟩] ∧
    faultOf (step (due (.memLoad 0x2000) (hoarder .handed))) = some (.hostDuty .invalidateCopies) := by decide +kernel
/-- A running EMBED has written 0xFE over 0xFF at 0x1000, and an earlier load has cached 0xFE: the next load may still give 0xFF
(spec/20_memory.md R84). -/
theorem test_old_value_after_new :
    seen (fun t => t.replies) (step (due (.memLoad 0x1000)
      { issued 0x30 (codec 1 3 1 0 (stored 0x1000 [0xFF] []) State.reset) with
        params := ⟨0, 0, [], false⟩, mem := stored 0x1000 [0xFE] [], cache := [⟨0x1000, 0xFE, .handed⟩], races := [true] })) =
    some [.mem 0xFF] := by decide +kernel
/-- P5: acknowledging lowers irq and keeps ERR (IrqFollowsDone: a STATUS write with bit 1 set). -/
theorem test_acknowledge :
    seen (fun t => (irq t, statusWord t))
      (step (due (.mmioWrite 0x00C 4 2) { State.reset with ie := true, done := true, err := .invNotFound })) =
    some (false, 0x020) := by decide +kernel

/-! ## Witnesses: concrete states and operands that meet the hypotheses of the statements -/

/-- The running command of `issued w s`. -/
def acceptedRun (w : Nat) (s : State) : Running := ⟨tableWord 32 w, ⟨s.bigs, s.desc, s.embedMode⟩, .fresh, false, s.mem⟩

/-- The same, asked to abort. -/
def aborting (w : Nat) (won : Bool) (s : State) : State :=
  { issued w s with run := some { acceptedRun w s with abortReq := true }, races := [won] }

theorem witness_undisturbed (w : Nat) {s : State} (h : s.inbox = []) : (issued w s).Undisturbed (acceptedRun w s) :=
  ⟨rfl, rfl, rfl, by simp only [issued, State.withFetchWord, takeCommand_inbox, h]; rfl⟩

theorem witness_engineToMove (w : Nat) {s : State} (h : s.inbox = []) : (issued w s).EngineToMove (acceptedRun w s) :=
  ⟨rfl, rfl, by simp only [issued, State.withFetchWord, takeCommand_inbox, h]; exact Nat.two_pow_pos 100⟩

theorem witness_sized (w : Nat) (regs : List (Reg × Nat)) (h : bigsSized State.reset.params (loaded regs).bigs) :
    bigsSized State.reset.params (acceptedRun w (loaded regs)).snap.bigs := h

/-- DecodeEncodeRoundTrip, EncodeDecodeRoundTrip. -/
theorem witness_round_trip : (Instr.genpqr 7 0 3).wf = true ∧ decode 0xC72A = .command (.genpqr 7 0 3) := by
  decide
/-- StepRunsDecodedCommand: both clauses. -/
theorem witness_step : (issued 0x31 State.reset).run = some (acceptedRun 0x31 State.reset) ∧
    0 < engineTurns (issued 0x31 State.reset).inbox ∧ decode (acceptedRun 0x31 State.reset).word = .command .extract ∧
    decodeTableWord 32 0x31 = some .extract := by decide +kernel
/-- StepServesHostMove: idle, due, and nothing waiting. -/
theorem witness_host_move : (due .senseIrq State.reset).inbox = [⟨.after 0, .senseIrq⟩] ∧
    (due .senseIrq State.reset).run = none ∧ State.reset.run = none ∧ State.reset.inbox = [] := by decide +kernel
/-- IllegalWordCompletes: both clauses. -/
theorem witness_illegal : decode 0x0000892A = .illegal .equalDestinations ∧ State.reset.run = none ∧
    (issued 0x892A State.reset).run = some (acceptedRun 0x892A State.reset) ∧
    decode (acceptedRun 0x892A State.reset).word = .illegal .equalDestinations ∧
    0 < engineTurns (issued 0x892A State.reset).inbox := by decide +kernel
/-- ResetMeetsInvariant, and the premise of StepKeepsInvariant: the invariant holds, at reset and while a command runs. -/
theorem reset_inv : State.reset.Inv :=
  ⟨rfl, (by intro k; simp [State.reset, State.resetWith, BigFile.unwritten]), (by intro r h; cases h),
    (by simp [State.reset, State.resetWith, ErrCode.raised])⟩
theorem witness_inv : (issued 0x30 State.reset).Inv ∧
    step (issued 0x30 State.reset) = .next (runCommand abortOutLen embedRule (issued 0x30 State.reset)) :=
  ⟨⟨reset_inv.1, reset_inv.2, (by rintro r h; cases h; exact reset_inv.2), reset_inv.4⟩, rfl⟩
/-- OnlyCodecAndHostWriteMemory: a command and a host move that meet the clauses' premises. -/
theorem witness_memory : exec .nop (issued 0 State.reset) = .next (runCommand abortPlain nopRule (issued 0 State.reset)) ∧
    hostMove (.memStore 0 1) State.reset = .next { State.reset with mem := [(0, 1)] } ∧
    ([(0, 1)] : Memory) ≠ State.reset.mem := ⟨rfl, rfl, by decide⟩
/-- CmdWriteAccepted: a word with sources, all written; the same word while BUSY. -/
theorem witness_cmd_write :
    (∀ k ∈ sources (.egcd 0 1 2), ∀ x ∈ (loaded [(1, 3), (2, 7)]).bigs[k], x.written = true) ∧
    decode 0x00008818 = .command (.egcd 0 1 2) ∧ (loaded [(1, 3), (2, 7)]).run = none ∧
    (issued 0x8818 (loaded [(1, 3), (2, 7)])).run.isSome = true ∧
    (hoarder .clean).params.dmaCoherent = false ∧ (∀ c ∈ (hoarder .clean).cache, c.copy ≠ .dirty ∧ c.copy ≠ .lost) := by decide +kernel
/-- UnwrittenSourceFaults. -/
theorem witness_unwritten : State.reset.run = none ∧ decode 0x00000820 = .command (.primetest 1) ∧
    (1 : Reg) ∈ sources (.primetest 1) ∧ (⟨0, false⟩ : BigWord) ∈ State.reset.bigs[(1 : Reg)] := by decide +kernel
/-- BusyGuardDropsWrites: busy, with the highest word of a register; and a register that reads. -/
theorem witness_busy : busy (issued 0x00 State.reset) = true ∧ 1 < State.reset.params.opwWords ∧
    readReg .id State.reset = .ok 0x424D5231 := ⟨rfl, by decide, rfl⟩
/-- BigWordWriteThenRead, BigWordReadOrFault, OffsetsNameRegisters: the highest word, the first past it, the last of a window, a
written and an unwritten word. -/
theorem witness_big_word : State.reset.run = none ∧ State.reset.Inv ∧ 1 < State.reset.params.opwWords ∧
    (State.reset.params.opwWords ≤ 2 ∧ 2 < 1024) ∧ (State.reset.params.opwWords ≤ 1023 ∧ 1023 < 1024) ∧ State.reset.bigs[(7 : Reg)][1]? = some ⟨0, false⟩ ∧
    (loaded [(7, 5)]).bigs[(7 : Reg)][0]? = some ⟨5, true⟩ ∧ (issued 0 State.reset).run = some (acceptedRun 0 State.reset) :=
  ⟨rfl, reset_inv, by decide, by decide, by decide, rfl, rfl, rfl⟩
/-- DescriptorWriteThenRead: idle; the first and the last descriptor differ. -/
theorem witness_descriptor : State.reset.run = none ∧ DescReg.msgCap ≠ .minbits := ⟨rfl, by decide⟩
/-- OnlyAlignedWordAccess: the last bytes of the block, the first beyond it, and one below BASE. -/
theorem witness_access :
    (State.reset.params.base ≤ 0x8FFE ∧ 0x8FFE < State.reset.params.base + 0x9000 ∧ (0x8FFE - State.reset.params.base) % 4 ≠ 0) ∧
    State.reset.params.base + 0x9000 ≤ 0x9000 ∧ (0xFFF < (State.resetWith ⟨0, 1, [], true⟩).params.base) := by decide
/-- ReadsHaveNoSideEffect. -/
theorem witness_read : hostMove (.mmioRead 0x00C 4) State.reset =
    .next { State.reset with replies := [.mmio (statusWord State.reset)] } := rfl
/-- CtrlWriteAndSample: idle and running. -/
theorem witness_ctrl : State.reset.run = none ∧ (issued 0 State.reset).run = some (acceptedRun 0 State.reset) := ⟨rfl, rfl⟩
/-- ReservedOffsetsReadZero: the first and the last reserved offset. -/
theorem witness_reserved : (0x044 ≤ 0x044 ∧ 0x044 ≤ 0xFFC ∧ 0x044 % 4 = 0) ∧ (0x044 ≤ 0xFFC ∧ 0xFFC ≤ 0xFFC ∧ 0xFFC % 4 = 0) := by
  decide
/-- HostStoreReachesMemory: coherent and not; idle, and the first byte past a running command's pixels; a dirty and a clean copy. -/
theorem witness_store : outsideBuffers 0x2000 State.reset ∧ outsideBuffers 0x1009 (issued 0x30 (codec 1 3 1 0 [] State.reset)) ∧
    State.reset.mem.wf = true ∧ State.reset.params.dmaCoherent = true ∧ (hoarder .dirty).params.dmaCoherent = false ∧
    cached 0x2000 (hoarder .dirty) = some ⟨0x2000, 0x41, .dirty⟩ ∧ cached 0x2000 (hoarder .clean) = some ⟨0x2000, 0x41, .clean⟩ :=
  ⟨fun r h => (by cases h), fun r h => (by cases h; decide), rfl, rfl, rfl, rfl, rfl⟩
/-- HostDutiesAreKept: the last pixel, the last message byte of EMBED, the last of EXTRACT's destination; a store to a
buffer's byte that waits in the caches, and one dropped from them; a store before an invalidate; a copy older than the completion. -/
theorem witness_duties :
    (0x1000 ≤ 0x1008 ∧ 0x1008 < 0x1000 + slotCount (codec 1 3 2 4 [] State.reset).desc) ∧
    (0x2000 ≤ 0x2001 ∧ 0x2001 < 0x2000 + (codec 1 3 2 4 [] State.reset).desc.msgLen.toNat) ∧
    (0x2000 ≤ 0x2003 ∧ 0x2003 < 0x2000 + (codec 1 3 2 4 [] State.reset).desc.msgCap.toNat) ∧
    decode (acceptedRun 0x30 State.reset).word = .command .embed ∧
    decode (acceptedRun 0x31 State.reset).word = .command .extract ∧
    inRanges (ownedRanges 0x30 (hoarder .dirty).desc) 0x2000 = true ∧ (hoarder .dirty).cache = [⟨0x2000, 0x41, .dirty⟩] ∧
    (hoarder .lost).cache = [⟨0x2000, 0x41, .lost⟩] ∧
    seen (fun t => t.cache) (hostMove (.memStore 0x2000 0x41) (hoarder .clean)) = some [⟨0x2000, 0x41, .dirty⟩] ∧
    cached 0x2000 (takeCommand 0x30 (hoarder .clean)) = some ⟨0x2000, 0x41, .handed⟩ ∧
    cached 0x2000 (takeCommand 0x30 (hoarder .handed)) = some ⟨0x2000, 0x41, .stale⟩ := by decide +kernel
/-- HostLoadRaces: a byte the running EMBED may write and one it may not, with each outcome of the race; a copy handed to it, none,
and the record of a lost store. -/
theorem witness_load : engineMayWrite 0x1008 (aborting 0x30 true (codec 1 3 1 0 [] State.reset)) = true ∧
    engineMayWrite 0x1009 (aborting 0x30 true (codec 1 3 1 0 [] State.reset)) = false ∧
    (aborting 0x30 true (codec 1 3 1 0 [] State.reset)).races.head? = some true ∧
    (aborting 0x30 false (codec 1 3 1 0 [] State.reset)).races.head? = some false ∧
    (aborting 0x30 true (codec 1 3 1 0 [] State.reset)).params.dmaCoherent = true ∧
    cached 0x2000 (issued 0x30 (hoarder .clean)) = some ⟨0x2000, 0x41, .handed⟩ ∧
    engineOwns 0x2000 (issued 0x30 (hoarder .clean)) = true ∧ cached 0x1000 (issued 0x30 (hoarder .clean)) = none ∧
    cached 0x2000 (issued 0x30 (hoarder .lost)) = some ⟨0x2000, 0x41, .lost⟩ := by
  decide +kernel

/-- The registers of the arithmetic witnesses have the build's width. -/
theorem loaded_sized (a b c : Nat) : bigsSized State.reset.params (loaded [(1, a), (2, b), (3, c)]).bigs :=
  bigsSized_setBig (s := loaded [(1, a), (2, b)]) (bigsSized_setBig (s := loaded [(1, a)])
    (bigsSized_setBig (s := State.reset) reset_inv.2))

/-- NopCompletes, ClrCompletes. -/
theorem witness_one_step : (issued 0x501 State.reset).EngineToMove (acceptedRun 0x501 State.reset) := witness_engineToMove _ rfl
/-- ModexpResult, ModmulResult: the modulus 1. -/
theorem witness_modulus : (issued 0x68810 (loaded [(1, 0), (2, 0), (3, 1)])).EngineToMove
      (acceptedRun 0x68810 (loaded [(1, 0), (2, 0), (3, 1)])) ∧
    bigsSized State.reset.params (acceptedRun 0x68810 (loaded [(1, 0), (2, 0), (3, 1)])).snap.bigs ∧
    operand 3 (acceptedRun 0x68810 (loaded [(1, 0), (2, 0), (3, 1)])) ≠ 0 :=
  ⟨witness_engineToMove _ rfl, loaded_sized 0 0 1, by decide +kernel⟩
/-- MontmulResult, ZeroModulusReported: the moduli 1, 2 and 0. -/
theorem witness_montmul : (issued 0x68812 (loaded [(1, 5), (2, 7), (3, 1)])).EngineToMove
      (acceptedRun 0x68812 (loaded [(1, 5), (2, 7), (3, 1)])) ∧
    bigsSized State.reset.params (acceptedRun 0x68812 (loaded [(1, 5), (2, 7), (3, 1)])).snap.bigs ∧
    operand 3 (acceptedRun 0x68812 (loaded [(1, 5), (2, 7), (3, 1)])) % 2 = 1 ∧
    (operand 3 (acceptedRun 0x68812 (loaded [(1, 5), (2, 7), (3, 2)])) % 2 = 0 ∧
      operand 3 (acceptedRun 0x68812 (loaded [(1, 5), (2, 7), (3, 2)])) ≠ 0) ∧
    operand 3 (acceptedRun 0x68812 (loaded [(1, 5), (2, 7), (3, 0)])) = 0 :=
  ⟨witness_engineToMove _ rfl, loaded_sized 5 7 1, by decide +kernel, by decide +kernel, by decide +kernel⟩
/-- EgcdResult, ModinvResult: coprime with m = 2, m = 1, and not coprime. -/
theorem witness_modinv : (issued 0x8819 (loaded [(1, 1), (2, 2), (3, 0)])).EngineToMove
      (acceptedRun 0x8819 (loaded [(1, 1), (2, 2), (3, 0)])) ∧
    bigsSized State.reset.params (acceptedRun 0x8819 (loaded [(1, 1), (2, 2), (3, 0)])).snap.bigs ∧
    Nat.gcd (operand 1 (acceptedRun 0x8819 (loaded [(1, 1), (2, 2)]))) (operand 2 (acceptedRun 0x8819 (loaded [(1, 1), (2, 2)]))) = 1 ∧
    operand 2 (acceptedRun 0x8819 (loaded [(1, 5), (2, 1)])) = 1 ∧
    Nat.gcd (operand 1 (acceptedRun 0x8819 (loaded [(1, 0), (2, 7)]))) (operand 2 (acceptedRun 0x8819 (loaded [(1, 0), (2, 7)]))) ≠ 1 :=
  ⟨witness_engineToMove _ rfl, loaded_sized 1 2 0, by decide +kernel, by decide +kernel, by decide +kernel⟩
/-- EgcdFollowsRecurrence: the last turn and one before it. -/
theorem witness_egcd_turns : (0 < 1 ∧ 5 % 0 < 6) ∧ (3 < 4 ∧ 7 % 3 < 2) := by decide
/-- PrimetestCompletes: 1, 2, 3, 4, 17 and 18, with ROUNDS 0 and 1. -/
theorem witness_primetest : (issued 0x820 (sampler 1 1 1 1 [] (loaded [(1, 17)]))).Undisturbed
      (acceptedRun 0x820 (sampler 1 1 1 1 [] (loaded [(1, 17)]))) ∧
    operand 1 (acceptedRun 0x820 (loaded [(1, 1)])) ≤ 1 ∧ operand 1 (acceptedRun 0x820 (loaded [(1, 2)])) = 2 ∧
    operand 1 (acceptedRun 0x820 (loaded [(1, 3)])) = 3 ∧ operand 1 (acceptedRun 0x820 (loaded [(1, 4)])) = 4 ∧
    operand 1 (acceptedRun 0x820 (loaded [(1, 18)])) = 18 ∧ operand 1 (acceptedRun 0x820 (loaded [(1, 17)])) = 17 ∧
    (acceptedRun 0x820 (sampler 1 1 0 1 [] (loaded [(1, 2)]))).snap.desc.rounds = 0 ∧
    (acceptedRun 0x820 (sampler 1 1 1 1 [] (loaded [(1, 18)]))).snap.desc.rounds ≠ 0 :=
  ⟨witness_undisturbed _ rfl, by decide +kernel, by decide +kernel, by decide +kernel, by decide +kernel, by decide +kernel,
    by decide +kernel, by decide +kernel, by decide +kernel⟩
/-- PrimetestFollowsDraws: the draws 4, 11, 2 of vector T13; and the least number, 4, with its one draw. -/
theorem witness_draws : (issued 0x820 (sampler 1 1 3 1 [4, 11, 2] (loaded [(1, 15)]))).Undisturbed
      (acceptedRun 0x820 (sampler 1 1 3 1 [4, 11, 2] (loaded [(1, 15)]))) ∧
    4 ≤ operand 1 (acceptedRun 0x820 (sampler 1 1 3 1 [4, 11, 2] (loaded [(1, 15)]))) ∧
    [4, 11, 2].length = (acceptedRun 0x820 (sampler 1 1 3 1 [4, 11, 2] (loaded [(1, 15)]))).snap.desc.rounds.toNat ∧
    (∀ a ∈ [4, 11, 2], 2 ≤ a ∧ a ≤ operand 1 (acceptedRun 0x820 (loaded [(1, 15)])) - 2) ∧
    (∀ a ∈ [2], 2 ≤ a ∧ a ≤ operand 1 (acceptedRun 0x820 (loaded [(1, 4)])) - 2) :=
  ⟨witness_undisturbed _ rfl, by decide +kernel, by decide +kernel, by decide +kernel, by decide +kernel⟩
/-- IllegalConfigReported: MINBITS 0, MINBITS above MAXBITS, MAXBITS just above OPW. -/
theorem witness_config : (issued 0x28 (sampler 0 4 1 1 [] State.reset)).EngineToMove
      (acceptedRun 0x28 (sampler 0 4 1 1 [] State.reset)) ∧
    configLegal State.reset.params.opw (sampler 0 4 1 1 [] State.reset).desc = false ∧
    configLegal State.reset.params.opw (sampler 5 4 1 1 [] State.reset).desc = false ∧
    configLegal State.reset.params.opw (sampler 4 65 1 1 [] State.reset).desc = false :=
  ⟨witness_engineToMove _ rfl, by decide +kernel, by decide +kernel, by decide +kernel⟩
/-- GenrandResult, GenprimeResult: MAXBITS equal to OPW; draws at both ends of their ranges. -/
theorem witness_sampler : (issued 0x29 (sampler 1 64 1 1 [64, 2 ^ 63] State.reset)).Undisturbed
      (acceptedRun 0x29 (sampler 1 64 1 1 [64, 2 ^ 63] State.reset)) ∧
    configLegal State.reset.params.opw (sampler 1 64 1 1 [64, 2 ^ 63] State.reset).desc = true ∧
    2 ^ (64 - 1) ≤ 2 ^ 63 ∧ 2 ^ 63 < 2 ^ 64 := ⟨witness_undisturbed _ rfl, by decide +kernel, by decide, by decide⟩
/-- GenprimeResult, GenpqrResult: waiting draws their pseudocode accepts, with what it gives (vectors G2 and G17). -/
theorem witness_waiting_draws :
    genPrimeOn (sampler 4 5 2 65536 [] State.reset).desc 65536 0 [4, 8, 2, 5, 20, 2, 5, 22, 3, 7, 1] = some (some 23, 3, [1]) ∧
    genPqrOn (sampler 2 4 1 65536 [] State.reset).desc 65536 0 [4, 12, 5, 2, 2, 2, 3, 3, 4, 2, 4, 8, 2, 3] =
      some (some (5, 8, 3), 2, []) := by decide +kernel
/-- GenprimeCorners: each corner's descriptors. -/
theorem witness_corners :
    configLegal 64 (sampler 4 4 1 0 [] State.reset).desc = true ∧ (sampler 4 4 1 0 [] State.reset).desc.attemptCap = 0 ∧
    configLegal 64 (sampler 1 1 1 3 [] State.reset).desc = true ∧ (sampler 1 1 1 3 [] State.reset).desc.maxbits = 1 ∧
    configLegal 64 (sampler 2 2 1 1 [] State.reset).desc = true ∧ (sampler 2 2 1 1 [] State.reset).desc.minbits = 2 ∧
    configLegal 64 (sampler 2 64 0 1 [] State.reset).desc = true ∧ (sampler 2 64 0 1 [] State.reset).desc.rounds = 0 := by
  decide +kernel
/-- GenpqrResult: distinct destinations; the least range that never rejects; no budget. -/
theorem witness_genpqr : (issued 0x882A (sampler 2 2 100 1 [] State.reset)).Undisturbed
      (acceptedRun 0x882A (sampler 2 2 100 1 [] State.reset)) ∧
    configLegal State.reset.params.opw (sampler 2 2 100 1 [] State.reset).desc = true ∧ (Instr.genpqr 0 1 2).wf = true ∧
    configLegal State.reset.params.opw (sampler 3 3 0 1 [] State.reset).desc = true ∧
    configLegal State.reset.params.opw (sampler 2 2 100 0 [] State.reset).desc = true :=
  ⟨witness_undisturbed _ rfl, by decide +kernel, by decide, by decide +kernel, by decide +kernel⟩

/-- Codec descriptors with the pixels at `pix` and the message at `msg`. -/
def buffers (pix msg : Word) (height width len cap : Word) : Desc :=
  { Desc.reset with
    pixBase := pix, pixHeight := height, pixWidth := width, msgBase := msg, msgLen := len, msgCap := cap }

/-- CodecChecksBeforeAccess: one byte past the top, each buffer; buffers that share one byte; one byte too many. The buffers that
just fit pass. -/
theorem witness_checks :
    (issued 0x30 State.reset).EngineToMove (acceptedRun 0x30 State.reset) ∧
    (buffers 0xFFFFFFF8 0 1 3 1 1).pixBase.toNat + slotCount (buffers 0xFFFFFFF8 0 1 3 1 1) = 2 ^ 32 + 1 ∧
    (buffers 0 0xFFFFFFFF 1 3 2 2).msgBase.toNat + 2 = 2 ^ 32 + 1 ∧
    (outOfRange (buffers 0x1000 0x1008 1 3 1 1) 1 = false ∧ buffersOverlap (buffers 0x1000 0x1008 1 3 1 1) 1 = true) ∧
    (outOfRange (buffers 0x1000 0x1009 1 3 2 1) 2 = false ∧ buffersOverlap (buffers 0x1000 0x1009 1 3 2 1) 2 = false ∧
      9 * 2 > slotCount (buffers 0x1000 0x1009 1 3 2 1)) ∧
    (outOfRange (buffers 0xFFFFFFF7 0xFFFFFFF6 1 3 1 1) 1 = false ∧ buffersOverlap (buffers 0xFFFFFFF7 0xFFFFFFF6 1 3 1 1) 1 = false) :=
  ⟨witness_engineToMove _ rfl, by decide +kernel, by decide +kernel, by decide +kernel, by decide +kernel, by decide +kernel⟩

/-- Where nothing is refused, every buffer is admitted. -/
theorem admits_all (d : Desc) (slots n : Nat) : admitsBuffers State.reset.params d slots n := ⟨fun _ _ => rfl, fun _ _ => rfl⟩

/-- EmbedResult, ExtractInvertsEmbed: the exactly full buffer with two bytes, whose EMBED and EXTRACT both end with OK. -/
theorem witness_embed : (issued 0x30 (codec 2 3 2 2 (stored 0x2000 [0x48, 0x69] []) State.reset)).Undisturbed
      (acceptedRun 0x30 (codec 2 3 2 2 (stored 0x2000 [0x48, 0x69] []) State.reset)) ∧
    (stored 0x2000 [0x48, 0x69] []).wf = true ∧ outOfRange (codec 2 3 2 2 [] State.reset).desc 2 = false ∧
    buffersOverlap (codec 2 3 2 2 [] State.reset).desc 2 = false ∧ 9 * 2 = slotCount (codec 2 3 2 2 [] State.reset).desc ∧
    admitsBuffers State.reset.params (codec 2 3 2 2 [] State.reset).desc 18 2 ∧
    seen (·.err) (exec .embed (issued 0x30 (codec 2 3 2 2 (stored 0x2000 [0x48, 0x69] []) State.reset))) = some .ok ∧
    (issued 0x31 (codec 2 3 2 2 (stored 0x1000 e5 []) State.reset)).Undisturbed
      (acceptedRun 0x31 (codec 2 3 2 2 (stored 0x1000 e5 []) State.reset)) ∧ (stored 0x1000 e5 []).wf = true :=
  ⟨witness_undisturbed _ rfl, by decide +kernel, by decide +kernel, by decide +kernel, by decide +kernel, admits_all _ _ _,
    by decide +kernel, witness_undisturbed _ rfl, by decide +kernel⟩
/-- EmbedBusError: a refused message byte, a refused first slot and a refused marker slot. -/
theorem witness_bus_error :
    memAdmits ⟨0, 0, [(0x2001, 1)], true⟩ (msgAddr (codec 2 3 2 0 [] State.reset).desc 1) = false ∧
    (memAdmits ⟨0, 0, [(0x1000, 1)], true⟩ (msgAddr (codec 2 3 2 0 [] State.reset).desc 0) = true ∧
      memAdmits ⟨0, 0, [(0x1000, 1)], true⟩ (slotAddr (codec 2 3 2 0 [] State.reset).desc (9 * 0 + 0)) = false) ∧
    memAdmits ⟨0, 0, [(0x1011, 1)], true⟩ (slotAddr (codec 2 3 2 0 [] State.reset).desc (9 * 1 + 8)) = false ∧
    (∀ k, k < 9 * 1 + 8 → memAdmits ⟨0, 0, [(0x1011, 1)], true⟩ (slotAddr (codec 2 3 2 0 [] State.reset).desc k) = true) ∧
    (∀ j, j < 1 → memAdmits ⟨0, 0, [(0x2001, 1)], true⟩ (msgAddr (codec 2 3 2 0 [] State.reset).desc j) = true) := by
  decide +kernel
/-- ExtractResult: stopped by a marker before the end, run to the end, and no group at all; ExtractDestinationOverflow: no room
for the first byte. -/
theorem witness_extract :
    (1 ≤ groupCount (codec 2 3 0 1 [] State.reset).desc ∧ slotBit (codec 2 3 0 1 [] State.reset).desc (stored 0x1000 [0, 0, 0, 0, 0, 0, 0, 0, 1] []) (1 - 1) 8 = true) ∧
    (2 = groupCount (codec 2 3 0 2 [] State.reset).desc ∧ slotBit (codec 2 3 0 2 [] State.reset).desc (stored 0x1000 e5 []) 0 8 = false) ∧
    0 = groupCount (codec 1 2 0 0 [] State.reset).desc ∧
    (codec 1 3 0 0 [] State.reset).desc.msgCap.toNat < groupCount (codec 1 3 0 0 [] State.reset).desc ∧
    (stored 0x1000 [0, 0, 0, 0, 0, 0, 0, 0, 1] []).wf = true := by decide +kernel
/-- ExtractBusError: a refused first slot, a refused marker slot and a refused destination. -/
theorem witness_extract_bus_error :
    memAdmits ⟨0, 0, [(0x1000, 1)], true⟩ (slotAddr (codec 2 3 0 2 [] State.reset).desc (9 * 0 + 0)) = false ∧
    memAdmits ⟨0, 0, [(0x1011, 1)], true⟩ (slotAddr (codec 2 3 0 2 [] State.reset).desc (9 * 1 + 8)) = false ∧
    (∀ k, k < 9 * 1 + 8 → memAdmits ⟨0, 0, [(0x1011, 1)], true⟩ (slotAddr (codec 2 3 0 2 [] State.reset).desc k) = true) ∧
    (1 < groupCount (codec 2 3 0 2 [] State.reset).desc ∧ 1 < (codec 2 3 0 2 [] State.reset).desc.msgCap.toNat) ∧
    (∀ k, k < 9 * 2 → memAdmits ⟨0, 0, [(0x2001, 1)], true⟩ (slotAddr (codec 2 3 0 2 [] State.reset).desc k) = true) ∧
    memAdmits ⟨0, 0, [(0x2001, 1)], true⟩ (msgAddr (codec 2 3 0 2 [] State.reset).desc 1) = false ∧
    slotBit (codec 2 3 0 2 [] State.reset).desc (stored 0x1000 e5 []) 0 8 = false := by decide +kernel
/-- CodecWritesOnlyItsBuffer: a stage inside each command's access sequence, and a host move that leaves the command running. -/
theorem witness_stages :
    embedStage { acceptedRun 0x30 (codec 1 3 1 0 [] State.reset) with progress := .embedWrite 0 8 0x41 0 } ∧
    extractStage { acceptedRun 0x31 (codec 1 3 0 1 [] State.reset) with progress := .extractDone 1 } ∧
    hostMove (.mmioWrite 0x008 4 4) (issued 0x30 State.reset) = .next (requestAbort (issued 0x30 State.reset)) :=
  ⟨⟨⟨by decide +kernel, by decide +kernel⟩, by decide +kernel, by decide, by decide⟩,
    ⟨⟨by decide +kernel, by decide +kernel⟩, by decide⟩, rfl⟩
/-- CodecWritesOnlyItsBuffer, CommandFrame, ErrorWritesNoResult, CodesEachCommandReports: a running command whose turn ends with
an error. -/
theorem witness_error : (issued 0x30 (codec 1 3 2 0 [] State.reset)).run = some (acceptedRun 0x30 (codec 1 3 2 0 [] State.reset)) ∧
    seen (fun t => (t.err, t.run.isNone)) (exec .embed (issued 0x30 (codec 1 3 2 0 [] State.reset))) = some (.capacity, true) := by
  decide +kernel
/-- CommitOnlyAtCompletion: a turn that ends while the command still runs. -/
theorem witness_commit : seen (fun t => t.run.isSome)
    (exec .embed { issued 0x30 (codec 1 3 1 0 [] State.reset) with inbox := [⟨.after 2, .senseIrq⟩] }) = some true := by
  decide +kernel
/-- EveryCommandTerminates. -/
theorem witness_terminates : (issued 0x882A State.reset).run = some (acceptedRun 0x882A State.reset) ∧
    engineTurns (issued 0x882A State.reset).inbox = Config.maxEngineSteps := ⟨rfl, rfl⟩
/-- AbortOutcomes: the race won and lost; one step granted. -/
theorem witness_abort :
    ((aborting 0x30 true State.reset).run = some { acceptedRun 0x30 State.reset with abortReq := true } ∧
      0 < engineTurns (aborting 0x30 true State.reset).inbox ∧ (aborting 0x30 true State.reset).races.head? = some true) ∧
    (aborting 0x00 false State.reset).races.head? = some false ∧
    engineTurns { aborting 0x30 false State.reset with inbox := [⟨.after 1, .senseIrq⟩] }.inbox = 1 := by decide +kernel

end Sys2Proof.Machine.Tests
end

section
/-! The shape of every command's turn, what no command changes, and who may write memory
(spec/10_state.md R48, spec/20_memory.md R70). -/

namespace Sys2Proof.Machine

/-! ## A command's turn is the shared turn on its rule -/

/-- What a command does when it is aborted (spec/40_system.md R136). -/
def commandAbort : Instr → State → State
  | .genprime _ | .genpqr _ _ _ => abortAttempts
  | .embed | .extract => abortOutLen
  | _ => abortPlain

/-- The rule a command performs step by step (spec/40_system.md R131). -/
def commandRule : Instr → Running → State → State
  | .nop => nopRule
  | .clr rd => clrRule rd
  | .modexp rd ra rb rc => modexpRule rd ra rb rc
  | .modmul rd ra rb rc => modmulRule rd ra rb rc
  | .montmul rd ra rb rc => montmulRule rd ra rb rc
  | .egcd rd ra rb => egcdRule rd ra rb
  | .modinv rd ra rb => modinvRule rd ra rb
  | .primetest ra => primetestRule ra
  | .genprime rd => genprimeRule rd
  | .genrand rd => genrandRule rd
  | .genpqr rd ra rb => genpqrRule rd ra rb
  | .embed => embedRule
  | .extract => extractRule

/-- The meaning of every command is the engine's turn on its rule, and never stops. -/
theorem exec_eq_runCommand (i : Instr) (s : State) :
    exec i s = .next (runCommand (commandAbort i) (commandRule i) s) := by
  cases i <;> rfl

/-- What a command's rule, its abort, a settled race and the arrival of a waiting move all keep, its meaning keeps. -/
theorem exec_induct {P : State → Prop} {i : Instr} {s t : State} (h : exec i s = .next t)
    (harrive : ∀ u, P u → P (startTurn u)) (hrace : ∀ u, P u → P (afterRace u))
    (habort : ∀ u, P u → P (commandAbort i u)) (hrule : ∀ r u, u.run = some r → P u → P (commandRule i r u))
    (hs : P s) : P t := by
  rw [exec_eq_runCommand] at h
  cases h
  exact runCommand_induct P harrive (engineStep_keeps P habort hrace hrule) hs

/-! ## What no command changes -/

theorem sameSetting.refl (s : State) : sameSetting s s := ⟨rfl, rfl, rfl, rfl, rfl, rfl, rfl⟩

theorem sameSetting.trans {s t u : State} (h : sameSetting s t) (h' : sameSetting t u) : sameSetting s u := by
  obtain ⟨h1, h2, h3, h4, h5, h6, h7⟩ := h
  obtain ⟨g1, g2, g3, g4, g5, g6, g7⟩ := h'
  exact ⟨g1.trans h1, g2.trans h2, g3.trans h3, g4.trans h4, g5.trans h5, g6.trans h6, g7.trans h7⟩

theorem dmaWrite_sameSetting {a : Addr} {v : Byte} {s t : State} (h : dmaWrite a v s = some t) : sameSetting s t := by
  obtain ⟨-, rfl⟩ := dmaWrite_eq_some.1 h
  exact sameSetting.refl s

theorem commandAbort_frame (i : Instr) (s : State) :
    sameSetting s (commandAbort i s) ∧ (commandAbort i s).mem = s.mem := by
  cases i <;> exact ⟨sameSetting.refl s, rfl⟩

theorem fermatAfter_frame (num k passed : Nat) (s : State) :
    sameSetting s (fermatAfter num k passed s) ∧ (fermatAfter num k passed s).mem = s.mem := by
  rcases fermatAfter_cases num k passed s with ⟨_, e⟩ | ⟨_, e⟩ <;> rw [e] <;> exact ⟨sameSetting.refl s, rfl⟩

theorem primeAfter_frame (d : Desc) (st : PrimeStage) (s : State) :
    sameSetting s (primeAfter d st s) ∧ (primeAfter d st s).mem = s.mem := by
  rcases primeAfter_cases d st s with e | e <;> rw [e] <;> exact ⟨sameSetting.refl s, rfl⟩

theorem primetestRule_frame (ra : Reg) (r : Running) (s : State) :
    sameSetting s (primetestRule ra r s) ∧ (primetestRule ra r s).mem = s.mem := by
  unfold primetestRule
  dsimp only
  split <;> exact fermatAfter_frame _ _ _ s

theorem genprimeRule_frame (rd : Reg) (r : Running) (s : State) :
    sameSetting s (genprimeRule rd r s) ∧ (genprimeRule rd r s).mem = s.mem := by
  unfold genprimeRule
  dsimp only
  split
  · split <;> exact primeAfter_frame _ _ s
  · split <;> exact ⟨sameSetting.refl s, rfl⟩

theorem genrandRule_frame (rd : Reg) (r : Running) (s : State) :
    sameSetting s (genrandRule rd r s) ∧ (genrandRule rd r s).mem = s.mem := by
  unfold genrandRule
  dsimp only
  split
  · exact ⟨sameSetting.refl s, rfl⟩
  · exact ⟨sameSetting.refl s, rfl⟩
  · split <;> exact ⟨sameSetting.refl s, rfl⟩

theorem pqrRule_frame (rd ra rb : Reg) (d : Desc) (outer total : Nat) (st : PqrStage) (s : State) :
    sameSetting s (pqrRule rd ra rb d outer total st s) ∧ (pqrRule rd ra rb d outer total st s).mem = s.mem := by
  cases st with
  | round => unfold pqrRule; dsimp only; split <;> exact ⟨sameSetting.refl s, rfl⟩
  | prime ps => unfold pqrRule; dsimp only; split <;> exact primeAfter_frame d ps s
  | judge p q r => unfold pqrRule; dsimp only; split <;> exact ⟨sameSetting.refl s, rfl⟩
  | qLength | qValue | rLength | rValue => exact ⟨sameSetting.refl s, rfl⟩

theorem genpqrRule_frame (rd ra rb : Reg) (r : Running) (s : State) :
    sameSetting s (genpqrRule rd ra rb r s) ∧ (genpqrRule rd ra rb r s).mem = s.mem := by
  unfold genpqrRule
  dsimp only
  split
  · exact pqrRule_frame _ _ _ _ _ _ _ s
  · split <;> exact ⟨sameSetting.refl s, rfl⟩

theorem montmulRule_frame (rd ra rb rc : Reg) (r : Running) (s : State) :
    sameSetting s (montmulRule rd ra rb rc r s) ∧ (montmulRule rd ra rb rc r s).mem = s.mem := by
  unfold montmulRule
  dsimp only
  split
  · exact ⟨sameSetting.refl s, rfl⟩
  · split <;> exact ⟨sameSetting.refl s, rfl⟩

theorem modinvRule_frame (rd ra rb : Reg) (r : Running) (s : State) :
    sameSetting s (modinvRule rd ra rb r s) ∧ (modinvRule rd ra rb r s).mem = s.mem := by
  unfold modinvRule
  dsimp only
  split
  · exact ⟨sameSetting.refl s, rfl⟩
  · split <;> exact ⟨sameSetting.refl s, rfl⟩

/-- Memory is no setting: EMBED's writes leave what no command changes. -/
theorem embedRule_sameSetting (r : Running) (s : State) : sameSetting s (embedRule r s) := by
  unfold embedRule
  dsimp only
  split
  case h_1 =>
    split
    · split <;> exact sameSetting.refl s
    · exact sameSetting.refl s
  case h_2 => split <;> exact sameSetting.refl s
  case h_3 =>
    split
    next t ht => exact (dmaWrite_sameSetting ht).trans (sameSetting.refl t)
    next => exact sameSetting.refl s
  case h_4 =>
    iterate 3 (split; · exact sameSetting.refl s)
    exact sameSetting.refl s

/-- Memory is no setting: EXTRACT's writes leave what no command changes. -/
theorem extractRule_sameSetting (r : Running) (s : State) : sameSetting s (extractRule r s) := by
  unfold extractRule
  dsimp only
  split
  case h_1 => split <;> exact sameSetting.refl s
  case h_2 => split <;> exact sameSetting.refl s
  case h_3 =>
    split
    · exact sameSetting.refl s
    · split
      next t ht => exact (dmaWrite_sameSetting ht).trans (sameSetting.refl t)
      next => exact sameSetting.refl s
  case h_4 => exact sameSetting.refl s
  case h_5 =>
    iterate 2 (split; · exact sameSetting.refl s)
    exact sameSetting.refl s

/-- No engine step of a command but EMBED and EXTRACT changes a setting or memory. -/
theorem commandRule_frame {i : Instr} (he : i ≠ .embed) (hx : i ≠ .extract) (r : Running) (s : State) :
    sameSetting s (commandRule i r s) ∧ (commandRule i r s).mem = s.mem := by
  cases i with
  | nop | clr | egcd => exact ⟨sameSetting.refl s, rfl⟩
  | modexp => dsimp only [commandRule, modexpRule]; split <;> exact ⟨sameSetting.refl s, rfl⟩
  | modmul => dsimp only [commandRule, modmulRule]; split <;> exact ⟨sameSetting.refl s, rfl⟩
  | montmul => exact montmulRule_frame _ _ _ _ r s
  | modinv => exact modinvRule_frame _ _ _ r s
  | primetest => exact primetestRule_frame _ r s
  | genprime => exact genprimeRule_frame _ r s
  | genrand => exact genrandRule_frame _ r s
  | genpqr => exact genpqrRule_frame _ _ _ r s
  | embed => exact absurd rfl he
  | extract => exact absurd rfl hx

theorem commandRule_sameSetting (i : Instr) (r : Running) (s : State) : sameSetting s (commandRule i r s) := by
  by_cases he : i = .embed
  · subst he; exact embedRule_sameSetting r s
  · by_cases hx : i = .extract
    · subst hx; exact extractRule_sameSetting r s
    · exact (commandRule_frame he hx r s).1

/-- No command's turn changes a setting, the OPEN parameters among them (spec/00_scope.md R6). -/
theorem exec_sameSetting {i : Instr} {s t : State} (h : exec i s = .next t) : sameSetting s t :=
  exec_induct h (fun _ hu => hu) (fun _ hu => hu) (fun u hu => hu.trans (commandAbort_frame i u).1)
    (fun r u _ hu => hu.trans (commandRule_sameSetting i r u)) (sameSetting.refl s)

/-- Of all commands only EMBED and EXTRACT write memory (spec/20_memory.md R70). -/
theorem exec_mem {i : Instr} {s t : State} (he : i ≠ .embed) (hx : i ≠ .extract) (h : exec i s = .next t) :
    t.mem = s.mem :=
  exec_induct (P := fun u => u.mem = s.mem) h (fun _ hu => hu) (fun _ hu => hu)
    (fun u hu => (commandAbort_frame i u).2.trans hu)
    (fun r u _ hu => (commandRule_frame he hx r u).2.trans hu) rfl

/-! ## What no host move changes, and which of them write memory -/

/-- An MMIO access that answers is answered by a register. -/
theorem mmioAccess_eq_next {addr width : Nat} {act : MmioReg → Outcome} {s t : State}
    (h : mmioAccess addr width act s = .next t) : ∃ reg, act reg = .next t := by
  rcases mmioAccess_cases addr width act s with ⟨_, e⟩ | ⟨_, _, _, e⟩ | ⟨_, _, _, _, e⟩ <;> rw [e] at h
  · cases h
  · cases h
  · exact ⟨_, h⟩

/-- A busy-guarded write that answers is dropped or done (spec/10_state.md R49). -/
theorem guarded_eq_next {act : State → Outcome} {s t : State} (h : guarded act s = .next t) :
    t = dropWrite s ∨ act s = .next t := by
  rcases guarded_cases act s with ⟨_, e⟩ | ⟨_, e⟩ <;> rw [e] at h
  · cases h; exact .inl rfl
  · exact .inr h

/-- A word issued without a fault is accepted (spec/40_system.md R130). -/
theorem issue_eq_next {w : Word} {s t : State} (h : issue w s = .next t) : t = takeCommand w s := by
  rcases issue_cases w s with ⟨_, _, e⟩ | ⟨_, _, _, e⟩ | ⟨_, _, e⟩ <;> rw [e] at h <;> cases h
  rfl

/-- A register write changes neither the OPEN parameters nor memory. -/
theorem writeReg_params_mem {reg : MmioReg} {v : Word} {s t : State} (h : writeReg reg v s = .next t) :
    t.params = s.params ∧ t.mem = s.mem := by
  cases reg with
  | id | param | status | attempts | outLen | reserved => cases h; exact ⟨rfl, rfl⟩
  | ctrl =>
    cases h
    unfold writeCtrl
    dsimp only
    split <;> exact ⟨rfl, rfl⟩
  | cmd =>
    rw [writeReg] at h
    obtain rfl | h := guarded_eq_next h
    · exact ⟨rfl, rfl⟩
    · obtain rfl := issue_eq_next h
      exact ⟨rfl, rfl⟩
  | desc d =>
    rw [writeReg] at h
    obtain rfl | h := guarded_eq_next h
    · exact ⟨rfl, rfl⟩
    · cases h
      exact ⟨rfl, rfl⟩
  | bigWord k i =>
    rw [writeReg] at h
    split at h
    · obtain rfl | h := guarded_eq_next h
      · exact ⟨rfl, rfl⟩
      · cases h
        exact ⟨rfl, rfl⟩
    · cases h
      exact ⟨rfl, rfl⟩

/-- A load changes neither the OPEN parameters nor memory. -/
theorem hostLoad_params_mem {a : Addr} {s t : State} (h : hostLoad a s = .next t) :
    t.params = s.params ∧ t.mem = s.mem := by
  obtain ⟨v, c, rfl | rfl⟩ := hostLoad_eq_next h <;> exact ⟨rfl, rfl⟩

theorem hostStore_params {a : Addr} {v : Byte} {s t : State} (h : hostStore a v s = .next t) :
    t.params = s.params := by
  unfold hostStore at h
  split at h
  · cases h
  · split at h <;> cases h <;> rfl

theorem hostClean_params {a : Addr} {n : Nat} {s t : State} (h : hostClean a n s = .next t) :
    t.params = s.params := by
  unfold hostClean at h
  split at h <;> cases h
  rfl

/-- A host move keeps the OPEN parameters, and memory too unless it is a store or a cache clean
(spec/20_memory.md R81, R88, spec/70_reset_and_hazards.md R332). -/
theorem hostMove_params_mem {m : HostMove} {s t : State} (h : hostMove m s = .next t) :
    t.params = s.params ∧ (t.mem = s.mem ∨ (∃ a v, m = .memStore a v) ∨ (∃ a n, m = .cacheClean a n)) := by
  cases m with
  | mmioWrite addr width v =>
    rw [hostMove] at h
    obtain ⟨reg, h⟩ := mmioAccess_eq_next h
    exact (writeReg_params_mem h).imp_right .inl
  | mmioRead addr width =>
    rw [hostMove] at h
    obtain ⟨reg, h⟩ := mmioAccess_eq_next h
    obtain ⟨v, -, rfl⟩ := hostRead_eq_next.1 h
    exact ⟨rfl, .inl rfl⟩
  | memStore a v => exact ⟨hostStore_params h, .inr (.inl ⟨a, v, rfl⟩)⟩
  | memLoad a => exact (hostLoad_params_mem h).imp_right .inl
  | cacheClean a n => exact ⟨hostClean_params h, .inr (.inr ⟨a, n, rfl⟩)⟩
  | cacheInvalidate | senseIrq | reset => cases h; exact ⟨rfl, .inl rfl⟩

/-! ## The step -/

theorem hostStep_params {s t : State} (h : hostStep s = .next t) : t.params = s.params := by
  unfold hostStep at h
  split at h
  · cases h; rfl
  · exact (hostMove_params_mem h).1

theorem engineTurn_params {r : Running} {s t : State} (h : engineTurn r s = .next t) : t.params = s.params := by
  unfold engineTurn at h
  split at h
  · exact (exec_sameSetting h).1
  · cases h; rfl

/-- No step changes the OPEN parameters (spec/00_scope.md R6). -/
theorem step_params {s t : State} (h : step s = .next t) : t.params = s.params := by
  unfold step at h
  split at h
  · exact hostStep_params h
  · split at h
    · exact hostStep_params h
    · exact engineTurn_params h

/-- Settles O12: the parameters by the frame of each host move and each engine step, memory by the same frames. -/
theorem onlyCodecAndHostWriteMemory : Obligations.OnlyCodecAndHostWriteMemory := by
  unfold Obligations.OnlyCodecAndHostWriteMemory
  exact ⟨fun _ _ => step_params, fun _ _ _ => exec_mem,
    fun _ _ _ h hne => (hostMove_params_mem h).2.resolve_left hne⟩

end Sys2Proof.Machine
end

section
/-! What one engine step and one turn of each command can do to the state: the command goes on with every result as it was,
or it completes within its frame (spec/10_state.md R21, R48, spec/40_system.md R131). -/

namespace Sys2Proof.Machine

/-! ## Going on, and completing -/

/-- The command has gone on: results, lifecycle flags and snapshot are as they were, and memory is as canonical. -/
structure Continues (s t : State) : Prop where
  params : t.params = s.params
  results : sameResults s t
  err : t.err = s.err
  done : t.done = s.done
  snap : t.run.map Running.snap = s.run.map Running.snap
  mem_wf : s.mem.wf = true → t.mem.wf = true

/-- What command `i` keeps wherever it stands: the results that are not its own, and the form of what it writes
(spec/10_state.md R21, R22, R35, R42). -/
structure KeepsFrame (i : Instr) (s t : State) : Prop where
  bigs : ∀ k : Reg, k ∉ destinations i → t.bigs[k] = s.bigs[k]
  bigs_sized : bigsSized s.params s.bigs → bigsSized t.params t.bigs
  prime : (∀ ra, i ≠ .primetest ra) → t.prime = s.prime
  neg : (∀ rd ra rb, i ≠ .egcd rd ra rb) → t.neg = s.neg
  attempts : (∀ rd, i ≠ .genprime rd) → (∀ rd ra rb, i ≠ .genpqr rd ra rb) → t.attempts = s.attempts
  outLen : i ≠ .embed → i ≠ .extract → t.outLen = s.outLen
  mem_wf : s.mem.wf = true → t.mem.wf = true

/-- The command has completed within its frame, with a code that is not reserved (spec/40_system.md R131). -/
structure Completes (i : Instr) (s t : State) : Prop where
  frame : KeepsFrame i s t
  run : t.run = none
  done : t.done = true
  err_raised : t.err.raised

/-- What the engine can do to the state on behalf of command `i`. -/
def GoesOnOrCompletes (i : Instr) (s t : State) : Prop := Continues s t ∨ Completes i s t

theorem Continues.refl (s : State) : Continues s s := ⟨rfl, ⟨rfl, rfl, rfl, rfl, rfl⟩, rfl, rfl, rfl, id⟩

theorem Continues.trans {s t u : State} (h : Continues s t) (h' : Continues t u) : Continues s u := by
  obtain ⟨hb, hp, hn, ha, ho⟩ := h.results
  obtain ⟨gb, gp, gn, ga, go⟩ := h'.results
  exact ⟨h'.params.trans h.params, ⟨gb.trans hb, gp.trans hp, gn.trans hn, ga.trans ha, go.trans ho⟩,
    h'.err.trans h.err, h'.done.trans h.done, h'.snap.trans h.snap, h'.mem_wf ∘ h.mem_wf⟩

theorem KeepsFrame.refl (i : Instr) (s : State) : KeepsFrame i s s :=
  ⟨fun _ _ => rfl, id, fun _ => rfl, fun _ => rfl, fun _ _ => rfl, fun _ _ => rfl, id⟩

theorem KeepsFrame.trans {i : Instr} {s t u : State} (h : KeepsFrame i s t) (h' : KeepsFrame i t u) :
    KeepsFrame i s u where
  bigs k hk := (h'.bigs k hk).trans (h.bigs k hk)
  bigs_sized := h'.bigs_sized ∘ h.bigs_sized
  prime hi := (h'.prime hi).trans (h.prime hi)
  neg hi := (h'.neg hi).trans (h.neg hi)
  attempts hp hq := (h'.attempts hp hq).trans (h.attempts hp hq)
  outLen he hx := (h'.outLen he hx).trans (h.outLen he hx)
  mem_wf := h'.mem_wf ∘ h.mem_wf

theorem Continues.keepsFrame {s t : State} (h : Continues s t) (i : Instr) : KeepsFrame i s t := by
  obtain ⟨hb, hp, hn, ha, ho⟩ := h.results
  exact ⟨fun k _ => by rw [hb], fun hs => by rwa [h.params, hb], fun _ => hp, fun _ => hn, fun _ _ => ha,
    fun _ _ => ho, h.mem_wf⟩

theorem Continues.completes {i : Instr} {s t u : State} (h : Continues s t) (h' : Completes i t u) : Completes i s u :=
  ⟨(h.keepsFrame i).trans h'.frame, h'.run, h'.done, h'.err_raised⟩

theorem Continues.goesOnOrCompletes {i : Instr} {s t u : State} (h : Continues s t) (h' : GoesOnOrCompletes i t u) :
    GoesOnOrCompletes i s u := h'.imp h.trans h.completes

theorem GoesOnOrCompletes.keepsFrame {i : Instr} {s t : State} (h : GoesOnOrCompletes i s t) : KeepsFrame i s t :=
  h.elim (fun h => h.keepsFrame i) fun h => h.frame

/-! ## The shared operations -/

theorem setProgress_continues (p : Progress) (s : State) : Continues s (setProgress p s) :=
  ⟨rfl, ⟨rfl, rfl, rfl, rfl, rfl⟩, rfl, rfl, by cases h : s.run <;> simp [h], id⟩

theorem afterDraw_continues (s : State) : Continues s (afterDraw s) :=
  ⟨rfl, ⟨rfl, rfl, rfl, rfl, rfl⟩, rfl, rfl, rfl, id⟩

theorem afterRace_continues (s : State) : Continues s (afterRace s) :=
  ⟨rfl, ⟨rfl, rfl, rfl, rfl, rfl⟩, rfl, rfl, rfl, id⟩

theorem startTurn_continues (s : State) : Continues s (startTurn s) :=
  ⟨rfl, ⟨rfl, rfl, rfl, rfl, rfl⟩, rfl, rfl, rfl, id⟩

theorem fermatAfter_continues (num k passed : Nat) (s : State) : Continues s (fermatAfter num k passed s) := by
  rcases fermatAfter_cases num k passed s with ⟨_, e⟩ | ⟨_, e⟩ <;> rw [e]
  · exact afterDraw_continues s
  · exact Continues.refl s

theorem primeAfter_continues (d : Desc) (st : PrimeStage) (s : State) : Continues s (primeAfter d st s) := by
  rcases primeAfter_cases d st s with e | e <;> rw [e]
  · exact Continues.refl s
  · exact afterDraw_continues s

theorem dmaWrite_continues {a : Addr} {v : Byte} {s t : State} (h : dmaWrite a v s = some t) : Continues s t := by
  obtain ⟨-, rfl⟩ := dmaWrite_eq_some.1 h
  exact ⟨rfl, ⟨rfl, rfl, rfl, rfl, rfl⟩, rfl, rfl, rfl, fun hm => memWrite_wf hm a v⟩

theorem setBig_keepsFrame {i : Instr} {d : Reg} (hd : d ∈ destinations i) (v : Nat) (s : State) :
    KeepsFrame i s (setBig d v s) where
  bigs k hk := by rw [setBig_get, if_neg (by rintro rfl; exact hk hd)]
  bigs_sized := bigsSized_setBig
  prime _ := rfl
  neg _ := rfl
  attempts _ _ := rfl
  outLen _ _ := rfl
  mem_wf := id

section Finish

variable {i : Instr} {s t : State} {code : ErrCode}

/-- A completion is a finish after updates that keep the frame. -/
theorem KeepsFrame.finish (h : KeepsFrame i s t)
    (hc : code.raised := by exact ⟨nofun, nofun, nofun⟩) : Completes i s (finish code t) :=
  ⟨h.trans ⟨fun _ _ => rfl, id, fun _ => rfl, fun _ => rfl, fun _ _ => rfl, fun _ _ => rfl, id⟩, rfl, rfl, hc⟩

/-- A finish with no result is a completion of any command. -/
theorem finish_completes (hc : code.raised := by exact ⟨nofun, nofun, nofun⟩) :
    Completes i s (finish code s) := (KeepsFrame.refl i s).finish hc

/-- PRIME is a result of PRIMETEST (spec/42_primality.md R191). -/
theorem prime_keepsFrame (ra : Reg) (b : Bool) (s : State) : KeepsFrame (.primetest ra) s { s with prime := b } :=
  ⟨fun _ _ => rfl, id, fun hi => absurd rfl (hi ra), fun _ => rfl, fun _ _ => rfl, fun _ _ => rfl, id⟩

/-- NEG is a result of EGCD (spec/41_modular_arithmetic.md R156). -/
theorem neg_keepsFrame (rd ra rb : Reg) (b : Bool) (s : State) : KeepsFrame (.egcd rd ra rb) s { s with neg := b } :=
  ⟨fun _ _ => rfl, id, fun _ => rfl, fun hi => absurd rfl (hi rd ra rb), fun _ _ => rfl, fun _ _ => rfl, id⟩

/-- ATTEMPTS is a result of GENPRIME and GENPQR (spec/10_state.md R35). -/
theorem attempts_keepsFrame (hi : (∃ rd, i = .genprime rd) ∨ ∃ rd ra rb, i = .genpqr rd ra rb) (n : Word) (s : State) :
    KeepsFrame i s { s with attempts := n } := by
  refine ⟨fun _ _ => rfl, id, fun _ => rfl, fun _ => rfl, fun hp hq => ?_, fun _ _ => rfl, id⟩
  rcases hi with ⟨rd, rfl⟩ | ⟨rd, ra, rb, rfl⟩
  · exact absurd rfl (hp rd)
  · exact absurd rfl (hq rd ra rb)

/-- OUT_LEN is a result of EMBED and EXTRACT (spec/10_state.md R42). -/
theorem outLen_keepsFrame (hi : i = .embed ∨ i = .extract) (n : Word) (s : State) :
    KeepsFrame i s { s with outLen := n } :=
  ⟨fun _ _ => rfl, id, fun _ => rfl, fun _ => rfl, fun _ _ => rfl, fun he hx => (hi.elim he hx).elim, id⟩

theorem finishAttempts_completes (hi : (∃ rd, i = .genprime rd) ∨ ∃ rd ra rb, i = .genpqr rd ra rb) {n : Nat}
    (hc : code.raised := by exact ⟨nofun, nofun, nofun⟩) :
    Completes i s (finishAttempts code n s) := (attempts_keepsFrame hi _ s).finish hc

theorem finishOutLen_completes (hi : i = .embed ∨ i = .extract) {n : Nat}
    (hc : code.raised := by exact ⟨nofun, nofun, nofun⟩) :
    Completes i s (finishOutLen code n s) := (outLen_keepsFrame hi _ s).finish hc

end Finish

/-- Every abort is a completion within the command's frame (spec/40_system.md R136). -/
theorem commandAbort_completes (i : Instr) (s : State) : Completes i s (commandAbort i s) := by
  cases i with
  | genprime rd =>
    exact (afterDraw_continues s).completes (attempts_keepsFrame (.inl ⟨rd, rfl⟩) _ _).finish
  | genpqr rd ra rb =>
    exact (afterDraw_continues s).completes (attempts_keepsFrame (.inr ⟨rd, ra, rb, rfl⟩) _ _).finish
  | embed => exact (afterDraw_continues s).completes (outLen_keepsFrame (.inl rfl) _ _).finish
  | extract => exact (afterDraw_continues s).completes (outLen_keepsFrame (.inr rfl) _ _).finish
  | nop | clr | modexp | modmul | montmul | egcd | modinv | primetest | genrand => exact finish_completes

/-! ## One step of each rule -/

theorem modexpRule_completes (rd ra rb rc : Reg) (r : Running) (s : State) :
    Completes (.modexp rd ra rb rc) s (modexpRule rd ra rb rc r s) := by
  unfold modexpRule
  dsimp only
  split
  · exact finish_completes
  · exact (setBig_keepsFrame (List.mem_singleton_self rd) _ s).finish

theorem modmulRule_completes (rd ra rb rc : Reg) (r : Running) (s : State) :
    Completes (.modmul rd ra rb rc) s (modmulRule rd ra rb rc r s) := by
  unfold modmulRule
  dsimp only
  split
  · exact finish_completes
  · exact (setBig_keepsFrame (List.mem_singleton_self rd) _ s).finish

theorem montmulRule_completes (rd ra rb rc : Reg) (r : Running) (s : State) :
    Completes (.montmul rd ra rb rc) s (montmulRule rd ra rb rc r s) := by
  unfold montmulRule
  dsimp only
  split
  · exact finish_completes
  · split
    · exact finish_completes
    · exact (setBig_keepsFrame (List.mem_singleton_self rd) _ s).finish

theorem modinvRule_completes (rd ra rb : Reg) (r : Running) (s : State) :
    Completes (.modinv rd ra rb) s (modinvRule rd ra rb r s) := by
  unfold modinvRule
  dsimp only
  split
  · exact finish_completes
  · split
    · exact (setBig_keepsFrame (List.mem_singleton_self rd) _ s).finish
    · exact finish_completes

theorem egcdRule_completes (rd ra rb : Reg) (r : Running) (s : State) :
    Completes (.egcd rd ra rb) s (egcdRule rd ra rb r s) := by
  unfold egcdRule
  exact ((setBig_keepsFrame (List.mem_singleton_self rd) _ s).trans (neg_keepsFrame rd ra rb _ _)).finish

theorem primetestRule_goesOnOrCompletes (ra : Reg) (r : Running) (s : State) :
    GoesOnOrCompletes (.primetest ra) s (primetestRule ra r s) := by
  have hf := fermatAfter_continues (operand ra r) r.snap.desc.rounds.toNat (fermatRounds r.progress) s
  unfold primetestRule
  dsimp only
  split
  · exact .inr (hf.completes (prime_keepsFrame ra _ _).finish)
  · exact .inl (hf.trans (setProgress_continues _ _))

theorem genprimeRule_goesOnOrCompletes (rd : Reg) (r : Running) (s : State) :
    GoesOnOrCompletes (.genprime rd) s (genprimeRule rd r s) := by
  have hi : (∃ x, Instr.genprime rd = .genprime x) ∨ ∃ x ra rb, Instr.genprime rd = .genpqr x ra rb := .inl ⟨rd, rfl⟩
  unfold genprimeRule
  dsimp only
  split
  next st _ =>
    refine (primeAfter_continues r.snap.desc st s).goesOnOrCompletes ?_
    split
    · exact .inl (setProgress_continues _ _)
    · exact .inr ((setBig_keepsFrame (List.mem_singleton_self rd) _ _).trans (attempts_keepsFrame hi _ _)).finish
    · exact .inr (finishAttempts_completes hi)
  next =>
    split
    · exact .inl (setProgress_continues _ s)
    · exact .inr (finishAttempts_completes hi)

theorem genrandRule_goesOnOrCompletes (rd : Reg) (r : Running) (s : State) :
    GoesOnOrCompletes (.genrand rd) s (genrandRule rd r s) := by
  unfold genrandRule
  dsimp only
  split
  · exact .inl ((afterDraw_continues s).trans (setProgress_continues _ _))
  · refine .inr ((afterDraw_continues s).completes ?_)
    exact (setBig_keepsFrame (List.mem_singleton_self rd) _ _).finish
  · split
    · exact .inl (setProgress_continues _ s)
    · exact .inr finish_completes

/-- GENPQR writes its three destinations only when it accepts (spec/43_candidate_generation.md R216). -/
theorem pqrRule_goesOnOrCompletes (rd ra rb : Reg) (d : Desc) (outer total : Nat) (st : PqrStage) (s : State) :
    GoesOnOrCompletes (.genpqr rd ra rb) s (pqrRule rd ra rb d outer total st s) := by
  have hi : (∃ x, Instr.genpqr rd ra rb = .genprime x) ∨ ∃ x y z, Instr.genpqr rd ra rb = .genpqr x y z :=
    .inr ⟨rd, ra, rb, rfl⟩
  cases st with
  | round =>
    unfold pqrRule
    dsimp only
    split
    · exact .inl (setProgress_continues _ s)
    · exact .inr (finishAttempts_completes hi)
  | prime ps =>
    unfold pqrRule
    dsimp only
    refine (primeAfter_continues d ps s).goesOnOrCompletes ?_
    split
    · exact .inl (setProgress_continues _ _)
    · exact .inl (setProgress_continues _ _)
    · exact .inr (finishAttempts_completes hi)
  | qLength | qValue | rLength | rValue => exact .inl ((afterDraw_continues s).trans (setProgress_continues _ _))
  | judge p q r =>
    unfold pqrRule
    dsimp only
    split
    · have hp := setBig_keepsFrame (i := .genpqr rd ra rb) (d := rd) (by simp [destinations]) p s
      have hq := setBig_keepsFrame (i := .genpqr rd ra rb) (d := ra) (by simp [destinations]) q (setBig rd p s)
      have hr := setBig_keepsFrame (i := .genpqr rd ra rb) (d := rb) (by simp [destinations]) r
        (setBig ra q (setBig rd p s))
      exact .inr (((hp.trans hq).trans hr).trans (attempts_keepsFrame hi _ _)).finish
    · exact .inl (setProgress_continues _ s)

theorem genpqrRule_goesOnOrCompletes (rd ra rb : Reg) (r : Running) (s : State) :
    GoesOnOrCompletes (.genpqr rd ra rb) s (genpqrRule rd ra rb r s) := by
  unfold genpqrRule
  dsimp only
  split
  · exact pqrRule_goesOnOrCompletes rd ra rb _ _ _ _ s
  · split
    · exact .inl (setProgress_continues _ s)
    · exact .inr (finishAttempts_completes (.inr ⟨rd, ra, rb, rfl⟩))

theorem embedRule_goesOnOrCompletes (r : Running) (s : State) : GoesOnOrCompletes .embed s (embedRule r s) := by
  unfold embedRule
  dsimp only
  split
  case h_1 =>
    split
    · split
      · exact .inl (setProgress_continues _ s)
      · exact .inr (finishOutLen_completes (.inl rfl))
    · exact .inr (finishOutLen_completes (.inl rfl))
  case h_2 =>
    split
    · exact .inl (setProgress_continues _ s)
    · exact .inr (finishOutLen_completes (.inl rfl))
  case h_3 =>
    split
    next ht => exact .inl ((dmaWrite_continues ht).trans (setProgress_continues _ _))
    next => exact .inr (finishOutLen_completes (.inl rfl))
  case h_4 =>
    iterate 3 (split; · exact .inr (finishOutLen_completes (.inl rfl)))
    exact .inl (setProgress_continues _ s)

theorem extractRule_goesOnOrCompletes (r : Running) (s : State) : GoesOnOrCompletes .extract s (extractRule r s) := by
  unfold extractRule
  dsimp only
  split
  case h_1 =>
    split
    · exact .inl (setProgress_continues _ s)
    · exact .inr (finishOutLen_completes (.inr rfl))
  case h_2 =>
    split
    · exact .inl (setProgress_continues _ s)
    · exact .inr (finishOutLen_completes (.inr rfl))
  case h_3 =>
    split
    · exact .inr (finishOutLen_completes (.inr rfl))
    · split
      next ht => exact .inl ((dmaWrite_continues ht).trans (setProgress_continues _ _))
      next => exact .inr (finishOutLen_completes (.inr rfl))
  case h_4 => exact .inr (finishOutLen_completes (.inr rfl))
  case h_5 =>
    iterate 2 (split; · exact .inr (finishOutLen_completes (.inr rfl)))
    exact .inl (setProgress_continues _ s)

/-- One step of a command's rule: it goes on, or it completes within its frame. -/
theorem commandRule_goesOnOrCompletes (i : Instr) (r : Running) (s : State) : GoesOnOrCompletes i s (commandRule i r s) := by
  cases i with
  | nop => exact .inr finish_completes
  | clr rd => exact .inr (setBig_keepsFrame (List.mem_singleton_self rd) _ s).finish
  | modexp rd ra rb rc => exact .inr (modexpRule_completes rd ra rb rc r s)
  | modmul rd ra rb rc => exact .inr (modmulRule_completes rd ra rb rc r s)
  | montmul rd ra rb rc => exact .inr (montmulRule_completes rd ra rb rc r s)
  | egcd rd ra rb => exact .inr (egcdRule_completes rd ra rb r s)
  | modinv rd ra rb => exact .inr (modinvRule_completes rd ra rb r s)
  | primetest ra => exact primetestRule_goesOnOrCompletes ra r s
  | genprime rd => exact genprimeRule_goesOnOrCompletes rd r s
  | genrand rd => exact genrandRule_goesOnOrCompletes rd r s
  | genpqr rd ra rb => exact genpqrRule_goesOnOrCompletes rd ra rb r s
  | embed => exact embedRule_goesOnOrCompletes r s
  | extract => exact extractRule_goesOnOrCompletes r s

/-! ## One turn -/

theorem engineStep_goesOnOrCompletes (i : Instr) (r : Running) (s : State) :
    GoesOnOrCompletes i s (engineStep (commandAbort i) (commandRule i) r s) := by
  rcases engineStep_cases (onAbort := commandAbort i) (rule := commandRule i) r s with ⟨_, e⟩ | ⟨_, _, e⟩ | ⟨_, _, e⟩ <;>
    rw [e]
  · exact commandRule_goesOnOrCompletes i r s
  · exact .inr ((afterRace_continues s).completes (commandAbort_completes i _))
  · exact (afterRace_continues s).goesOnOrCompletes (commandRule_goesOnOrCompletes i r _)

/-- One turn of a command: it goes on, or it completes within its frame. -/
theorem exec_goesOnOrCompletes {i : Instr} {s t : State} (h : exec i s = .next t) : GoesOnOrCompletes i s t := by
  rw [exec_eq_runCommand] at h
  cases h
  refine runCommand_induct (GoesOnOrCompletes i s) (fun u hu => ?_) (fun r u hr hu => ?_) (.inl (Continues.refl s))
  · rcases hu with hu | hu
    · exact .inl (hu.trans (startTurn_continues u))
    · exact .inr ⟨hu.frame.trans ((startTurn_continues u).keepsFrame i), hu.run, hu.done, hu.err_raised⟩
  · rcases hu with hu | hu
    · exact hu.goesOnOrCompletes (engineStep_goesOnOrCompletes i r u)
    · exact absurd (hr.symm.trans hu.run) (by simp)

/-! ## The statements on a command's turn -/

/-- Settles O54: no engine step leaves the command's frame, wherever the turn ends. -/
theorem commandFrame : Obligations.CommandFrame := by
  unfold Obligations.CommandFrame
  intro i s t h
  have hf := (exec_goesOnOrCompletes h).keepsFrame
  exact ⟨hf.bigs, hf.prime, hf.neg, hf.attempts, hf.outLen, exec_sameSetting h⟩

/-- A command that has gone on reads as it did before, at every register (spec/10_state.md R48). -/
theorem Continues.readReg_eq {s t : State} (h : Continues s t) (hs : sameSetting s t) (reg : MmioReg) :
    readReg reg t = readReg reg s := by
  obtain ⟨hb, hp, hn, ha, ho⟩ := h.results
  obtain ⟨hpar, hd, hie, hm, hov, -, -⟩ := hs
  have hbusy : busy t = busy s := by
    have := congrArg Option.isSome h.snap
    simpa [busy] using this
  cases reg <;>
    simp only [readReg, paramWord, ctrlWord, statusWord, hb, hp, hn, ha, ho, hpar, hd, hie, hm, hov, h.err, h.done, hbusy]

/-- Settles O55: a turn that leaves the command running has only gone on. -/
theorem commitOnlyAtCompletion : Obligations.CommitOnlyAtCompletion := by
  unfold Obligations.CommitOnlyAtCompletion
  intro i s t h hrun
  have hc : Continues s t := (exec_goesOnOrCompletes h).resolve_right fun hc => hrun hc.run
  have hs := exec_sameSetting h
  have ⟨_, _, _, _, hovr, _, _⟩ := hs
  exact ⟨hc.results, hc.err, hc.done, hovr, hc.readReg_eq hs⟩

end Sys2Proof.Machine
end

section
/-! The invariant of the machine: it holds at reset, and every host move and every turn of the engine keeps it
(spec/10_state.md R22, spec/60_exceptions.md R291). -/

namespace Sys2Proof.Machine

/-! ## What the invariant speaks of -/

/-- The invariant speaks of the parameters, the big registers, the snapshot, ERR and memory's form alone. -/
theorem State.Inv.of_eq {s t : State} (h : s.Inv) (hm : t.mem.wf = true) (hp : t.params = s.params) (hb : t.bigs = s.bigs)
    (hr : t.run.map Running.snap = s.run.map Running.snap) (he : t.err = s.err) : t.Inv where
  mem_wf := hm
  bigs_sized := by rw [hp, hb]; exact h.bigs_sized
  snap_sized r ht := by
    rw [ht] at hr
    obtain ⟨r', hs, hsnap⟩ := Option.map_eq_some_iff.1 hr.symm
    rw [hp, ← hsnap]
    exact h.snap_sized r' hs
  err_raised := by rw [he]; exact h.err_raised

theorem bigsSized_unwritten (p : Params) : bigsSized p (BigFile.unwritten p.opwWords) := by
  intro k
  simp [BigFile.unwritten]

theorem bigsSized_setBigWord {s : State} (h : bigsSized s.params s.bigs) (k : Reg) (i : Nat) (v : Word) :
    bigsSized s.params (setBigWord k i v s).bigs := by
  intro l
  have hl := h l
  by_cases e : k = l
  · subst e; simpa using hl
  · have : k.val ≠ l.val := fun e' => e (Fin.ext e')
    simpa [this] using hl

theorem bigsSized_resetEngine {s : State} (h : bigsSized s.params s.bigs) :
    bigsSized s.params (resetEngine s).bigs := by
  intro k
  have hk := h k
  simpa [resetEngine] using hk

/-! ## Host moves -/

/-- An accepted command captures registers of the build's width (spec/10_state.md R47). -/
theorem takeCommand_inv {s : State} (h : s.Inv) (w : Word) : (takeCommand w s).Inv :=
  ⟨h.mem_wf, h.bigs_sized, fun r hr => by cases hr; exact h.bigs_sized, h.err_raised⟩

theorem setBigWord_inv {s : State} (h : s.Inv) (k : Reg) (i : Nat) (v : Word) : (setBigWord k i v s).Inv :=
  ⟨h.mem_wf, bigsSized_setBigWord h.bigs_sized k i v, h.snap_sized, h.err_raised⟩

theorem resetEngine_inv {s : State} (h : s.Inv) : (resetEngine s).Inv :=
  ⟨h.mem_wf, bigsSized_resetEngine h.bigs_sized, nofun, nofun, nofun, nofun⟩

/-- The request of an abort leaves the snapshot (spec/10_state.md R28). -/
theorem requestAbort_inv {s : State} (h : s.Inv) : (requestAbort s).Inv :=
  h.of_eq h.mem_wf rfl rfl (by cases hr : s.run <;> simp [hr]) rfl

theorem writeReg_inv {reg : MmioReg} {v : Word} {s t : State} (h : s.Inv) (ht : writeReg reg v s = .next t) : t.Inv := by
  have hdrop : (dropWrite s).Inv := h.of_eq h.mem_wf rfl rfl rfl rfl
  cases reg with
  | id | param | attempts | outLen | reserved => cases ht; exact h
  | status => cases ht; exact h.of_eq h.mem_wf rfl rfl rfl rfl
  | ctrl =>
    cases ht
    have hset : { s with ie := v.getLsbD 0, embedMode := .ofBit (v.getLsbD 1) }.Inv := h.of_eq h.mem_wf rfl rfl rfl rfl
    unfold writeCtrl
    dsimp only
    split
    · exact requestAbort_inv hset
    · exact hset
  | cmd =>
    rw [writeReg] at ht
    obtain rfl | ht := guarded_eq_next ht
    · exact hdrop
    · obtain rfl := issue_eq_next ht
      exact takeCommand_inv h v
  | desc d =>
    rw [writeReg] at ht
    obtain rfl | ht := guarded_eq_next ht
    · exact hdrop
    · cases ht
      exact h.of_eq h.mem_wf rfl rfl rfl rfl
  | bigWord k i =>
    rw [writeReg] at ht
    split at ht
    · obtain rfl | ht := guarded_eq_next ht
      · exact hdrop
      · cases ht
        exact setBigWord_inv h k i v
    · cases ht
      exact h

theorem hostLoad_inv {a : Addr} {s t : State} (h : s.Inv) (ht : hostLoad a s = .next t) : t.Inv := by
  obtain ⟨v, c, rfl | rfl⟩ := hostLoad_eq_next ht <;> exact h.of_eq h.mem_wf rfl rfl rfl rfl

theorem hostStore_inv {a : Addr} {v : Byte} {s t : State} (h : s.Inv) (ht : hostStore a v s = .next t) : t.Inv := by
  unfold hostStore at ht
  split at ht
  · cases ht
  · split at ht <;> cases ht
    · exact h.of_eq (memWrite_wf h.mem_wf a v) rfl rfl rfl rfl
    · exact h.of_eq h.mem_wf rfl rfl rfl rfl

theorem hostClean_inv {a : Addr} {n : Nat} {s t : State} (h : s.Inv) (ht : hostClean a n s = .next t) : t.Inv := by
  unfold hostClean at ht
  split at ht <;> cases ht
  exact h.of_eq (writeBack_wf a n s.cache h.mem_wf) rfl rfl rfl rfl

theorem hostMove_inv {m : HostMove} {s t : State} (h : s.Inv) (ht : hostMove m s = .next t) : t.Inv := by
  cases m with
  | mmioWrite addr width v =>
    rw [hostMove] at ht
    obtain ⟨reg, ht⟩ := mmioAccess_eq_next ht
    exact writeReg_inv h ht
  | mmioRead addr width =>
    rw [hostMove] at ht
    obtain ⟨reg, ht⟩ := mmioAccess_eq_next ht
    obtain ⟨v, -, rfl⟩ := hostRead_eq_next.1 ht
    exact h.of_eq h.mem_wf rfl rfl rfl rfl
  | memStore a v => exact hostStore_inv h ht
  | memLoad a => exact hostLoad_inv h ht
  | cacheClean a n => exact hostClean_inv h ht
  | cacheInvalidate | senseIrq => cases ht; exact h.of_eq h.mem_wf rfl rfl rfl rfl
  | reset => cases ht; exact resetEngine_inv h

/-! ## Turns of the engine -/

theorem exec_inv {i : Instr} {s t : State} (h : s.Inv) (ht : exec i s = .next t) : t.Inv := by
  rcases exec_goesOnOrCompletes ht with hc | hc
  · exact h.of_eq (hc.mem_wf h.mem_wf) hc.params hc.results.1 hc.snap hc.err
  · exact ⟨hc.frame.mem_wf h.mem_wf, hc.frame.bigs_sized h.bigs_sized,
      fun r hr => absurd (hc.run.symm.trans hr) (by simp), hc.err_raised⟩

theorem runIllegal_inv {s : State} (h : s.Inv) : (runIllegal s).Inv :=
  ⟨h.mem_wf, h.bigs_sized, nofun, nofun, nofun, nofun⟩

theorem engineTurn_inv {r : Running} {s t : State} (h : s.Inv) (ht : engineTurn r s = .next t) : t.Inv := by
  unfold engineTurn at ht
  split at ht
  · exact exec_inv h ht
  · cases ht; exact runIllegal_inv h

/-! ## The step, and reset -/

theorem hostStep_inv {s t : State} (h : s.Inv) (ht : hostStep s = .next t) : t.Inv := by
  unfold hostStep at ht
  split at ht
  next => cases ht; exact h
  next rest _ =>
    have hrest : { s with inbox := rest }.Inv := h.of_eq h.mem_wf rfl rfl rfl rfl
    exact hostMove_inv hrest ht

/-- Settles O11: each host move and each turn of the engine keeps the invariant. -/
theorem stepKeepsInvariant : Obligations.StepKeepsInvariant := by
  unfold Obligations.StepKeepsInvariant
  intro s t h ht
  unfold step at ht
  split at ht
  · exact hostStep_inv h ht
  · split at ht
    · exact hostStep_inv h ht
    · exact engineTurn_inv h ht

theorem resetWith_inv (p : Params) : (State.resetWith p).Inv :=
  ⟨rfl, bigsSized_unwritten p, nofun, nofun, nofun, nofun⟩

/-- Settles O10: State.reset is the reset of one build. -/
theorem resetMeetsInvariant : Obligations.ResetMeetsInvariant := by
  unfold Obligations.ResetMeetsInvariant
  exact ⟨resetWith_inv, resetWith_inv resetParams⟩

end Sys2Proof.Machine
end

section
/-! The register map of the host port: the register an offset names, and what a write of it stores and a read of it gives
(spec/10_state.md R25 to R49, spec/40_system.md R134, R135). -/

namespace Sys2Proof.Machine

/-! ## Unwritten source words (spec/60_exceptions.md R298) -/

theorem firstUnwritten_ne_none {b : BigReg} {x : BigWord} (hx : x ∈ b) (hw : x.written = false) :
    firstUnwritten b ≠ none := by
  intro h
  have := List.findIdx?_eq_none_iff.1 h x hx
  simp [hw] at this

theorem firstUnwritten_eq_some {b : BigReg} {j : Nat} (h : firstUnwritten b = some j) :
    ∃ y, b[j]? = some y ∧ y.written = false := by
  obtain ⟨hj, hw, -⟩ := List.findIdx?_eq_some_iff_getElem.1 h
  exact ⟨b[j], List.getElem?_eq_getElem hj, by simpa using hw⟩

/-- The search finds a word where one of the registers has an unwritten one. -/
theorem unwrittenSource_ne_none {bigs : BigFile} {ks : List Reg} {k : Reg} {x : BigWord} (hk : k ∈ ks)
    (hx : x ∈ bigs[k]) (hw : x.written = false) : unwrittenSource bigs ks ≠ none := by
  induction ks with
  | nil => cases hk
  | cons l ks ih =>
    rw [unwrittenSource]
    split
    · simp
    next hl =>
      rcases List.mem_cons.1 hk with rfl | hk
      · exact absurd hl (firstUnwritten_ne_none hx hw)
      · exact ih hk

/-- The word the search finds is an unwritten one of the registers. -/
theorem unwrittenSource_eq_some {bigs : BigFile} {ks : List Reg} {k : Reg} {j : Nat}
    (h : unwrittenSource bigs ks = some (k, j)) : k ∈ ks ∧ ∃ y, bigs[k][j]? = some y ∧ y.written = false := by
  induction ks with
  | nil => cases h
  | cons l ks ih =>
    rw [unwrittenSource] at h
    split at h
    next i hi =>
      cases h
      exact ⟨List.mem_cons_self, firstUnwritten_eq_some hi⟩
    next =>
      obtain ⟨hk, hy⟩ := ih h
      exact ⟨List.mem_cons_of_mem l hk, hy⟩

/-- While idle a busy-guarded write is done (spec/10_state.md R49). -/
theorem guarded_idle {s : State} (h : s.run = none) (act : State → Outcome) : guarded act s = act s := by
  simp [guarded, busy, h]

/-- While BUSY a busy-guarded write is dropped with OVR (spec/10_state.md R49). -/
theorem guarded_busy {s : State} (h : busy s = true) (act : State → Outcome) :
    guarded act s = .next { s with ovr := true } := by
  simp [guarded, h, dropWrite]

/-- Settles O14: the search over the sources finds an unwritten word, and issuing faults at what it finds. -/
theorem unwrittenSourceFaults : Obligations.UnwrittenSourceFaults := by
  unfold Obligations.UnwrittenSourceFaults
  intro s w i k x hidle hi hk hx hw
  obtain ⟨⟨k', j⟩, hf⟩ := Option.ne_none_iff_exists'.1 (unwrittenSource_ne_none hk hx hw)
  obtain ⟨hk', y, hy, hyw⟩ := unwrittenSource_eq_some hf
  have hop : unwrittenOperand w s = some (k', j) := by simp [unwrittenOperand, hi, hf]
  refine ⟨k', j, y, hk', hy, hyw, ?_⟩
  rw [writeReg, guarded_idle hidle, issue, hop]

/-! ## The register an offset names -/

/-- An aligned 32-bit access inside the block reaches the register at its offset (spec/20_memory.md R71). -/
theorem mmioAccess_base_add (s : State) (act : MmioReg → Outcome) {off : Nat} (hoff : off < 0x9000) (h4 : off % 4 = 0) :
    mmioAccess (s.params.base + off) 4 act s = act (regAt off) := by
  rw [mmioAccess, if_neg (by omega)]
  simp [h4]

theorem mmioRead_base_add (s : State) {off : Nat} (hoff : off < 0x9000) (h4 : off % 4 = 0) :
    hostMove (.mmioRead (s.params.base + off) 4) s = hostRead (regAt off) s := by
  rw [hostMove, mmioAccess_base_add s _ hoff h4]

theorem mmioWrite_base_add (s : State) (v : Word) {off : Nat} (hoff : off < 0x9000) (h4 : off % 4 = 0) :
    hostMove (.mmioWrite (s.params.base + off) 4 v) s = writeReg (regAt off) v s := by
  rw [hostMove, mmioAccess_base_add s _ hoff h4]

theorem descOffset_lt (d : DescReg) : descOffset d < 0x9000 := by cases d <;> decide

theorem descOffset_aligned (d : DescReg) : descOffset d % 4 = 0 := by cases d <;> rfl

@[simp] theorem regAt_descOffset (d : DescReg) : regAt (descOffset d) = .desc d := by cases d <;> rfl

theorem regAt_reserved {off : Nat} (hlo : 0x044 ≤ off) (hhi : off ≤ 0xFFC) : regAt off = .reserved := by
  have hmap : ∀ p ∈ scalarMap, p.1 ≤ 0x040 := by decide
  have hnone : scalarMap.lookup off = none := by
    refine List.lookup_eq_none_iff.2 fun p hp => ?_
    have := hmap p hp
    simp; omega
  rw [regAt, if_pos (by omega), hnone]
  rfl

/-- The window of Bk holds its words in order (spec/10_state.md R44). -/
theorem regAt_bigWord (k : Reg) {i : Nat} (hi : i < 1024) : regAt (0x1000 + 0x1000 * k.val + 4 * i) = .bigWord k i := by
  have hq : (0x1000 + 0x1000 * k.val + 4 * i) / 0x1000 - 1 = k.val := by omega
  have hr : (0x1000 + 0x1000 * k.val + 4 * i) % 0x1000 / 4 = i := by omega
  rw [regAt, if_neg (by omega), hq, hr]
  congr 1
  exact Fin.ext (Nat.mod_eq_of_lt k.isLt)

theorem mmioRead_descOffset (s : State) (d : DescReg) :
    hostMove (.mmioRead (s.params.base + descOffset d) 4) s = hostRead (.desc d) s := by
  rw [mmioRead_base_add s (descOffset_lt d) (descOffset_aligned d), regAt_descOffset]

theorem mmioWrite_descOffset (s : State) (d : DescReg) (v : Word) :
    hostMove (.mmioWrite (s.params.base + descOffset d) 4 v) s = writeReg (.desc d) v s := by
  rw [mmioWrite_base_add s v (descOffset_lt d) (descOffset_aligned d), regAt_descOffset]

theorem mmioRead_wordAddr (s : State) (k : Reg) {i : Nat} (hi : i < 1024) :
    hostMove (.mmioRead (wordAddr s k i) 4) s = hostRead (.bigWord k i) s := by
  rw [wordAddr, mmioRead_base_add s (by omega) (by omega), regAt_bigWord k hi]

theorem mmioWrite_wordAddr (s : State) (k : Reg) {i : Nat} (hi : i < 1024) (v : Word) :
    hostMove (.mmioWrite (wordAddr s k i) 4 v) s = writeReg (.bigWord k i) v s := by
  rw [wordAddr, mmioWrite_base_add s v (by omega) (by omega), regAt_bigWord k hi]

/-- Settles O18: each offset lies in the block, and regAt gives its register. -/
theorem offsetsNameRegisters : Obligations.OffsetsNameRegisters := by
  unfold Obligations.OffsetsNameRegisters
  intro s v
  refine ⟨fun p hp => ?_, fun d => ⟨mmioRead_descOffset s d, mmioWrite_descOffset s d v⟩,
    fun k i hi => ⟨mmioRead_wordAddr s k hi, mmioWrite_wordAddr s k hi v⟩⟩
  have hmap : p.1 < 0x9000 ∧ p.1 % 4 = 0 ∧ regAt p.1 = p.2 := by revert p; decide
  obtain ⟨hlt, h4, hreg⟩ := hmap
  rw [mmioRead_base_add s hlt h4, mmioWrite_base_add s v hlt h4, hreg]
  exact ⟨rfl, rfl⟩

/-- Settles O24: no row of the map has such an offset. -/
theorem reservedOffsetsReadZero : Obligations.ReservedOffsetsReadZero := by
  unfold Obligations.ReservedOffsetsReadZero
  intro s off v hlo hhi h4
  rw [mmioRead_base_add s (by omega) h4, mmioWrite_base_add s v (by omega) h4, regAt_reserved hlo hhi]
  exact ⟨rfl, rfl⟩

/-! ## Descriptors and big-register words -/

@[simp] theorem Desc.get_set_same (d : Desc) (e : DescReg) (v : Word) : (d.set e v).get e = v := by cases e <;> rfl

theorem Desc.get_set_other {e f : DescReg} (h : f ≠ e) (d : Desc) (v : Word) : (d.set e v).get f = d.get f := by
  cases e <;> cases f <;> simp [Desc.set, Desc.get] at h ⊢

/-- Settles O19: the write sets the descriptor its offset names, and the read there gives it. -/
theorem descriptorWriteThenRead : Obligations.DescriptorWriteThenRead := by
  unfold Obligations.DescriptorWriteThenRead
  intro s d v hidle
  let t : State := { s with desc := s.desc.set d v }
  have hget : t.desc.get d = v := Desc.get_set_same s.desc d v
  have hread : hostMove (.mmioRead (t.params.base + descOffset d) 4) t = .next (reply (.mmio v) t) := by
    rw [mmioRead_descOffset]
    exact hostRead_eq_next.2 ⟨v, by rw [readReg, hget], rfl⟩
  refine ⟨t, ?_, hread, hget, fun e he => Desc.get_set_other he s.desc v, rfl⟩
  rw [mmioWrite_descOffset, writeReg, guarded_idle hidle]

/-- OPW_WORDS is at most 1024, the number of words of a window (spec/00_scope.md R6). -/
theorem opwWords_le (p : Params) : p.opwWords ≤ 1024 := by
  have := p.opwExtra.isLt
  unfold Params.opwWords
  omega

/-- A word of the register reads as its value where it is written, and faults where not (spec/40_system.md R135). -/
theorem readReg_bigWord {s : State} {k : Reg} {i : Nat} {x : BigWord} (hi : i < s.params.opwWords)
    (hx : s.bigs[k][i]? = some x) :
    readReg (.bigWord k i) s = if x.written then .ok x.value else .error (.unwrittenRead k i) := by
  simp only [readReg, if_pos hi, hx]

/-- Settles O17: a word inside the register reads by its mark, one past OPW_WORDS as a reserved offset does. -/
theorem bigWordReadOrFault : Obligations.BigWordReadOrFault := by
  unfold Obligations.BigWordReadOrFault
  refine ⟨fun s k i x hi hx => ?_, fun s k i v hle hi => ?_⟩
  · rw [mmioRead_wordAddr s k (hi.trans_le (opwWords_le s.params)), hostRead, readReg_bigWord hi hx]
    exact ⟨fun hw => by simp [hw], fun hw => by simp [hw]⟩
  · rw [mmioRead_wordAddr s k hi, mmioWrite_wordAddr s k hi]
    have hout : ¬ i < s.params.opwWords := by omega
    exact ⟨hostRead_eq_next.2 ⟨0, by rw [readReg, if_neg hout], rfl⟩, by rw [writeReg, if_neg hout]⟩

/-! ## The busy guard, STATUS and CTRL -/

/-- A write of CTRL, field by field (spec/10_state.md R28). -/
theorem writeCtrl_eq (v : Word) (s : State) :
    writeCtrl v s = { s with
      ie := v.getLsbD 0
      embedMode := .ofBit (v.getLsbD 1)
      run := s.run.map fun r => { r with abortReq := r.abortReq || v.getLsbD 2 } } := by
  unfold writeCtrl
  cases v.getLsbD 2
  · simp
  · simp [requestAbort]

/-- Settles O15: the guard of each register, and what the registers without one do. -/
theorem busyGuardDropsWrites : Obligations.BusyGuardDropsWrites := by
  unfold Obligations.BusyGuardDropsWrites
  refine ⟨fun s v hbusy => ⟨guarded_busy hbusy _, fun d => ?_, fun k i hi => ?_, ?_, ?_⟩,
    fun s v reg hreg => ?_, fun s reg v hv => ?_⟩
  · rw [writeReg, guarded_busy hbusy]
  · rw [writeReg, if_pos hi, guarded_busy hbusy]
  · exact ⟨writeCtrl v s, rfl, by rw [writeCtrl_eq], by rw [writeCtrl_eq]⟩
  · exact ⟨writeStatus v s, rfl, rfl, rfl⟩
  · simp only [List.mem_cons, List.not_mem_nil, or_false] at hreg
    rcases hreg with rfl | rfl | rfl | rfl | rfl <;> rfl
  · exact ⟨reply (.mmio v) s, hostRead_eq_next.2 ⟨v, hv, rfl⟩, rfl⟩

/-! ## STATUS and CTRL, bit by bit -/

/-- The fields of STATUS (spec/10_state.md R29). The width of the concatenation is 32 by computation only. -/
theorem statusWord_getLsbD (s : State) (n : Nat) :
    (statusWord s).getLsbD n =
      if n = 0 then busy s else if n = 1 then s.done else if n = 2 then s.ovr else if n = 3 then false
      else if n < 8 then s.err.code.getLsbD (n - 4) else if n = 8 then s.prime else if n = 9 then s.neg else false := by
  change BitVec.getLsbD (w := 22 + 1 + 1 + 4 + 1 + 1 + 1 + 1) _ n = _
  unfold statusWord
  simp only [BitVec.getLsbD_append, BitVec.getLsbD_ofBool]
  rcases n with _ | _ | _ | _ | _ | _ | _ | _ | _ | _ | n <;> simp

/-- The fields of CTRL (spec/10_state.md R28). -/
theorem ctrlWord_getLsbD (s : State) (n : Nat) :
    (ctrlWord s).getLsbD n = if n = 0 then s.ie else if n = 1 then s.embedMode.bit else false := by
  change BitVec.getLsbD (w := 30 + 1 + 1) _ n = _
  unfold ctrlWord
  simp only [BitVec.getLsbD_append, BitVec.getLsbD_ofBool]
  rcases n with _ | _ | n <;> simp

theorem statusWord_err (s : State) : (statusWord s).extractLsb' 4 4 = s.err.code := by
  refine BitVec.eq_of_getLsbD_eq fun i hi => ?_
  rw [BitVec.getLsbD_extractLsb', Nat.add_comm, statusWord_getLsbD]
  simp [hi, show i + 4 < 8 by omega]

theorem statusWord_reserved (s : State) : (statusWord s).extractLsb' 10 22 = 0#22 := by
  refine BitVec.eq_of_getLsbD_eq fun i _ => ?_
  rw [BitVec.getLsbD_extractLsb', Nat.add_comm, statusWord_getLsbD]
  simp

/-- A write of STATUS clears DONE and OVR where 1 is written, and no other bit (spec/10_state.md R29). -/
theorem statusWord_writeStatus (v : Word) (s : State) :
    statusWord (writeStatus v s) = statusWord s &&& ~~~(v &&& 6) := by
  have hbusy : busy (writeStatus v s) = busy s := rfl
  have hdone : (writeStatus v s).done = (s.done && !v.getLsbD 1) := rfl
  have hovr : (writeStatus v s).ovr = (s.ovr && !v.getLsbD 2) := rfl
  have hmask (i : Nat) : (6 : Word).getLsbD (i + 3) = false := by simp [BitVec.getLsbD, Nat.testBit_add]
  refine BitVec.eq_of_getLsbD_eq fun i hi => ?_
  rw [BitVec.getLsbD_and, BitVec.getLsbD_not, BitVec.getLsbD_and, statusWord_getLsbD, statusWord_getLsbD]
  match i with
  | 0 => simp [hbusy]
  | 1 => simp [hdone]
  | 2 => simp [hovr]
  | i + 3 => rw [hmask]; simp [hi, writeStatus]

@[simp] theorem EmbedMode.bit_ofBit (b : Bool) : (EmbedMode.ofBit b).bit = b := by cases b <;> rfl

theorem EmbedMode.ofBit_eq_decrement {b : Bool} : EmbedMode.ofBit b = .decrement ↔ b = true := by
  cases b <;> simp [EmbedMode.ofBit]

/-- CTRL reads back the two bits it stores (spec/10_state.md R28). -/
theorem ctrlWord_writeCtrl (v : Word) (s : State) : ctrlWord (writeCtrl v s) = v &&& 3 := by
  have hmask (i : Nat) : (3 : Word).getLsbD (i + 2) = false := by simp [BitVec.getLsbD, Nat.testBit_add]
  refine BitVec.eq_of_getLsbD_eq fun i _ => ?_
  rw [writeCtrl_eq, ctrlWord_getLsbD, BitVec.getLsbD_and]
  match i with
  | 0 => simp
  | 1 => simp
  | i + 2 => rw [hmask]; simp

/-- Settles O22: the word's fields are read off bit by bit, and the write is an acknowledge. -/
theorem statusFieldsAndAcknowledge : Obligations.StatusFieldsAndAcknowledge := by
  unfold Obligations.StatusFieldsAndAcknowledge
  refine ⟨fun s => ?_, fun s v => ⟨writeStatus v s, rfl, statusWord_writeStatus v s, rfl⟩⟩
  refine ⟨?_, ?_, ?_, ?_, statusWord_err s, ?_, ?_, statusWord_reserved s⟩ <;> exact statusWord_getLsbD s _

/-- Settles O23: the write of CTRL field by field, and the mode in the snapshot of an acceptance. -/
theorem ctrlWriteAndSample : Obligations.CtrlWriteAndSample := by
  unfold Obligations.CtrlWriteAndSample
  refine ⟨fun s v => ⟨writeCtrl v s, rfl, congrArg Except.ok (ctrlWord_writeCtrl v s), ?_⟩,
    fun s w => ⟨_, takeCommand_run s w, rfl, rfl⟩⟩
  rw [writeCtrl_eq]
  exact ⟨rfl, EmbedMode.ofBit_eq_decrement, fun h => by simp [h], fun r h => by simp [h], rfl⟩

end Sys2Proof.Machine
end

section
/-! The host's accesses: MMIO reads, and stores and loads of memory through the host's cache
(spec/20_memory.md R71, R75, R81 to R88). -/

namespace Sys2Proof.Machine

/-! ## MMIO accesses (spec/20_memory.md R71, R75) -/

/-- What answers outside the block is the platform's (spec/10_state.md R43). -/
theorem mmioAccess_outside {addr : Nat} {s : State} (h : addr < s.params.base ∨ s.params.base + 0x9000 ≤ addr)
    (width : Nat) (act : MmioReg → Outcome) : mmioAccess addr width act s = .refused (.outsideBlock addr) := by
  rw [mmioAccess, if_pos h]

/-- Inside the block only aligned 32-bit accesses are supported (spec/20_memory.md R71). -/
theorem mmioAccess_unsupported {addr width : Nat} {s : State} (hlo : s.params.base ≤ addr)
    (hhi : addr < s.params.base + 0x9000) (h : width ≠ 4 ∨ (addr - s.params.base) % 4 ≠ 0) (act : MmioReg → Outcome) :
    mmioAccess addr width act s = .fault (.unsupportedMmio (addr - s.params.base) width) := by
  have hin : ¬ (addr < s.params.base ∨ s.params.base + 0x9000 ≤ addr) := by omega
  have hbad : ¬ (width = 4 ∧ (addr - s.params.base) % 4 = 0) := by omega
  rw [mmioAccess, if_neg hin, if_neg hbad]

/-- Settles O20: a read and a write differ only in what they do at a register, which such an access does not reach. -/
theorem onlyAlignedWordAccess : Obligations.OnlyAlignedWordAccess := by
  unfold Obligations.OnlyAlignedWordAccess
  intro s addr width v
  rw [hostMove, hostMove]
  refine ⟨fun ⟨hlo, hhi, hbad⟩ => ?_, fun hout => ?_⟩
  · exact ⟨mmioAccess_unsupported hlo hhi hbad _, mmioAccess_unsupported hlo hhi hbad _⟩
  · exact ⟨mmioAccess_outside hout width _, mmioAccess_outside hout width _⟩

/-- An MMIO read answers exactly where its register has a value, and adds that reply alone (spec/20_memory.md R75). -/
theorem mmioRead_eq_next {addr width : Nat} {s t : State} :
    hostMove (.mmioRead addr width) s = .next t ↔
      ∃ off v, off < 0x9000 ∧ off % 4 = 0 ∧ addr = s.params.base + off ∧ width = 4 ∧
        readReg (regAt off) s = .ok v ∧ t = reply (.mmio v) s := by
  constructor
  · intro h
    rw [hostMove] at h
    rcases mmioAccess_cases addr width (fun reg => hostRead reg s) s with ⟨_, e⟩ | ⟨_, _, _, e⟩ | ⟨hlo, hhi, hw, h4, e⟩ <;>
      rw [e] at h
    · cases h
    · cases h
    · obtain ⟨v, hv, rfl⟩ := hostRead_eq_next.1 h
      exact ⟨addr - s.params.base, v, by omega, h4, by omega, hw, hv, rfl⟩
  · rintro ⟨off, v, hoff, h4, rfl, rfl, hv, rfl⟩
    rw [mmioRead_base_add s hoff h4]
    exact hostRead_eq_next.2 ⟨v, hv, rfl⟩

/-- No register reads the record of replies. -/
theorem readReg_reply (reg : MmioReg) (x : Reply) (s : State) : readReg reg (reply x s) = readReg reg s := by
  cases reg <;> rfl

/-- Settles O21: the reply is all a read adds, and no register reads it. -/
theorem readsHaveNoSideEffect : Obligations.ReadsHaveNoSideEffect := by
  unfold Obligations.ReadsHaveNoSideEffect
  intro s t addr width h
  obtain ⟨off, v, hoff, h4, haddr, hwidth, hv, rfl⟩ := mmioRead_eq_next.1 h
  exact ⟨v, rfl, mmioRead_eq_next.2 ⟨off, v, hoff, h4, haddr, hwidth, (readReg_reply _ _ s).trans hv, rfl⟩⟩

/-! ## The buffers of the running command (spec/20_memory.md R84) -/

theorem engineOwns_running {s : State} {r : Running} (h : s.run = some r) (a : Addr) :
    engineOwns a s = inRanges (ownedRanges r.word r.snap.desc) a.toNat := by
  rw [engineOwns, h]

theorem engineOwns_idle {s : State} (h : s.run = none) (a : Addr) : engineOwns a s = false := by
  rw [engineOwns, h]

theorem outsideBuffers_iff {a : Addr} {s : State} : outsideBuffers a s ↔ engineOwns a s = false := by
  unfold outsideBuffers engineOwns
  cases s.run <;> simp

theorem inRanges_ownedRanges_embed {w : Word} (h : decode w = .command .embed) (d : Desc) (x : Nat) :
    inRanges (ownedRanges w d) x = true ↔
      d.pixBase.toNat ≤ x ∧ x < d.pixBase.toNat + slotCount d ∨
        d.msgBase.toNat ≤ x ∧ x < d.msgBase.toNat + d.msgLen.toNat := by
  simp [ownedRanges, h, inRanges]

theorem inRanges_ownedRanges_extract {w : Word} (h : decode w = .command .extract) (d : Desc) (x : Nat) :
    inRanges (ownedRanges w d) x = true ↔
      d.pixBase.toNat ≤ x ∧ x < d.pixBase.toNat + slotCount d ∨
        d.msgBase.toNat ≤ x ∧ x < d.msgBase.toNat + d.msgCap.toNat := by
  simp [ownedRanges, h, inRanges]

/-! ## Stores and the host's cache (spec/20_memory.md R81, R88) -/

/-- Writing a byte of a running command's buffers breaks a duty (spec/20_memory.md R84). -/
theorem hostStore_owned {a : Addr} {s : State} (h : engineOwns a s = true) (v : Byte) :
    hostStore a v s = .fault (.hostDuty .leaveBuffersAlone) := by
  rw [hostStore, if_pos h]

theorem hostStore_coherent {a : Addr} {s : State} (h : engineOwns a s = false) (hc : s.params.dmaCoherent = true)
    (v : Byte) : hostStore a v s = .next { s with mem := memWrite s.mem a.toNat v } := by
  simp [hostStore, h, hc]

theorem hostStore_cached {a : Addr} {s : State} (h : engineOwns a s = false) (hc : s.params.dmaCoherent = false)
    (v : Byte) : hostStore a v s = .next (cachePut ⟨a, v, .dirty⟩ s) := by
  simp [hostStore, h, hc]

@[simp] theorem cached_cachePut (c : CacheByte) (s : State) : cached c.addr (cachePut c s) = some c := by
  simp [cached]

theorem cached_eq_some {a : Addr} {s : State} {c : CacheByte} (h : cached a s = some c) : c ∈ s.cache ∧ c.addr = a :=
  ⟨List.mem_of_find?_eq_some h, by simpa using List.find?_some h⟩

/-- A dirty or clean copy answers a load, whatever memory holds. -/
theorem hostLoad_copy {a : Addr} {s : State} {c : CacheByte} (hc : s.params.dmaCoherent = false)
    (h : cached a s = some c) (hcopy : c.copy = .dirty ∨ c.copy = .clean) :
    hostLoad a s = .next (reply (.mem c.byte) s) := by
  obtain ⟨addr, byte, copy⟩ := c
  rcases hcopy with rfl | rfl <;> simp [hostLoad, hc, h]

theorem cacheHit_one {a : Addr} {c : CacheByte} : cacheHit a 1 c = true ↔ c.addr = a := by
  simp only [cacheHit, inRanges, List.any_cons, List.any_nil, Bool.or_false, Bool.and_eq_true, decide_eq_true_eq]
  rw [BitVec.toNat_eq]
  omega

theorem dirtyHit_one {a : Addr} {c : CacheByte} (h : dirtyHit a 1 c = true) : c.addr = a :=
  cacheHit_one.1 (Bool.and_eq_true_iff.1 h).1

/-- Copies none of which is dirty in the range leave memory as it is. -/
theorem writeBack_of_not_dirtyHit {a : Addr} {n : Nat} {l : List CacheByte} (h : ∀ c ∈ l, dirtyHit a n c = false)
    (m : Memory) : writeBack a n l m = m := by
  induction l with
  | nil => rfl
  | cons c rest ih =>
    have hc : ¬ dirtyHit a n c = true := by simp [h c List.mem_cons_self]
    rw [writeBack, if_neg hc, ih fun e he => h e (List.mem_cons_of_mem c he)]

/-- Cleaning the byte just stored writes that byte to memory, and no other. -/
theorem writeBack_cachePut (a : Addr) (v : Byte) (s : State) (m : Memory) :
    writeBack a 1 (cachePut ⟨a, v, .dirty⟩ s).cache m = memWrite m a.toNat v := by
  have hhit : dirtyHit a 1 ⟨a, v, .dirty⟩ = true := by simp [dirtyHit, cacheHit_one]
  have hrest : ∀ c ∈ s.cache.filter (fun e => e.addr ≠ a), dirtyHit a 1 c = false := fun c hc =>
    Bool.eq_false_iff.2 fun hd => (by simpa using (List.mem_filter.1 hc).2 : c.addr ≠ a) (dirtyHit_one hd)
  rw [cachePut_cache, writeBack, if_pos hhit, writeBack_of_not_dirtyHit hrest]

/-- Cleaning one byte outside the running command's buffers breaks no duty. -/
theorem hostClean_one {a : Addr} {s : State} (h : engineOwns a s = false) :
    ∃ u, hostClean a 1 s = .next u ∧ u.mem = writeBack a 1 s.cache s.mem := by
  have hduty : (s.cache.any fun c => dirtyHit a 1 c && engineOwns c.addr s) = false := by
    rw [List.any_eq_false]
    intro c _ hc
    obtain ⟨hd, ho⟩ := Bool.and_eq_true_iff.1 hc
    rw [dirtyHit_one hd, h] at ho
    cases ho
  rw [hostClean, hduty]
  exact ⟨_, rfl, rfl⟩

/-- After an invalidate of a byte the caches hold no copy of it, at most the record of a lost store. -/
theorem copy_lost_of_invalidated {a : Addr} {s t : State} {c : CacheByte} (ht : hostInvalidate a 1 s = .next t)
    (hc : cached a t = some c) : c.copy = .lost := by
  cases ht
  obtain ⟨hmem, haddr⟩ := cached_eq_some hc
  obtain ⟨e, -, he⟩ := List.mem_filterMap.1 hmem
  split at he
  · rw [(dropCopy_eq_some he).2]
  next hmiss =>
    cases he
    exact absurd (cacheHit_one.2 haddr) hmiss

/-! ## Loads (spec/20_memory.md R82, R84) -/

/-- Settling the race of a load leaves memory. -/
theorem afterLoad_mem (a : Addr) (s : State) : (afterLoad a s).mem = s.mem := by
  unfold afterLoad
  split <;> rfl

/-- Where no copy of the host's answers it, a load gives the byte of `loadByte` and leaves memory. -/
theorem hostLoad_loadByte {a : Addr} {s : State}
    (h : s.params.dmaCoherent = false → ∀ c, cached a s = some c →
      c.copy = .lost ∨ c.copy = .handed ∧ engineOwns a s = true) :
    ∃ t, hostLoad a s = .next t ∧ t.replies.head? = some (.mem (loadByte a s)) ∧ t.mem = s.mem := by
  have hplain : (reply (.mem (loadByte a s)) (afterLoad a s)).mem = s.mem := afterLoad_mem a s
  have hcopy : (loadCopy a (loadByte a s) s).mem = s.mem := afterLoad_mem a s
  unfold hostLoad
  split
  · exact ⟨_, rfl, rfl, hplain⟩
  next hc =>
    have h := h (by simpa using hc)
    split <;> rename_i hcached
    · exact ⟨_, rfl, rfl, hcopy⟩
    · simpa using h _ hcached
    · simpa using h _ hcached
    · have howns : engineOwns a s = true := by simpa using h _ hcached
      rw [if_pos howns]
      exact ⟨_, rfl, rfl, hcopy⟩
    · simpa using h _ hcached
    · exact ⟨_, rfl, rfl, hplain⟩

/-- Settles O26: a store goes to memory or becomes a dirty copy, which the load finds and the clean writes back; an
invalidate leaves no copy to answer. -/
theorem hostStoreReachesMemory : Obligations.HostStoreReachesMemory := by
  unfold Obligations.HostStoreReachesMemory
  refine ⟨fun s a v hout hm hc => ?_, fun s a v hout hm hc => ?_, fun s a c hc hcached hcopy => ?_,
    fun s a hout hc => ?_⟩
  · exact ⟨_, hostStore_coherent (outsideBuffers_iff.1 hout) hc v, rfl, fun x => memRead_memWrite hm a.toNat x v⟩
  · have hfree : engineOwns a s = false := outsideBuffers_iff.1 hout
    obtain ⟨u, hclean, hmem⟩ := hostClean_one (s := cachePut ⟨a, v, .dirty⟩ s) hfree
    have hload := hostLoad_copy (s := cachePut ⟨a, v, .dirty⟩ s) hc (cached_cachePut _ s) (.inl rfl)
    refine ⟨_, u, hostStore_cached hfree hc v, rfl, hload, hclean, fun x => ?_⟩
    rw [hmem, writeBack_cachePut]
    exact memRead_memWrite hm a.toNat x v
  · exact hostLoad_copy hc hcached hcopy
  · obtain ⟨t, ht, hmem, howns⟩ : ∃ t, hostInvalidate a 1 s = .next t ∧ t.mem = s.mem ∧ engineOwns a t = engineOwns a s :=
      ⟨_, rfl, rfl, rfl⟩
    obtain ⟨u, hu, hreply, -⟩ := hostLoad_loadByte fun _ _ hcached => .inl (copy_lost_of_invalidated ht hcached)
    refine ⟨t, u, ht, hu, ?_⟩
    rw [hreply, (loadByte_of_not_owned (howns.trans (outsideBuffers_iff.1 hout))).1, hmem]

theorem loadByte_running {s : State} {r : Running} (h : s.run = some r) (a : Addr) :
    loadByte a s = if engineMayWrite a s && raceValue s then memRead r.before a.toNat else memRead s.mem a.toNat := by
  rw [loadByte, h]

/-- Settles O28: the byte is that of the race, which is settled only where the command may write. -/
theorem hostLoadRaces : Obligations.HostLoadRaces := by
  unfold Obligations.HostLoadRaces
  intro s r a hrun hcopy
  obtain ⟨t, ht, hreply, hmem⟩ := hostLoad_loadByte hcopy
  refine ⟨t, _, ht, hreply, hmem, ?_⟩
  rw [loadByte_running hrun]
  refine ⟨ite_eq_or_eq _ _ _, fun hw => by simp [hw], fun hw hrace => ?_, fun hrace => ?_⟩
  · simp [hw, raceValue, hrace]
  · simp [raceValue, hrace]

/-! ## The host's duties (spec/20_memory.md R81, R82, R84, R88) -/

/-- EMBED and EXTRACT read no big register. -/
theorem unwrittenOperand_codec {w : Word} (h : decode w = .command .embed ∨ decode w = .command .extract) (s : State) :
    unwrittenOperand w s = none := by
  rcases h with h | h <;> rw [unwrittenOperand, h] <;> rfl

/-- A CMD write of a codec command over a store that memory does not hold breaks a duty. -/
theorem writeReg_cmd_pending {s : State} {w : Word} {c : CacheByte} (hidle : s.run = none)
    (hc : s.params.dmaCoherent = false) (hw : decode w = .command .embed ∨ decode w = .command .extract)
    (hmem : c ∈ s.cache) (hcopy : unperformed c = true) (hin : inRanges (ownedRanges w s.desc) c.addr.toNat = true) :
    writeReg .cmd w s = .fault (.hostDuty .performStores) := by
  have hpend : storesPending (ownedRanges w s.desc) s = true := storesPending_eq_true.2 ⟨hc, c, hmem, hcopy, hin⟩
  rw [writeReg, guarded_idle hidle, issue, unwrittenOperand_codec hw]
  exact if_pos hpend

theorem unperformed_iff {c : CacheByte} : unperformed c = true ↔ c.copy = .dirty ∨ c.copy = .lost := by
  simp [unperformed]

/-- What an invalidate leaves of a store that was never performed is still never performed. -/
theorem unperformed_mem_invalidated {x : Addr} {n : Nat} {s t : State} {c : CacheByte} (hc : c ∈ s.cache)
    (hp : unperformed c = true) (ht : hostInvalidate x n s = .next t) :
    ∃ e ∈ t.cache, e.addr = c.addr ∧ unperformed e = true := by
  cases ht
  obtain ⟨e, he, haddr, hep⟩ := unperformed_dropCopy hp
  cases hhit : cacheHit x n c
  · exact ⟨c, List.mem_filterMap.2 ⟨c, hc, by simp [hhit]⟩, rfl, hp⟩
  · exact ⟨e, List.mem_filterMap.2 ⟨c, hc, by simp [hhit, he]⟩, haddr, hep⟩

/-- A copy of a buffer's byte that the acceptance leaves is dirty, lost, or to be invalidated after the completion. -/
theorem handOver_copy {ranges : List (Nat × Nat)} {c : CacheByte} (h : inRanges ranges c.addr.toNat = true) :
    (handOver ranges c).copy = .dirty ∨ (handOver ranges c).copy = .lost ∨ (handOver ranges c).copy = .handed ∨
      (handOver ranges c).copy = .stale := by
  rw [handOver, if_pos h]
  split <;> simp [*]

theorem takeCommand_cache_mem {w : Word} {s : State} {c : CacheByte} (hc : s.params.dmaCoherent = false)
    (h : c ∈ (takeCommand w s).cache) : ∃ e ∈ s.cache, c = handOver (ownedRanges w s.desc) e := by
  rw [takeCommand_cache, hc] at h
  obtain ⟨e, he, rfl⟩ := List.mem_map.1 h
  exact ⟨e, he, rfl⟩

/-- While idle a copy that was handed over must not be read (spec/20_memory.md R82, R88). -/
theorem hostLoad_old_copy {a : Addr} {s : State} {c : CacheByte} (hidle : s.run = none)
    (hc : s.params.dmaCoherent = false) (h : cached a s = some c) (hcopy : c.copy = .handed ∨ c.copy = .stale) :
    hostLoad a s = .fault (.hostDuty .invalidateCopies) := by
  obtain ⟨addr, byte, copy⟩ := c
  rcases hcopy with rfl | rfl <;> simp [hostLoad, hc, h, engineOwns_idle hidle]

/-- Settles O27: the buffers are those of the descriptors; an invalidate keeps a lost store pending; the acceptance makes
every copy of a buffer old. -/
theorem hostDutiesAreKept : Obligations.HostDutiesAreKept := by
  unfold Obligations.HostDutiesAreKept
  refine ⟨fun s r a v hrun hbuf => hostStore_owned ?_ v, fun s w c hidle hc hw hmem hcopy hin => ?_,
    fun s t u w a x v n hidle hc hw hin ht hlo hhi hu => ?_, fun s t w a c hc hcached hin hdirty hlost hp hcache hidle => ?_⟩
  · rw [engineOwns_running hrun]
    rcases hbuf with ⟨hlo, hhi, he | hx⟩ | ⟨hlo, hhi, he⟩ | ⟨hlo, hhi, hx⟩
    · exact (inRanges_ownedRanges_embed he _ _).2 (.inl ⟨hlo, hhi⟩)
    · exact (inRanges_ownedRanges_extract hx _ _).2 (.inl ⟨hlo, hhi⟩)
    · exact (inRanges_ownedRanges_embed he _ _).2 (.inr ⟨hlo, hhi⟩)
    · exact (inRanges_ownedRanges_extract hx _ _).2 (.inr ⟨hlo, hhi⟩)
  · exact writeReg_cmd_pending hidle hc hw hmem (unperformed_iff.2 hcopy) hin
  · rw [hostMove, hostStore_cached (engineOwns_idle hidle a) hc v] at ht
    cases ht
    obtain ⟨e, he, haddr, hep⟩ := unperformed_mem_invalidated List.mem_cons_self rfl hu
    cases hu
    exact writeReg_cmd_pending hidle hc hw he hep (by rw [haddr]; exact hin)
  · obtain ⟨hmem, haddr⟩ := cached_eq_some hcached
    obtain ⟨e, -, rfl⟩ := takeCommand_cache_mem hc hmem
    have hcopy := handOver_copy (ranges := ownedRanges w s.desc) (c := e)
      (by rw [← (handOver_data (ownedRanges w s.desc) e).1, haddr]; exact hin)
    have hcached' : cached a t = some (handOver (ownedRanges w s.desc) e) := by rw [cached, hcache]; exact hcached
    exact hostLoad_old_copy hidle (by rw [hp, hc]) hcached' ((hcopy.resolve_left hdirty).resolve_left hlost)

end Sys2Proof.Machine
end

section
/-! The engine's DMA runs: memory filled byte by byte, the loops of EMBED and EXTRACT slot by slot, and the bus error that
ends them (spec/20_memory.md R77, R78, spec/44_lsb_codec.md R246, R248). -/

namespace Sys2Proof.Machine

/-! ## Memory filled from an address on -/

/-- Memory `m` with `f 0` to `f (k - 1)` written, one after another, to the bytes from `base` on. -/
def memFill (base : Nat) (f : Nat → Byte) (m : Memory) : Nat → Memory
  | 0 => m
  | k + 1 => memWrite (memFill base f m k) (base + k) (f k)

theorem memFill_wf {base : Nat} {f : Nat → Byte} {m : Memory} (h : m.wf = true) :
    ∀ {k : Nat}, base + k ≤ 2 ^ 32 → (memFill base f m k).wf = true
  | 0, _ => h
  | _ + 1, hk => memWrite_wfFrom (memFill_wf h (by omega)) (Nat.zero_le _) (by omega) _

theorem memRead_memFill {base : Nat} {f : Nat → Byte} {m : Memory} (h : m.wf = true) {k : Nat} (hk : base + k ≤ 2 ^ 32)
    (a : Nat) :
    memRead (memFill base f m k) a = if base ≤ a ∧ a < base + k then f (a - base) else memRead m a := by
  induction k with
  | zero => rw [memFill, if_neg (by omega)]
  | succ k ih =>
    rw [memFill, memRead_memWrite (memFill_wf h (by omega)), ih (by omega)]
    by_cases ha : a = base + k
    · subst ha; simp
    · have hiff : (base ≤ a ∧ a < base + k) ↔ (base ≤ a ∧ a < base + (k + 1)) := by omega
      simp only [if_neg ha, hiff]

/-- A byte of the filled part holds what was written there. -/
theorem memRead_memFill_inside {base : Nat} {f : Nat → Byte} {m : Memory} (h : m.wf = true) {k : Nat}
    (hk : base + k ≤ 2 ^ 32) {j : Nat} (hj : j < k) : memRead (memFill base f m k) (base + j) = f j := by
  rw [memRead_memFill h hk, if_pos (by omega), Nat.add_sub_cancel_left]

/-- A byte outside the filled part is as it was. -/
theorem memRead_memFill_outside {base : Nat} {f : Nat → Byte} {m : Memory} (h : m.wf = true) {k : Nat}
    (hk : base + k ≤ 2 ^ 32) {a : Nat} (ha : a < base ∨ base + k ≤ a) :
    memRead (memFill base f m k) a = memRead m a := by
  rw [memRead_memFill h hk, if_neg (by omega)]

/-! ## The engine's turn, step by step -/

/-- A refused DMA read is a bus error (spec/20_memory.md R78). -/
theorem dmaRead_atStage_refused {s : State} {r : Running} {p : Progress} {m : Memory} {a : Addr}
    (h : memAdmits s.params a = false) : dmaRead a (atStage s r p m) = none := by
  simp [dmaRead, atStage, h]

/-- A refused DMA write is a bus error (spec/20_memory.md R78). -/
theorem dmaWrite_atStage_refused {s : State} {r : Running} {p : Progress} {m : Memory} {a : Addr} {v : Byte}
    (h : memAdmits s.params a = false) : dmaWrite a v (atStage s r p m) = none := by
  simp [dmaWrite, atStage, h]

/-- One step of an engine nobody aborts is the rule's step. -/
theorem runSteps_one {onAbort : State → State} {rule : Running → State → State} {s : State} {r : Running}
    {p : Progress} {m : Memory} (h : r.abortReq = false) :
    runSteps onAbort rule 1 (atStage s r p m) = rule { r with progress := p } (atStage s r p m) := by
  rw [runSteps_atStage h, runSteps]

/-- Steps to a stage, and the steps from there. -/
theorem runSteps_then {onAbort : State → State} {rule : Running → State → State} {k l n : Nat} {s t u : State}
    (hk : runSteps onAbort rule k s = t) (hl : runSteps onAbort rule l t = u) (hn : n = k + l := by omega) :
    runSteps onAbort rule n s = u := by
  rw [hn, runSteps_add, hk, hl]

/-- A command that nobody disturbs and that completes within its turn ends where it completes (log 10). -/
theorem exec_of_runSteps {i : Instr} {s t : State} {r : Running} {k : Nat} (h : s.Undisturbed r) (hk : k ≤ 2 ^ 64)
    (hsteps : runSteps (commandAbort i) (commandRule i) k (atStage (startTurn s) r .fresh s.mem) = t)
    (ht : t.run = none) : exec i s = .next t := by
  have hstart : atStage (startTurn s) r .fresh s.mem = startTurn s := by
    have hr : some { r with progress := .fresh } = s.run := by rw [h.running, ← h.fresh]
    rw [atStage, hr]
    rfl
  have hle : k ≤ Config.maxEngineSteps := hk.trans (Nat.pow_le_pow_right (by decide) (by decide))
  obtain ⟨l, hl⟩ := Nat.exists_eq_add_of_le hle
  rw [exec_eq_runCommand, runCommand_running h.running, h.hostWaits, ← hstart, hl, runSteps_add, hsteps, runSteps_idle ht]

/-- A count a 32-bit register can hold is kept as it is. -/
theorem sat32_toNat {n : Nat} (h : n < 2 ^ 32) : (sat32 n).toNat = n := by
  rw [sat32, BitVec.toNat_ofNat]
  omega

/-! ## EMBED (spec/44_lsb_codec.md R246) -/

/-- The sample EMBED leaves in slot `k`. -/
def slotSample (r : Running) (m : Memory) (k : Nat) : Byte := embeddedSample r.snap.embedMode r.snap.desc m (k / 9) (k % 9)

/-- Memory after an EMBED that began with memory `m` has written `k` slots. -/
def embedMem (r : Running) (m : Memory) (k : Nat) : Memory := memFill r.snap.desc.pixBase.toNat (slotSample r m) m k

theorem slotSample_group (r : Running) (m : Memory) {j i : Nat} (hi : i < 9) :
    slotSample r m (9 * j + i) = embeddedSample r.snap.embedMode r.snap.desc m j i := by
  rw [slotSample, show (9 * j + i) / 9 = j by omega, show (9 * j + i) % 9 = i by omega]

/-- The slots written hold the samples of the message's bits (spec/44_lsb_codec.md R244, R245). -/
theorem memRead_embedMem_slot {r : Running} {m : Memory} (h : m.wf = true) {k : Nat}
    (hk : r.snap.desc.pixBase.toNat + k ≤ 2 ^ 32) {j i : Nat} (hi : i < 9) (hji : 9 * j + i < k) :
    memRead (embedMem r m k) (r.snap.desc.pixBase.toNat + (9 * j + i)) =
      embeddedSample r.snap.embedMode r.snap.desc m j i :=
  (memRead_memFill_inside h hk hji).trans (slotSample_group r m hi)

/-- Message byte `j` (spec/44_lsb_codec.md R244). -/
def messageByte (d : Desc) (m : Memory) (j : Nat) : Byte := memRead m (d.msgBase.toNat + j)

/-- The engine begins group `j` of an EMBED, the groups before it written to the pixels. -/
def embedGroup (s : State) (r : Running) (j : Nat) : State := atStage s r (.embedByte j) (embedMem r s.mem (9 * j))

/-- The engine comes to slot `i` of group `j` of an EMBED, the slots before it written. -/
def embedSlot (s : State) (r : Running) (j i : Nat) : State :=
  atStage s r (.embedRead j i (messageByte r.snap.desc s.mem j)) (embedMem r s.mem (9 * j + i))

section EmbedLoop

variable {s : State} {r : Running} (hr : r.abortReq = false) (hm : s.mem.wf = true)
  (hchecks : checksPass r.snap.desc r.snap.desc.msgLen.toNat)
  (hfits : 9 * r.snap.desc.msgLen.toNat ≤ slotCount r.snap.desc)

include hr hchecks hfits in
/-- The checks pass: the first step of EMBED leads to its first byte (spec/44_lsb_codec.md R242, R243). -/
theorem embed_begins : runSteps abortOutLen embedRule 1 (atStage s r .fresh s.mem) = embedGroup s r 0 := by
  obtain ⟨hrange, hoverlap⟩ := hchecks
  rw [runSteps_one hr]
  simp [embedRule, hrange, hoverlap, Nat.not_lt.2 hfits, embedGroup, embedMem, memFill]

include hchecks hfits in
theorem slot_bounds {k : Nat} (hk : k < 9 * r.snap.desc.msgLen.toNat) : r.snap.desc.pixBase.toNat + k < 2 ^ 32 := by
  have := (outOfRange_eq_false.1 hchecks.1).1
  omega

include hr hm hchecks hfits in
/-- Message byte `j` is read as the memory before the command has it, since EMBED writes the pixels alone. -/
theorem embed_reads_byte {j : Nat} (hj : j < r.snap.desc.msgLen.toNat)
    (ha : memAdmits s.params (msgAddr r.snap.desc j) = true) :
    runSteps abortOutLen embedRule 1 (embedGroup s r j) = embedSlot s r j 0 := by
  obtain ⟨hpix, hmsg⟩ := outOfRange_eq_false.1 hchecks.1
  have hbyte : memRead (embedMem r s.mem (9 * j)) (msgAddr r.snap.desc j).toNat = messageByte r.snap.desc s.mem j := by
    rw [msgAddr_toNat (by omega), messageByte]
    refine memRead_memFill_outside hm (by omega) ?_
    by_contra hin
    exact disjoint_of_buffersOverlap hchecks.2 hj
      (k := r.snap.desc.msgBase.toNat + j - r.snap.desc.pixBase.toNat) (by omega) (by omega)
  rw [embedGroup, runSteps_one hr]
  simp [embedRule, hj, dmaRead_atStage ha, hbyte, embedSlot]

include hr hm hchecks hfits in
/-- Slot `i` of group `j` is read and written; the next stage is the next slot or the next group. -/
theorem embed_writes_slot {j i : Nat} (hj : j < r.snap.desc.msgLen.toNat) (hi : i < 9)
    (ha : memAdmits s.params (slotAddr r.snap.desc (9 * j + i)) = true) :
    runSteps abortOutLen embedRule 2 (embedSlot s r j i) =
      if i < 8 then embedSlot s r j (i + 1) else embedGroup s r (j + 1) := by
  have hlt : r.snap.desc.pixBase.toNat + (9 * j + i) < 2 ^ 32 := slot_bounds hchecks hfits (by omega)
  have haddr := slotAddr_toNat hlt
  have hold : memRead (embedMem r s.mem (9 * j + i)) (r.snap.desc.pixBase.toNat + (9 * j + i)) =
      memRead s.mem (r.snap.desc.pixBase.toNat + (9 * j + i)) :=
    memRead_memFill_outside hm (by omega) (.inr le_rfl)
  have hwritten : memWrite (embedMem r s.mem (9 * j + i)) (r.snap.desc.pixBase.toNat + (9 * j + i))
      (slotVal r.snap.embedMode (memRead s.mem (r.snap.desc.pixBase.toNat + (9 * j + i)))
        (carriedBit r.snap.desc.msgLen.toNat j i (messageByte r.snap.desc s.mem j))) = embedMem r s.mem (9 * j + (i + 1)) :=
    congrArg (memWrite _ _) (slotSample_group r s.mem hi).symm
  have hread : runSteps abortOutLen embedRule 1 (embedSlot s r j i) =
      atStage s r (.embedWrite j i (messageByte r.snap.desc s.mem j)
        (memRead s.mem (r.snap.desc.pixBase.toNat + (9 * j + i)))) (embedMem r s.mem (9 * j + i)) := by
    rw [embedSlot, runSteps_one hr]
    simp [embedRule, dmaRead_atStage ha, haddr, hold]
  refine runSteps_then (l := 1) hread ?_
  rw [runSteps_one hr]
  simp only [embedRule, dmaWrite_atStage ha, haddr, hwritten, setProgress_atStage]
  split
  · rfl
  · rw [show i = 8 by omega]; rfl

include hr hm hchecks hfits in
/-- The engine comes to each slot of a group whose message byte and whose slots before it are admitted. -/
theorem embed_reaches_slot {j i : Nat} (hj : j < r.snap.desc.msgLen.toNat) (hi : i < 9)
    (hbyte : memAdmits s.params (msgAddr r.snap.desc j) = true)
    (hslots : ∀ l, l < i → memAdmits s.params (slotAddr r.snap.desc (9 * j + l)) = true) :
    runSteps abortOutLen embedRule (1 + 2 * i) (embedGroup s r j) = embedSlot s r j i := by
  induction i with
  | zero => exact embed_reads_byte hr hm hchecks hfits hj hbyte
  | succ i ih =>
    have hstep := embed_writes_slot hr hm hchecks hfits hj (show i < 9 by omega) (hslots i (by omega))
    rw [if_pos (show i < 8 by omega)] at hstep
    exact runSteps_then (ih (by omega) fun l hl => hslots l (by omega)) hstep

include hr hm hchecks hfits in
/-- The engine comes to each group of an EMBED for which every access before it is admitted. -/
theorem embed_reaches_group {j : Nat} (hj : j ≤ r.snap.desc.msgLen.toNat)
    (hadmits : admitsBuffers s.params r.snap.desc (9 * j) j) :
    runSteps abortOutLen embedRule (1 + 19 * j) (atStage s r .fresh s.mem) = embedGroup s r j := by
  induction j with
  | zero => exact embed_begins hr hchecks hfits
  | succ j ih =>
    obtain ⟨hslots, hbytes⟩ := hadmits
    have hgroup := ih (by omega) ⟨fun k hk => hslots k (by omega), fun l hl => hbytes l (by omega)⟩
    have hlast := embed_reaches_slot hr hm hchecks hfits hj (show 8 < 9 by omega) (hbytes j (by omega))
      fun l hl => hslots _ (by omega)
    have hstep := embed_writes_slot hr hm hchecks hfits hj (show 8 < 9 by omega) (hslots _ (by omega))
    rw [if_neg (by omega)] at hstep
    exact runSteps_then hgroup (runSteps_then hlast hstep rfl)

include hr in
/-- A refused message byte ends EMBED with OUT_LEN at its group (spec/20_memory.md R78, spec/44_lsb_codec.md R246). -/
theorem embed_byte_refused {j : Nat} (hj : j < r.snap.desc.msgLen.toNat)
    (ha : memAdmits s.params (msgAddr r.snap.desc j) = false) :
    runSteps abortOutLen embedRule 1 (embedGroup s r j) = finishOutLen .busError j (embedGroup s r j) := by
  rw [embedGroup, runSteps_one hr]
  simp [embedRule, hj, dmaRead_atStage_refused ha]

include hr in
/-- A refused slot ends EMBED with OUT_LEN at its group (spec/20_memory.md R78, spec/44_lsb_codec.md R246). -/
theorem embed_slot_refused {j i : Nat} (ha : memAdmits s.params (slotAddr r.snap.desc (9 * j + i)) = false) :
    runSteps abortOutLen embedRule 1 (embedSlot s r j i) = finishOutLen .busError j (embedSlot s r j i) := by
  rw [embedSlot, runSteps_one hr]
  simp [embedRule, dmaRead_atStage_refused ha]

end EmbedLoop

/-- Settles O48: the engine comes to the refused access with exactly the slots before it written, and ends there. -/
theorem embedBusError : Obligations.EmbedBusError := by
  unfold Obligations.EmbedBusError
  intro s r g i h hm hrange hoverlap hfits hg hi hslots hbytes hrefused
  have hchecks : checksPass r.snap.desc r.snap.desc.msgLen.toNat := ⟨hrange, hoverlap⟩
  have hlen : r.snap.desc.msgLen.toNat < 2 ^ 32 := r.snap.desc.msgLen.isLt
  have htop : r.snap.desc.pixBase.toNat + (9 * g + i) < 2 ^ 32 := slot_bounds hchecks hfits (by omega)
  have hgroup := embed_reaches_group (s := startTurn s) h.noAbort hm hchecks hfits hg.le
    ⟨fun k hk => hslots k (by omega), hbytes⟩
  obtain ⟨k, p, hk, hend⟩ : ∃ k p, k ≤ 2 ^ 64 ∧ runSteps abortOutLen embedRule k (atStage (startTurn s) r .fresh s.mem) =
      finishOutLen .busError g (atStage (startTurn s) r p (embedMem r s.mem (9 * g + i))) := by
    rcases hrefused with ⟨rfl, hbyte⟩ | ⟨hbyte, hslot⟩
    · exact ⟨1 + 19 * g + 1, _, by omega, runSteps_then hgroup (embed_byte_refused h.noAbort hg hbyte)⟩
    · have hat := embed_reaches_slot (s := startTurn s) h.noAbort hm hchecks hfits hg hi hbyte
        fun l hl => hslots _ (by omega)
      have hturn := runSteps_then hat (embed_slot_refused h.noAbort hslot) rfl
      exact ⟨1 + 19 * g + (1 + 2 * i + 1), _, by omega, runSteps_then hgroup hturn⟩
  exact ⟨_, exec_of_runSteps h hk hend rfl, ⟨rfl, rfl, rfl⟩, sat32_toNat (by omega),
    fun j l hl hjl => memRead_embedMem_slot hm htop.le hl hjl, fun a ha => memRead_memFill_outside hm htop.le ha, rfl⟩

/-! ## EXTRACT (spec/44_lsb_codec.md R248) -/

/-- The bits of group `j` read before slot `i`, put together. -/
def bitsRead (d : Desc) (m : Memory) (j : Nat) : Nat → Byte
  | 0 => 0
  | i + 1 => appendBit (bitsRead d m j i) (memRead m (d.pixBase.toNat + (9 * j + i)))

/-- Memory after an EXTRACT that began with memory `m` has written `k` bytes. -/
def extractMem (r : Running) (m : Memory) (k : Nat) : Memory :=
  memFill r.snap.desc.msgBase.toNat (fun j => bitsRead r.snap.desc m j 8) m k

/-- A bit more moves the bits before it one place up. -/
theorem appendBit_getLsbD (b v : Byte) {l : Nat} (hl : l < 8) :
    (appendBit b v).getLsbD l = if l = 0 then v.getLsbD 0 else b.getLsbD (l - 1) := by
  rcases l with _ | l
  · simp [appendBit]
  · simp [appendBit, hl, BitVec.getLsbD_eq_getElem (show l < 8 by omega)]

theorem bitsRead_getLsbD (d : Desc) (m : Memory) (j : Nat) {n i : Nat} (hi : i < n) (hn : n ≤ 8) :
    (bitsRead d m j n).getLsbD (n - 1 - i) = slotBit d m j i := by
  induction n with
  | zero => omega
  | succ n ih =>
    rw [bitsRead, appendBit_getLsbD _ _ (by omega)]
    by_cases hin : i = n
    · subst hin; simp [slotBit]
    · rw [if_neg (by omega), show n + 1 - 1 - i - 1 = n - 1 - i by omega, ih (by omega) (by omega)]

/-- The eight data slots of a group give the byte it carries (spec/44_lsb_codec.md R244). -/
theorem carriesByte_bitsRead (d : Desc) (m : Memory) (j : Nat) : carriesByte d m j (bitsRead d m j 8) :=
  fun _ hi => bitsRead_getLsbD d m j hi le_rfl

/-- The bytes written are those the groups carry (spec/44_lsb_codec.md R244). -/
theorem carriesByte_extractMem {r : Running} {m : Memory} (h : m.wf = true) {k : Nat}
    (hk : r.snap.desc.msgBase.toNat + k ≤ 2 ^ 32) {j : Nat} (hj : j < k) :
    carriesByte r.snap.desc m j (memRead (extractMem r m k) (r.snap.desc.msgBase.toNat + j)) := by
  rw [extractMem, memRead_memFill_inside h hk hj]
  exact carriesByte_bitsRead r.snap.desc m j

/-- The engine begins group `j` of an EXTRACT, one byte written for each group before it. -/
def extractGroup (s : State) (r : Running) (j : Nat) : State := atStage s r (.extractGroup j j) (extractMem r s.mem j)

/-- The engine comes to slot `i` of group `j` of an EXTRACT. -/
def extractSlot (s : State) (r : Running) (j i : Nat) : State :=
  atStage s r (.extractRead j i j (bitsRead r.snap.desc s.mem j i)) (extractMem r s.mem j)

/-- The engine has read group `j` of an EXTRACT, its marker too. -/
def extractStore (s : State) (r : Running) (j : Nat) : State :=
  atStage s r (.extractStore j j (bitsRead r.snap.desc s.mem j 8) (slotBit r.snap.desc s.mem j 8)) (extractMem r s.mem j)

section ExtractLoop

variable {s : State} {r : Running} (hr : r.abortReq = false) (hm : s.mem.wf = true)
  (hchecks : checksPass r.snap.desc r.snap.desc.msgCap.toNat)

include hr hchecks in
/-- The checks pass: the first step of EXTRACT leads to its first group (spec/44_lsb_codec.md R242, R243). -/
theorem extract_begins : runSteps abortOutLen extractRule 1 (atStage s r .fresh s.mem) = extractGroup s r 0 := by
  obtain ⟨hrange, hoverlap⟩ := hchecks
  rw [runSteps_one hr]
  simp [extractRule, hrange, hoverlap, extractGroup, extractMem, memFill]

include hr in
theorem extract_begins_group {j : Nat} (hj : j < groupCount r.snap.desc) :
    runSteps abortOutLen extractRule 1 (extractGroup s r j) = extractSlot s r j 0 := by
  rw [extractGroup, runSteps_one hr]
  simp [extractRule, hj, extractSlot, bitsRead]

include hr hm hchecks in
/-- A slot is read as the memory before the command has it, since EXTRACT writes the message buffer alone. -/
theorem extract_reads_slot {j i : Nat} (hj : j < groupCount r.snap.desc) (hcap : j ≤ r.snap.desc.msgCap.toNat)
    (hi : i < 9) (ha : memAdmits s.params (slotAddr r.snap.desc (9 * j + i)) = true) :
    runSteps abortOutLen extractRule 1 (extractSlot s r j i) =
      if i < 8 then extractSlot s r j (i + 1) else extractStore s r j := by
  obtain ⟨hpix, hmsg⟩ := outOfRange_eq_false.1 hchecks.1
  have hslot : 9 * j + i < slotCount r.snap.desc := by unfold groupCount at hj; omega
  have hsample : memRead (extractMem r s.mem j) (slotAddr r.snap.desc (9 * j + i)).toNat =
      memRead s.mem (r.snap.desc.pixBase.toNat + (9 * j + i)) := by
    rw [slotAddr_toNat (by omega)]
    refine memRead_memFill_outside hm (by omega) ?_
    by_contra hin
    exact disjoint_of_buffersOverlap hchecks.2
      (j := r.snap.desc.pixBase.toNat + (9 * j + i) - r.snap.desc.msgBase.toNat) (by omega) hslot (by omega)
  rw [extractSlot, runSteps_one hr]
  simp only [extractRule, dmaRead_atStage ha, hsample, setProgress_atStage]
  split
  · rfl
  · rw [show i = 8 by omega]; rfl

include hr hm hchecks in
/-- The engine comes to each slot of a group for which the slots before it are admitted. -/
theorem extract_reaches_slot {j i : Nat} (hj : j < groupCount r.snap.desc) (hcap : j ≤ r.snap.desc.msgCap.toNat)
    (hi : i < 9) (hslots : ∀ l, l < i → memAdmits s.params (slotAddr r.snap.desc (9 * j + l)) = true) :
    runSteps abortOutLen extractRule (1 + i) (extractGroup s r j) = extractSlot s r j i := by
  induction i with
  | zero => exact extract_begins_group hr hj
  | succ i ih =>
    have hstep := extract_reads_slot hr hm hchecks hj hcap (show i < 9 by omega) (hslots i (by omega))
    rw [if_pos (show i < 8 by omega)] at hstep
    exact runSteps_then (ih (by omega) fun l hl => hslots l (by omega)) hstep

include hr hm hchecks in
/-- The engine has read a group whose nine slots are admitted. -/
theorem extract_reaches_store {j : Nat} (hj : j < groupCount r.snap.desc) (hcap : j ≤ r.snap.desc.msgCap.toNat)
    (hslots : ∀ l, l < 9 → memAdmits s.params (slotAddr r.snap.desc (9 * j + l)) = true) :
    runSteps abortOutLen extractRule 10 (extractGroup s r j) = extractStore s r j := by
  have hlast := extract_reaches_slot hr hm hchecks hj hcap (show 8 < 9 by omega) fun l hl => hslots l (by omega)
  have hstep := extract_reads_slot hr hm hchecks hj hcap (show 8 < 9 by omega) (hslots 8 (by omega))
  exact runSteps_then hlast hstep

include hr hchecks in
/-- The byte of a group is written where it fits; the marker says whether another group follows. -/
theorem extract_stores_byte {j : Nat} (hcap : j < r.snap.desc.msgCap.toNat)
    (ha : memAdmits s.params (msgAddr r.snap.desc j) = true) :
    runSteps abortOutLen extractRule 1 (extractStore s r j) =
      if slotBit r.snap.desc s.mem j 8 then atStage s r (.extractDone (j + 1)) (extractMem r s.mem (j + 1))
      else extractGroup s r (j + 1) := by
  have hmsg := (outOfRange_eq_false.1 hchecks.1).2
  have hroom : ¬ j = r.snap.desc.msgCap.toNat := by omega
  rw [extractStore, runSteps_one hr]
  simp only [extractRule, if_neg hroom, dmaWrite_atStage ha, msgAddr_toNat (show r.snap.desc.msgBase.toNat + j < 2 ^ 32 by omega),
    setProgress_atStage]
  split <;> rfl

include hr hm hchecks in
/-- The engine comes to each group of an EXTRACT for which every access before it is admitted and no marker stands before
it. -/
theorem extract_reaches_group {j : Nat} (hj : j ≤ groupCount r.snap.desc) (hcap : j ≤ r.snap.desc.msgCap.toNat)
    (hadmits : admitsBuffers s.params r.snap.desc (9 * j) j)
    (hmarkers : ∀ l, l < j → slotBit r.snap.desc s.mem l 8 = false) :
    runSteps abortOutLen extractRule (1 + 11 * j) (atStage s r .fresh s.mem) = extractGroup s r j := by
  induction j with
  | zero => exact extract_begins hr hchecks
  | succ j ih =>
    obtain ⟨hslots, hbytes⟩ := hadmits
    have hgroup := ih (by omega) (by omega) ⟨fun k hk => hslots k (by omega), fun l hl => hbytes l (by omega)⟩
      fun l hl => hmarkers l (by omega)
    have hread := extract_reaches_store hr hm hchecks hj (by omega) fun l hl => hslots _ (by omega)
    have hstep := extract_stores_byte hr hchecks hcap (hbytes j (by omega))
    rw [hmarkers j (by omega)] at hstep
    exact runSteps_then hgroup (runSteps_then hread hstep rfl)

include hr in
/-- A refused slot ends EXTRACT with OUT_LEN at the bytes written (spec/20_memory.md R78, spec/44_lsb_codec.md R248). -/
theorem extract_slot_refused {j i : Nat} (ha : memAdmits s.params (slotAddr r.snap.desc (9 * j + i)) = false) :
    runSteps abortOutLen extractRule 1 (extractSlot s r j i) = finishOutLen .busError j (extractSlot s r j i) := by
  rw [extractSlot, runSteps_one hr]
  simp [extractRule, dmaRead_atStage_refused ha]

include hr in
/-- A refused destination ends EXTRACT with OUT_LEN at the bytes written (spec/20_memory.md R78, spec/44_lsb_codec.md
R248). -/
theorem extract_store_refused {j : Nat} (hcap : j < r.snap.desc.msgCap.toNat)
    (ha : memAdmits s.params (msgAddr r.snap.desc j) = false) :
    runSteps abortOutLen extractRule 1 (extractStore s r j) = finishOutLen .busError j (extractStore s r j) := by
  rw [extractStore, runSteps_one hr]
  simp [extractRule, dmaWrite_atStage_refused ha, Nat.ne_of_lt hcap]

end ExtractLoop

/-- Settles O51: the engine comes to the refused access with exactly the bytes of the groups before it written, and ends
there. -/
theorem extractBusError : Obligations.ExtractBusError := by
  unfold Obligations.ExtractBusError
  intro s r g h hm hrange hoverlap hg hcap hmarkers hbytes hrefused
  have hchecks : checksPass r.snap.desc r.snap.desc.msgCap.toNat := ⟨hrange, hoverlap⟩
  have hlen : r.snap.desc.msgCap.toNat < 2 ^ 32 := r.snap.desc.msgCap.isLt
  have htop : r.snap.desc.msgBase.toNat + g ≤ 2 ^ 32 := by
    have := (outOfRange_eq_false.1 hrange).2
    omega
  have hgroup (hslots : ∀ k, k < 9 * g → memAdmits s.params (slotAddr r.snap.desc k) = true) :=
    extract_reaches_group (s := startTurn s) h.noAbort hm hchecks hg.le hcap ⟨hslots, hbytes⟩ hmarkers
  obtain ⟨k, p, hk, hend⟩ : ∃ k p, k ≤ 2 ^ 64 ∧
      runSteps abortOutLen extractRule k (atStage (startTurn s) r .fresh s.mem) =
        finishOutLen .busError g (atStage (startTurn s) r p (extractMem r s.mem g)) := by
    rcases hrefused with ⟨i, hi, hslots, hslot⟩ | ⟨hroom, hslots, hbyte⟩
    · have hat := extract_reaches_slot (s := startTurn s) h.noAbort hm hchecks hg hcap hi fun l hl => hslots _ (by omega)
      have hturn := runSteps_then hat (extract_slot_refused h.noAbort hslot) rfl
      exact ⟨1 + 11 * g + (1 + i + 1), _, by omega, runSteps_then (hgroup fun k hk => hslots k (by omega)) hturn⟩
    · have hat := extract_reaches_store (s := startTurn s) h.noAbort hm hchecks hg hcap fun l hl => hslots _ (by omega)
      have hturn := runSteps_then hat (extract_store_refused h.noAbort hroom hbyte) rfl
      exact ⟨1 + 11 * g + (10 + 1), _, by omega, runSteps_then (hgroup fun k hk => hslots k (by omega)) hturn⟩
  exact ⟨_, exec_of_runSteps h hk hend rfl, ⟨rfl, rfl, rfl⟩, sat32_toNat (by omega),
    fun j hj => carriesByte_extractMem hm htop hj, fun a ha => memRead_memFill_outside hm htop ha, rfl, rfl, rfl, rfl,
    sameSetting.refl s⟩

end Sys2Proof.Machine
end

section
/-! Command words: their fields, what the decoder makes of them, the table of matches and masks, and illegal words
(spec/30_encoding.md R101 to R109). -/

namespace Sys2Proof.Machine

open Sys2Proof.Laws

/-! ## The fields of a word (spec/30_encoding.md R101, R109) -/

section Fields

variable (opc : BitVec 8) (rd ra rb rc : Reg)

@[simp] theorem opcField_packWord : opcField (packWord opc rd ra rb rc) = opc := by
  rw [opcField, packWord, BitVec.extractLsb'_append_eq_right]

@[simp] theorem regField_packWord :
    regField 8 (packWord opc rd ra rb rc) = rd ∧ regField 11 (packWord opc rd ra rb rc) = ra ∧
      regField 14 (packWord opc rd ra rb rc) = rb ∧ regField 17 (packWord opc rd ra rb rc) = rc := by
  unfold regField packWord
  refine ⟨?_, ?_, ?_, ?_⟩
  all_goals
    repeat rw [BitVec.extractLsb'_append_eq_of_le (by decide)]
    rw [BitVec.extractLsb'_append_eq_right]
    exact Fin.ofNat_val_eq_self _

@[simp] theorem rsvdField_packWord : rsvdField (packWord opc rd ra rb rc) = 0 := by
  rw [rsvdField, packWord]
  repeat rw [BitVec.extractLsb'_append_eq_of_le (by decide)]
  exact BitVec.extractLsb'_eq_self

/-- The word put together from fields is their shifts put together (spec/30_encoding.md R109). -/
theorem packWord_eq_shiftedWord : packWord opc rd ra rb rc = shiftedWord opc.toNat rd ra rb rc := by
  have hnat : (packWord opc rd ra rb rc).toNat =
      opc.toNat ||| rd.val <<< 8 ||| ra.val <<< 11 ||| rb.val <<< 14 ||| rc.val <<< 17 := by
    unfold packWord
    repeat rw [BitVec.toNat_append]
    simp only [BitVec.toNat_ofNat, Nat.zero_mod, Nat.zero_shiftLeft, Nat.zero_or, BitVec.ofNat_finVal,
      BitVec.toNat_ofFin, Nat.shiftLeft_or_distrib, ← Nat.shiftLeft_add, Nat.reduceAdd]
    ac_rfl
  rw [shiftedWord, ← hnat, BitVec.ofNat_toNat, BitVec.setWidth_eq]

end Fields

theorem ofNat_regField (lo : Nat) (w : Word) : BitVec.ofNat 3 (regField lo w).val = w.extractLsb' lo 3 := by
  rw [regField, BitVec.val_toFin, BitVec.ofNat_toNat, BitVec.setWidth_eq]

theorem regField_inj {lo lo' : Nat} {w : Word} :
    regField lo w = regField lo' w ↔ w.extractLsb' lo 3 = w.extractLsb' lo' 3 := BitVec.toFin_inj

/-- A word whose RSVD is 0 is its other fields put together (spec/30_encoding.md R101). -/
theorem packWord_fields {w : Word} (h : rsvdField w = 0) :
    packWord (opcField w) (regField 8 w) (regField 11 w) (regField 14 w) (regField 17 w) = w := by
  rw [packWord, ← show rsvdField w = 0#12 from h]
  simp only [ofNat_regField, opcField, rsvdField]
  repeat rw [BitVec.extractLsb'_append_extractLsb'_eq_extractLsb' (by rfl)]
  exact BitVec.extractLsb'_eq_self

/-! ## The decoder and the encoder are inverse (spec/30_encoding.md R105) -/

theorem decode_packWord (opc : BitVec 8) (rd ra rb rc : Reg) :
    decode (packWord opc rd ra rb rc) = decodeFields opc rd ra rb rc := by
  simp [decode]

theorem decode_encode {i : Instr} (h : i.wf = true) : decode (encode i) = .command i := by
  cases i with
  | genpqr rd ra rb =>
    rw [encode, decode_packWord]
    exact if_pos h
  | _ => rw [encode, decode_packWord]; rfl

theorem withUnused_eq_command {unused : List Reg} {i j : Instr} :
    withUnused unused i = .command j ↔ (∀ r ∈ unused, r = 0) ∧ i = j := by
  rw [withUnused, ite_eq_iff]
  simp

theorem encode_of_withUnused {unused : List Reg} {i j : Instr} {w : Word} (h : withUnused unused j = .command i)
    (hwf : j.wf = true) (hword : (∀ r ∈ unused, r = 0) → encode j = w) : i.wf = true ∧ encode i = w := by
  obtain ⟨hunused, rfl⟩ := withUnused_eq_command.1 h
  exact ⟨hwf, hword hunused⟩

/-- What the opcode map reads from fields is a well-formed command whose word has these fields. -/
theorem encode_of_decodeFields {opc : BitVec 8} {rd ra rb rc : Reg} {i : Instr}
    (h : decodeFields opc rd ra rb rc = .command i) : i.wf = true ∧ encode i = packWord opc rd ra rb rc := by
  unfold decodeFields at h
  iterate 10
    rw [ite_eq_iff] at h
    rcases h with ⟨rfl, h⟩ | ⟨-, h⟩
    · exact encode_of_withUnused h rfl (by simp +contextual [encode])
  rw [ite_eq_iff] at h
  rcases h with ⟨rfl, h⟩ | ⟨-, h⟩
  · rw [ite_eq_iff] at h
    rcases h with ⟨hwf, h⟩ | ⟨-, h⟩
    · exact encode_of_withUnused h hwf (by simp +contextual [encode])
    · cases h
  iterate 2
    rw [ite_eq_iff] at h
    rcases h with ⟨rfl, h⟩ | ⟨-, h⟩
    · exact encode_of_withUnused h rfl (by simp +contextual [encode])
  cases h

theorem encode_of_decode {w : Word} {i : Instr} (h : decode w = .command i) : i.wf = true ∧ encode i = w := by
  unfold decode at h
  split at h
  next hrsvd => exact packWord_fields hrsvd ▸ encode_of_decodeFields h
  next => cases h

theorem decode_eq_command {w : Word} {i : Instr} : decode w = .command i ↔ i.wf = true ∧ encode i = w :=
  ⟨encode_of_decode, fun ⟨hwf, hw⟩ => hw ▸ decode_encode hwf⟩

/-- Settles O1: the decoder reads the fields the encoder packed. -/
theorem decodeEncodeRoundTrip : Obligations.DecodeEncodeRoundTrip := fun _ => decode_encode

/-- Settles O2: the row the decoder takes leaves no field of the word free. -/
theorem encodeDecodeRoundTrip : Obligations.EncodeDecodeRoundTrip := fun _ _ => encode_of_decode

/-! ## The table of matches and masks (spec/30_encoding.md R105 to R107) -/

/-- A field under a mask's ones is the field of the match. -/
theorem extract_of_masked {w mask m : Word} {lo n : Nat} (h : w &&& mask = m)
    (hmask : mask.extractLsb' lo n = .allOnes n) : w.extractLsb' lo n = m.extractLsb' lo n := by
  rw [← h, BitVec.extractLsb'_and, hmask, BitVec.and_allOnes]

/-- The register field of a word that a row's mask leaves open; 0 where the mask tests it. -/
def openField (mask w : Word) (lo : Nat) : Reg := if mask.extractLsb' lo 3 = .allOnes 3 then 0 else regField lo w

theorem regField_of_masked {w mask m : Word} {lo : Nat} (h : w &&& mask = m) (hm : regField lo m = 0) :
    openField mask w lo = regField lo w := by
  unfold openField
  split
  next hmask => rw [← hm, regField, regField, extract_of_masked h hmask]
  next => rfl

/-- A word that passes a row's test is the row's opcode with the fields the mask leaves open. -/
theorem packWord_of_masked (opc : BitVec 8) {w mask : Word} (h : w &&& mask = packWord opc 0 0 0 0)
    (hopc : opcField mask = .allOnes 8) (hrsvd : rsvdField mask = .allOnes 12) :
    packWord opc (openField mask w 8) (openField mask w 11) (openField mask w 14) (openField mask w 17) = w := by
  have hopcode : opcField w = opc := (extract_of_masked h hopc).trans (opcField_packWord ..)
  have hreserved : rsvdField w = 0 := (extract_of_masked h hrsvd).trans (rsvdField_packWord ..)
  obtain ⟨hd, ha, hb, hc⟩ := regField_packWord opc 0 0 0 0
  rw [regField_of_masked h hd, regField_of_masked h ha, regField_of_masked h hb, regField_of_masked h hc, ← hopcode,
    packWord_fields hreserved]

theorem encode_masked (i : Instr) : encode i &&& MatchMask.tableMask i = MatchMask.tableMatch i := by
  cases i with
  | nop => exact MatchMask.nop
  | clr rd => exact MatchMask.clr rd
  | modexp rd ra rb rc => exact MatchMask.modexp rd ra rb rc
  | modmul rd ra rb rc => exact MatchMask.modmul rd ra rb rc
  | montmul rd ra rb rc => exact MatchMask.montmul rd ra rb rc
  | egcd rd ra rb => exact MatchMask.egcd rd ra rb
  | modinv rd ra rb => exact MatchMask.modinv rd ra rb
  | primetest ra => exact MatchMask.primetest ra
  | genprime rd => exact MatchMask.genprime rd
  | genrand rd => exact MatchMask.genrand rd
  | genpqr rd ra rb => exact MatchMask.genpqr rd ra rb
  | embed => exact MatchMask.embed
  | extract => exact MatchMask.extract

theorem row_mem_tableRows (i : Instr) : (MatchMask.tableMatch i, MatchMask.tableMask i) ∈ tableRows := by
  cases i <;> simp [tableRows, MatchMask.tableMatch, MatchMask.tableMask]

/-- The words that pass a row of the table are those of the commands, well formed or not. -/
theorem passesRow_iff {w : Word} : (∃ row ∈ tableRows, w &&& row.2 = row.1) ↔ ∃ i, encode i = w := by
  constructor
  · rintro ⟨row, hmem, h⟩
    simp only [tableRows, List.mem_cons, List.not_mem_nil, or_false] at hmem
    rcases hmem with rfl | rfl | rfl | rfl | rfl | rfl | rfl | rfl | rfl | rfl | rfl | rfl | rfl
    · exact ⟨.nop, (packWord_of_masked 0x00 h rfl rfl :)⟩
    · exact ⟨.clr _, (packWord_of_masked 0x01 h rfl rfl :)⟩
    · exact ⟨.modexp _ _ _ _, (packWord_of_masked 0x10 h rfl rfl :)⟩
    · exact ⟨.modmul _ _ _ _, (packWord_of_masked 0x11 h rfl rfl :)⟩
    · exact ⟨.montmul _ _ _ _, (packWord_of_masked 0x12 h rfl rfl :)⟩
    · exact ⟨.egcd _ _ _, (packWord_of_masked 0x18 h rfl rfl :)⟩
    · exact ⟨.modinv _ _ _, (packWord_of_masked 0x19 h rfl rfl :)⟩
    · exact ⟨.primetest _, (packWord_of_masked 0x20 h rfl rfl :)⟩
    · exact ⟨.genprime _, (packWord_of_masked 0x28 h rfl rfl :)⟩
    · exact ⟨.genrand _, (packWord_of_masked 0x29 h rfl rfl :)⟩
    · exact ⟨.genpqr _ _ _, (packWord_of_masked 0x2A h rfl rfl :)⟩
    · exact ⟨.embed, (packWord_of_masked 0x30 h rfl rfl :)⟩
    · exact ⟨.extract, (packWord_of_masked 0x31 h rfl rfl :)⟩
  · rintro ⟨i, rfl⟩
    exact ⟨_, row_mem_tableRows i, encode_masked i⟩

/-- Only GENPQR passes the test of GENPQR's row, and is well formed where its destinations differ
(spec/30_encoding.md R107). -/
theorem genpqrCondition_iff_wf {i : Instr} {w : Word} (hw : encode i = w) :
    (w &&& 0xFFFE00FF = 0x0000002A →
      w.extractLsb' 8 3 ≠ w.extractLsb' 11 3 ∧ w.extractLsb' 8 3 ≠ w.extractLsb' 14 3 ∧
        w.extractLsb' 11 3 ≠ w.extractLsb' 14 3) ↔ i.wf = true := by
  subst hw
  have hopc (h : encode i &&& 0xFFFE00FF = 0x0000002A) : opcField (encode i) = 0x2A := extract_of_masked (n := 8) h rfl
  simp only [ne_eq, ← regField_inj]
  cases i with
  | genpqr rd ra rb =>
    have hrow : encode (.genpqr rd ra rb) &&& 0xFFFE00FF = 0x0000002A := encode_masked (.genpqr rd ra rb)
    rw [forall_prop_of_true hrow]
    simp [encode, Instr.wf, and_assoc]
  | _ => exact ⟨fun _ => rfl, fun _ h => absurd (hopc h) (by simp [encode])⟩

/-- Settles O3: the words that pass a row are the commands' words, of which the decoder reads the well-formed ones. -/
theorem legalExactlyByTable : Obligations.LegalExactlyByTable := by
  unfold Obligations.LegalExactlyByTable
  simp only [decode_eq_command, passesRow_iff]
  refine ⟨fun w => ⟨?_, ?_⟩, fun w => ?_⟩
  · rintro ⟨i, hwf, rfl⟩
    exact ⟨⟨i, rfl⟩, (genpqrCondition_iff_wf rfl).2 hwf⟩
  · rintro ⟨⟨i, rfl⟩, hdiffer⟩
    exact ⟨i, (genpqrCondition_iff_wf rfl).1 hdiffer, rfl⟩
  · exact ⟨fun ⟨_, hw⟩ => hw.symm, fun hw => ⟨rfl, hw.symm⟩⟩

/-- Settles O4: the decoder run on each word. -/
theorem specWordsDecode : Obligations.SpecWordsDecode := by
  unfold Obligations.SpecWordsDecode
  decide

/-- Settles O5: each word is packed from its command's fields. -/
theorem wordFromShiftedFields : Obligations.WordFromShiftedFields := by
  unfold Obligations.WordFromShiftedFields
  refine ⟨fun rd ra rb rc => ?_, fun rd ra rb => ?_, fun r => ?_, rfl, rfl, rfl⟩
  · refine ⟨?_, ?_, ?_⟩ <;> exact packWord_eq_shiftedWord ..
  · refine ⟨?_, ?_, ?_⟩ <;> exact packWord_eq_shiftedWord ..
  · refine ⟨?_, ?_, ?_, ?_⟩ <;> exact packWord_eq_shiftedWord ..

/-! ## Illegal words (spec/30_encoding.md R108) -/

/-- An illegal word names no source and no buffer, so a machine that is idle takes it. -/
theorem writeReg_cmd_illegal {s : State} {w : Word} {why : Illegal} (hw : decode w = .illegal why)
    (hidle : s.run = none) : writeReg .cmd w s = .next (takeCommand w s) := by
  have hsources : unwrittenOperand w s = none := by rw [unwrittenOperand, hw]
  have hbuffers : storesPending (ownedRanges w s.desc) s = false := by simp [ownedRanges, hw, storesPending, inRanges]
  rw [writeReg, guarded_idle hidle, issue, hsources]
  simp [hbuffers]

/-- With no move of the host due, the step of a running engine is the engine's turn. -/
theorem step_engineTurn {s : State} {r : Running} (hr : s.run = some r) (hturn : 0 < engineTurns s.inbox) :
    step s = engineTurn r s := by
  simp [step, hr, hostArrived, Nat.ne_of_gt hturn]

/-- Settles O8: an illegal word passes the checks of its acceptance, and its turn is a finish. -/
theorem illegalWordCompletes : Obligations.IllegalWordCompletes := by
  unfold Obligations.IllegalWordCompletes
  refine ⟨fun s w why hw hidle => ?_, fun s r why hr hw hturn => ?_⟩
  · exact ⟨_, writeReg_cmd_illegal hw hidle, rfl, _, takeCommand_run s w, rfl⟩
  · refine ⟨runIllegal s, ?_, ⟨rfl, rfl, rfl⟩, ⟨rfl, rfl, rfl, rfl, rfl⟩, sameSetting.refl s, rfl⟩
    rw [step_engineTurn hr hturn, engineTurn, hw]

end Sys2Proof.Machine
end

section
/-! The acceptance of a command, the step that runs it, the words the host writes into the big registers, and the two
housekeeping commands (spec/40_system.md R130 to R134). -/

namespace Sys2Proof.Machine

/-! ## The step (spec/40_system.md R131) -/

/-- With no move of the host due, the step of an engine running a command is that command's meaning. -/
theorem step_exec {s : State} {r : Running} {i : Instr} (hr : s.run = some r) (hturn : 0 < engineTurns s.inbox)
    (hi : decode r.word = .command i) : step s = exec i s := by
  rw [step_engineTurn hr hturn, engineTurn, hi]

/-- A host whose moves are put off leaves the engine a turn of full length. -/
theorem engineTurns_hostWaits (l : List HostEvent) : engineTurns (hostWaits l) = Config.maxEngineSteps := by
  cases l <;> rfl

theorem decodeTableWord_eq_some {nbits w : Nat} {i : Instr} :
    decodeTableWord nbits w = some i ↔ decode (tableWord nbits w) = .command i := by
  unfold decodeTableWord
  cases decode (tableWord nbits w) <;> simp

/-- Settles O6: no host move is due in either case, and the placed word is the one that was decoded. -/
theorem stepRunsDecodedCommand : Obligations.StepRunsDecodedCommand := by
  unfold Obligations.StepRunsDecodedCommand
  refine ⟨fun s r i => step_exec, fun s nbits w i hi => ?_⟩
  have hturn : 0 < engineTurns (s.withFetchWord nbits w).inbox := by
    rw [State.withFetchWord, takeCommand_inbox, engineTurns_hostWaits]
    exact Nat.two_pow_pos 100
  exact step_exec (takeCommand_run _ _) hturn (decodeTableWord_eq_some.1 hi)

/-! ## Acceptance (spec/40_system.md R130) -/

/-- A word all of whose source words are written is issued without the fault UnwrittenRead (spec/60_exceptions.md R298). -/
theorem unwrittenOperand_eq_none {w : Word} {s : State}
    (h : ∀ i, decode w = .command i → ∀ k ∈ sources i, ∀ x ∈ s.bigs[k], x.written = true) :
    unwrittenOperand w s = none := by
  unfold unwrittenOperand
  split
  next i hi =>
    refine Option.eq_none_iff_forall_ne_some.2 fun p hp => ?_
    obtain ⟨hk, x, hx, hw⟩ := unwrittenSource_eq_some hp
    simpa [hw] using h i hi p.1 hk x (List.mem_of_getElem? hx)
  next => rfl

/-- Stores are not pending where none that is not performed lies in the buffers. -/
theorem storesPending_eq_false {ranges : List (Nat × Nat)} {s : State}
    (h : s.params.dmaCoherent = false →
      ∀ c ∈ s.cache, c.copy = .dirty ∨ c.copy = .lost → inRanges ranges c.addr.toNat = false) :
    storesPending ranges s = false := by
  refine Bool.eq_false_iff.2 fun hp => ?_
  obtain ⟨hc, c, hmem, hcopy, hin⟩ := storesPending_eq_true.1 hp
  simpa [hin] using h hc c hmem (unperformed_iff.1 hcopy)

/-- The acceptance keeps the address and the byte of every copy in the host's caches. -/
theorem takeCommand_cache_data (w : Word) (s : State) :
    (takeCommand w s).cache.map (fun c => (c.addr, c.byte)) = s.cache.map (fun c => (c.addr, c.byte)) := by
  rw [takeCommand_cache]
  split
  · rfl
  · simp [handOver_data]

/-- While idle a CMD write that breaks no rule of its acceptance is accepted. -/
theorem writeReg_cmd_accepted {s : State} {w : Word} (hidle : s.run = none)
    (hsrc : ∀ i, decode w = .command i → ∀ k ∈ sources i, ∀ x ∈ s.bigs[k], x.written = true)
    (hbuf : s.params.dmaCoherent = false →
      ∀ c ∈ s.cache, c.copy = .dirty ∨ c.copy = .lost → inRanges (ownedRanges w s.desc) c.addr.toNat = false) :
    writeReg .cmd w s = .next (takeCommand w s) := by
  rw [writeReg, guarded_idle hidle, issue, unwrittenOperand_eq_none hsrc]
  simp [storesPending_eq_false hbuf]

/-- CMD lies at BASE + 0x010 (spec/10_state.md R25). -/
theorem mmioWrite_cmd (s : State) (w : Word) :
    hostMove (.mmioWrite (s.params.base + 0x010) 4 w) s = writeReg .cmd w s :=
  mmioWrite_base_add s w (by decide) (by decide)

/-- The step of an idle machine, or of one whose next host move has arrived, is that move. -/
theorem step_hostMove {s : State} {a : Arrival} {m : HostMove} {rest : List HostEvent}
    (hinbox : s.inbox = ⟨a, m⟩ :: rest)
    (h : s.run = none ∨ a = .after 0) : step s = hostMove m { s with inbox := rest } := by
  have hhost : step s = hostStep s := by
    rcases h with hidle | rfl
    · rw [step, hidle]
    · have harrived : hostArrived s = true := by rw [hostArrived, hinbox]; rfl
      unfold step
      split
      · rfl
      · rw [if_pos harrived]
  rw [hhost, hostStep, hinbox]

/-- Settles O13: the checks of the acceptance pass, and the guard drops the write while BUSY. -/
theorem cmdWriteAccepted : Obligations.CmdWriteAccepted := by
  unfold Obligations.CmdWriteAccepted
  refine ⟨fun s a rest w hidle hinbox hsrc hbuf => ?_, fun s r rest w hr hinbox => ?_⟩
  · refine ⟨(takeCommand w s).cache, ?_, fun hc => ?_, takeCommand_cache_data w s⟩
    · exact (step_hostMove hinbox (.inl hidle)).trans
        ((mmioWrite_cmd _ w).trans (writeReg_cmd_accepted (s := { s with inbox := rest }) hidle hsrc hbuf))
    · rw [takeCommand_cache, if_pos hc]
  · have hbusy : busy { s with inbox := rest } = true := by simp [busy, hr]
    exact (step_hostMove hinbox (.inr rfl)).trans ((mmioWrite_cmd _ w).trans (guarded_busy hbusy _))

/-! ## Words of the big registers (spec/40_system.md R134) -/

theorem setBigWord_get_other {k l : Reg} (h : l ≠ k) (i : Nat) (v : Word) (s : State) :
    (setBigWord k i v s).bigs[l] = s.bigs[l] := by
  have : k.val ≠ l.val := fun e => h (Fin.ext e.symm)
  simp [this]

/-- The host's write sets one word of its register and marks it written. -/
theorem setBigWord_get_same (k : Reg) (i : Nat) (v : Word) (s : State) :
    (setBigWord k i v s).bigs[k] = s.bigs[k].set i ⟨v, true⟩ := by
  simp

/-- Settles O16: the write is `setBigWord`, or dropped while BUSY, and the read there finds the word written. -/
theorem bigWordWriteThenRead : Obligations.BigWordWriteThenRead := by
  unfold Obligations.BigWordWriteThenRead
  refine ⟨fun s k i v hidle hinv hi => ?_, fun s r k i v hr hi => ?_⟩
  · let t : State := setBigWord k i v s
    have hi' : i < 1024 := hi.trans_le (opwWords_le s.params)
    have hlen : i < s.bigs[k].length := by rw [hinv.bigs_sized k]; exact hi
    have hword : t.bigs[k][i]? = some ⟨v, true⟩ := by
      rw [setBigWord_get_same, List.getElem?_set_self hlen]
    refine ⟨t, ?_, ?_, hword, fun j hj => ?_, fun l hl => setBigWord_get_other hl i v s, rfl⟩
    · rw [mmioWrite_wordAddr s k hi', writeReg, if_pos hi, guarded_idle hidle]
    · have hread : readReg (.bigWord k i) t = .ok v := (readReg_bigWord (s := t) hi hword).trans rfl
      exact (mmioRead_wordAddr t k hi').trans (hostRead_eq_next.2 ⟨v, hread, rfl⟩)
    · rw [setBigWord_get_same, List.getElem?_set_ne hj.symm]
  · have hbusy : busy s = true := by simp [busy, hr]
    rw [mmioWrite_wordAddr s k (hi.trans_le (opwWords_le s.params)), writeReg, if_pos hi, guarded_busy hbusy]

/-! ## NOP and CLR (spec/40_system.md R132, R133) -/

/-- A command whose rule completes at its first step, with nobody to abort it, is that step. -/
theorem exec_of_completes {i : Instr} {s : State} {r : Running} (h : s.EngineToMove r)
    (hc : (commandRule i r (startTurn s)).run = none) : exec i s = .next (commandRule i r (startTurn s)) := by
  rw [exec_eq_runCommand, runCommand_of_completes h hc]

/-- Settles O29: NOP's one step is a finish. -/
theorem nopCompletes : Obligations.NopCompletes := by
  unfold Obligations.NopCompletes
  intro s r h
  exact ⟨_, exec_of_completes h rfl, ⟨rfl, rfl, rfl⟩, ⟨rfl, rfl, rfl, rfl, rfl⟩, sameSetting.refl s, rfl⟩

/-- Every word of a register that holds 0 is 0. -/
theorem value_of_mem_bigOfNat_zero {n : Nat} {x : BigWord} (hx : x ∈ bigOfNat n 0) : x.value = 0 := by
  induction n with
  | zero => cases hx
  | succ n ih =>
    rcases List.mem_cons.1 hx with rfl | hx
    · rfl
    · exact ih (by simpa using hx)

/-- Settles O30: CLR's one step is a finish over Bd set to 0. -/
theorem clrCompletes : Obligations.ClrCompletes := by
  unfold Obligations.ClrCompletes
  intro s r rd h
  let t : State := finish .ok (setBig rd 0 (startTurn s))
  have hrd : t.bigs[rd] = bigOfNat s.params.opwWords 0 := (setBig_get rd rd 0 _).trans (if_pos rfl)
  refine ⟨t, exec_of_completes h rfl, ⟨rfl, rfl, rfl⟩, ?_, fun x hx => ?_, fun k hk => ?_, rfl, rfl, rfl, rfl,
    sameSetting.refl s, rfl⟩
  · rw [hrd, bigOfNat_length]
  · rw [hrd] at hx
    exact ⟨value_of_mem_bigOfNat_zero hx, bigOfNat_written _ _ x hx⟩
  · exact (setBig_get rd k 0 _).trans (if_neg hk)

end Sys2Proof.Machine
end

section
/-! A completion with an error writes no result: each engine step of a command leaves the destination registers, PRIME and
NEG as they were, or completes with OK (spec/40_system.md R131, spec/60_exceptions.md R294). -/

namespace Sys2Proof.Machine

/-! ## Results, and the finish that may write them -/

/-- No destination register and neither PRIME nor NEG has been written. -/
def noResult (s t : State) : Prop := t.bigs = s.bigs ∧ t.prime = s.prime ∧ t.neg = s.neg

/-- A result has been written only by a completion with OK. -/
def resultOnlyWithOk (s t : State) : Prop := completed .ok t ∨ noResult s t

theorem noResult.trans {s t u : State} (h : noResult s t) (h' : noResult t u) : noResult s u := by
  obtain ⟨hb, hp, hn⟩ := h
  obtain ⟨gb, gp, gn⟩ := h'
  exact ⟨gb.trans hb, gp.trans hp, gn.trans hn⟩

theorem noResult.resultOnlyWithOk {s t u : State} (h : noResult s t) (h' : resultOnlyWithOk t u) : resultOnlyWithOk s u :=
  h'.imp_right h.trans

theorem Continues.noResult {s t : State} (h : Continues s t) : noResult s t := by
  obtain ⟨hb, hp, hn, -, -⟩ := h.results
  exact ⟨hb, hp, hn⟩

/-- Any result may be written with OK. -/
theorem finish_ok_resultOnlyWithOk (s t : State) : resultOnlyWithOk s (finish .ok t) := .inl ⟨rfl, rfl, rfl⟩

theorem finish_noResult (c : ErrCode) (s : State) : noResult s (finish c s) := ⟨rfl, rfl, rfl⟩

/-- ATTEMPTS is a count and no result of this kind. -/
theorem finishAttempts_noResult (c : ErrCode) (n : Nat) (s : State) : noResult s (finishAttempts c n s) :=
  ⟨rfl, rfl, rfl⟩

theorem commandAbort_noResult (i : Instr) (s : State) : noResult s (commandAbort i s) := by
  cases i <;> exact ⟨rfl, rfl, rfl⟩

theorem resultOnlyWithOk.ite {c : Prop} [Decidable c] {s t u : State} (h : resultOnlyWithOk s t)
    (h' : resultOnlyWithOk s u) : resultOnlyWithOk s (if c then t else u) := by
  split
  · exact h
  · exact h'

/-! ## One step of each rule -/

theorem primetestRule_resultOnlyWithOk (ra : Reg) (r : Running) (s : State) :
    resultOnlyWithOk s (primetestRule ra r s) := by
  unfold primetestRule
  dsimp only
  split
  · exact finish_ok_resultOnlyWithOk s _
  · exact .inr ((fermatAfter_continues _ _ _ s).trans (setProgress_continues _ _)).noResult

theorem genprimeRule_resultOnlyWithOk (rd : Reg) (r : Running) (s : State) :
    resultOnlyWithOk s (genprimeRule rd r s) := by
  unfold genprimeRule
  dsimp only
  split
  next st _ =>
    refine (primeAfter_continues r.snap.desc st s).noResult.resultOnlyWithOk ?_
    split
    · exact .inr (setProgress_continues _ _).noResult
    · exact finish_ok_resultOnlyWithOk _ _
    · exact .inr (finishAttempts_noResult _ _ _)
  next => exact .ite (.inr (setProgress_continues _ s).noResult) (.inr (finishAttempts_noResult _ _ s))

theorem genrandRule_resultOnlyWithOk (rd : Reg) (r : Running) (s : State) :
    resultOnlyWithOk s (genrandRule rd r s) := by
  unfold genrandRule
  dsimp only
  split
  · exact .inr ((afterDraw_continues s).trans (setProgress_continues _ _)).noResult
  · exact finish_ok_resultOnlyWithOk s _
  · exact .ite (.inr (setProgress_continues _ s).noResult) (.inr (finish_noResult _ s))

theorem pqrRule_resultOnlyWithOk (rd ra rb : Reg) (d : Desc) (outer total : Nat) (st : PqrStage) (s : State) :
    resultOnlyWithOk s (pqrRule rd ra rb d outer total st s) := by
  cases st with
  | round => exact .ite (.inr (setProgress_continues _ s).noResult) (.inr (finishAttempts_noResult _ _ s))
  | prime ps =>
    unfold pqrRule
    dsimp only
    refine (primeAfter_continues d ps s).noResult.resultOnlyWithOk (.inr ?_)
    split
    · exact (setProgress_continues _ _).noResult
    · exact (setProgress_continues _ _).noResult
    · exact finishAttempts_noResult _ _ _
  | qLength | qValue | rLength | rValue => exact .inr ⟨rfl, rfl, rfl⟩
  | judge => exact .ite (finish_ok_resultOnlyWithOk s _) (.inr (setProgress_continues _ s).noResult)

theorem genpqrRule_resultOnlyWithOk (rd ra rb : Reg) (r : Running) (s : State) :
    resultOnlyWithOk s (genpqrRule rd ra rb r s) := by
  unfold genpqrRule
  dsimp only
  split
  · exact pqrRule_resultOnlyWithOk rd ra rb _ _ _ _ s
  · exact .ite (.inr (setProgress_continues _ s).noResult) (.inr (finishAttempts_noResult _ _ s))

/-- The results of a codec command are OUT_LEN and memory. -/
theorem commandRule_codec_noResult {i : Instr} (hi : i = .embed ∨ i = .extract) (r : Running) (s : State) :
    noResult s (commandRule i r s) := by
  have hf := (commandRule_goesOnOrCompletes i r s).keepsFrame
  refine ⟨Vector.ext fun k hk => hf.bigs ⟨k, hk⟩ ?_, hf.prime ?_, hf.neg ?_⟩ <;>
    rcases hi with rfl | rfl <;> simp [destinations]

/-- One step of a command's rule writes a result only by completing with OK. -/
theorem commandRule_resultOnlyWithOk (i : Instr) (r : Running) (s : State) : resultOnlyWithOk s (commandRule i r s) := by
  cases i with
  | nop | clr | egcd => exact finish_ok_resultOnlyWithOk s _
  | modexp | modmul => exact .ite (.inr (finish_noResult _ s)) (finish_ok_resultOnlyWithOk s _)
  | montmul =>
    exact .ite (.inr (finish_noResult _ s)) (.ite (.inr (finish_noResult _ s)) (finish_ok_resultOnlyWithOk s _))
  | modinv =>
    exact .ite (.inr (finish_noResult _ s)) (.ite (finish_ok_resultOnlyWithOk s _) (.inr (finish_noResult _ s)))
  | primetest ra => exact primetestRule_resultOnlyWithOk ra r s
  | genprime rd => exact genprimeRule_resultOnlyWithOk rd r s
  | genrand rd => exact genrandRule_resultOnlyWithOk rd r s
  | genpqr rd ra rb => exact genpqrRule_resultOnlyWithOk rd ra rb r s
  | embed => exact .inr (commandRule_codec_noResult (.inl rfl) r s)
  | extract => exact .inr (commandRule_codec_noResult (.inr rfl) r s)

/-! ## One turn -/

theorem engineStep_resultOnlyWithOk (i : Instr) (r : Running) (s : State) :
    resultOnlyWithOk s (engineStep (commandAbort i) (commandRule i) r s) := by
  rcases engineStep_cases (onAbort := commandAbort i) (rule := commandRule i) r s with ⟨_, e⟩ | ⟨_, _, e⟩ | ⟨_, _, e⟩ <;>
    rw [e]
  · exact commandRule_resultOnlyWithOk i r s
  · exact .inr (commandAbort_noResult i (afterRace s))
  · exact (afterRace_continues s).noResult.resultOnlyWithOk (commandRule_resultOnlyWithOk i r _)

/-- One turn of a command writes a result only by completing with OK. -/
theorem exec_resultOnlyWithOk {i : Instr} {s t : State} (h : exec i s = .next t) : resultOnlyWithOk s t := by
  rw [exec_eq_runCommand] at h
  cases h
  refine runCommand_induct (resultOnlyWithOk s) (fun u hu => ?_) (fun r u hr hu => ?_) (.inr ⟨rfl, rfl, rfl⟩)
  · exact hu
  · have hnone : noResult s u := hu.resolve_left fun ⟨_, _, hidle⟩ => by simp [hidle] at hr
    exact hnone.resultOnlyWithOk (engineStep_resultOnlyWithOk i r u)

/-- Settles O56: a command that no longer runs has completed, and writes a result only with OK. -/
theorem errorWritesNoResult : Obligations.ErrorWritesNoResult := by
  unfold Obligations.ErrorWritesNoResult
  intro i s t r hr h hend
  refine ⟨?_, fun herr => (exec_resultOnlyWithOk h).resolve_left fun ⟨hok, _, _⟩ => herr hok⟩
  rcases exec_goesOnOrCompletes h with hc | hc
  · have := hc.snap
    simp [hr, hend] at this
  · exact hc.done

end Sys2Proof.Machine
end

section
/-! The outcomes of the race between an abort and the command's next step (spec/40_system.md R136,
spec/60_exceptions.md R299). -/

namespace Sys2Proof.Machine

/-! ## The request of an abort is read by no rule

Each operation a rule is made of gives on a state with the request what it gives on the state without, and keeps the
request. -/

theorem setProgress_requestAbort (p : Progress) (s : State) :
    setProgress p (requestAbort s) = requestAbort (setProgress p s) := by
  simp only [setProgress, requestAbort, Option.map_map]
  rfl

/-- A choice between two states keeps the request where each of them does. -/
theorem requestAbort_ite {c : Prop} [Decidable c] {t t' u u' : State} (h : t' = requestAbort t)
    (h' : u' = requestAbort u) :
    (if c then t' else u') = requestAbort (if c then t else u) := by
  subst h h'
  exact (apply_ite requestAbort c t u).symm

theorem dmaRead_requestAbort (a : Addr) (s : State) : dmaRead a (requestAbort s) = dmaRead a s := rfl

theorem dmaWrite_requestAbort (a : Addr) (v : Byte) (s : State) :
    dmaWrite a v (requestAbort s) = (dmaWrite a v s).map requestAbort := by
  simp only [dmaWrite, apply_ite (Option.map requestAbort)]
  rfl

theorem fermatVerdict_requestAbort (num k passed : Nat) (s : State) :
    fermatVerdict num k passed (requestAbort s) = fermatVerdict num k passed s := rfl

theorem fermatAfter_requestAbort (num k passed : Nat) (s : State) :
    fermatAfter num k passed (requestAbort s) = requestAbort (fermatAfter num k passed s) :=
  requestAbort_ite rfl rfl

theorem primeEvent_requestAbort (d : Desc) (st : PrimeStage) (s : State) :
    primeEvent d st (requestAbort s) = primeEvent d st s := rfl

theorem primeAfter_requestAbort (d : Desc) (st : PrimeStage) (s : State) :
    primeAfter d st (requestAbort s) = requestAbort (primeAfter d st s) := by
  cases st with
  | attempt => exact requestAbort_ite rfl rfl
  | length => rfl
  | testing cnt c passed => exact fermatAfter_requestAbort c _ passed s

theorem primetestRule_requestAbort (ra : Reg) (r : Running) (s : State) :
    primetestRule ra r (requestAbort s) = requestAbort (primetestRule ra r s) := by
  unfold primetestRule
  dsimp only
  rw [fermatVerdict_requestAbort, fermatAfter_requestAbort]
  split
  · rfl
  · exact setProgress_requestAbort _ _

theorem genprimeRule_requestAbort (rd : Reg) (r : Running) (s : State) :
    genprimeRule rd r (requestAbort s) = requestAbort (genprimeRule rd r s) := by
  unfold genprimeRule
  dsimp only
  split
  · rw [primeEvent_requestAbort, primeAfter_requestAbort]
    split
    · exact setProgress_requestAbort _ _
    · rfl
    · rfl
  · exact requestAbort_ite (setProgress_requestAbort _ s) rfl

theorem genrandRule_requestAbort (rd : Reg) (r : Running) (s : State) :
    genrandRule rd r (requestAbort s) = requestAbort (genrandRule rd r s) := by
  unfold genrandRule
  dsimp only
  split
  · exact setProgress_requestAbort _ (afterDraw s)
  · rfl
  · exact requestAbort_ite (setProgress_requestAbort _ s) rfl

theorem pqrRule_requestAbort (rd ra rb : Reg) (d : Desc) (outer total : Nat) (st : PqrStage) (s : State) :
    pqrRule rd ra rb d outer total st (requestAbort s) = requestAbort (pqrRule rd ra rb d outer total st s) := by
  cases st with
  | round => exact requestAbort_ite (setProgress_requestAbort _ s) rfl
  | prime ps =>
    unfold pqrRule
    dsimp only
    rw [primeEvent_requestAbort, primeAfter_requestAbort]
    split
    · exact setProgress_requestAbort _ _
    · exact setProgress_requestAbort _ _
    · rfl
  | qLength | qValue | rLength | rValue => exact setProgress_requestAbort _ (afterDraw s)
  | judge => exact requestAbort_ite rfl (setProgress_requestAbort _ s)

theorem genpqrRule_requestAbort (rd ra rb : Reg) (r : Running) (s : State) :
    genpqrRule rd ra rb r (requestAbort s) = requestAbort (genpqrRule rd ra rb r s) := by
  unfold genpqrRule
  dsimp only
  split
  · exact pqrRule_requestAbort rd ra rb _ _ _ _ s
  · exact requestAbort_ite (setProgress_requestAbort _ s) rfl

theorem embedRule_requestAbort (r : Running) (s : State) :
    embedRule r (requestAbort s) = requestAbort (embedRule r s) := by
  unfold embedRule
  simp only [dmaRead_requestAbort, dmaWrite_requestAbort]
  split
  case h_1 =>
    split
    · split
      · exact setProgress_requestAbort _ s
      · rfl
    · rfl
  case h_2 =>
    split
    · exact setProgress_requestAbort _ s
    · rfl
  case h_3 j i m v _ =>
    cases dmaWrite (slotAddr r.snap.desc (9 * j + i)) _ s with
    | none => rfl
    | some t => exact setProgress_requestAbort _ t
  case h_4 => exact requestAbort_ite rfl (requestAbort_ite rfl (requestAbort_ite rfl (setProgress_requestAbort _ s)))

theorem extractRule_requestAbort (r : Running) (s : State) :
    extractRule r (requestAbort s) = requestAbort (extractRule r s) := by
  unfold extractRule
  simp only [dmaRead_requestAbort, dmaWrite_requestAbort]
  split
  case h_1 => exact requestAbort_ite (setProgress_requestAbort _ s) rfl
  case h_2 =>
    split
    · exact setProgress_requestAbort _ s
    · rfl
  case h_3 j out b mk _ =>
    split
    · rfl
    · cases dmaWrite (msgAddr r.snap.desc out) b s with
      | none => rfl
      | some t => exact setProgress_requestAbort _ t
  case h_4 => rfl
  case h_5 => exact requestAbort_ite rfl (requestAbort_ite rfl (setProgress_requestAbort _ s))

/-- No rule reads the request of an abort in the state, and each keeps it (spec/40_system.md R136). -/
theorem commandRule_requestAbort (i : Instr) (r : Running) (s : State) :
    commandRule i r (requestAbort s) = requestAbort (commandRule i r s) := by
  cases i with
  | nop | clr | egcd => rfl
  | modexp | modmul => exact requestAbort_ite rfl rfl
  | montmul | modinv => exact requestAbort_ite rfl (requestAbort_ite rfl rfl)
  | primetest ra => exact primetestRule_requestAbort ra r s
  | genprime rd => exact genprimeRule_requestAbort rd r s
  | genrand rd => exact genrandRule_requestAbort rd r s
  | genpqr rd ra rb => exact genpqrRule_requestAbort rd ra rb r s
  | embed => exact embedRule_requestAbort r s
  | extract => exact extractRule_requestAbort r s

/-- Nor does a rule read it in the record of the running command. -/
theorem commandRule_abortReq (i : Instr) (r : Running) (b : Bool) (s : State) :
    commandRule i { r with abortReq := b } s = commandRule i r s := by
  cases i <;> rfl

/-! ## The first step of a turn -/

/-- A turn is its first engine step, and the steps after it. -/
theorem exec_first_step (i : Instr) {s : State} {r : Running} {n : Nat} (hr : s.run = some r)
    (hturn : engineTurns s.inbox = n + 1) :
    exec i s = .next (runSteps (commandAbort i) (commandRule i) n
      (engineStep (commandAbort i) (commandRule i) r (startTurn s))) := by
  have hstart : (startTurn s).run = some r := hr
  rw [exec_eq_runCommand, runCommand_running hr, hturn, runSteps_succ hstart]

/-- An engine step with a request pending is the abort or the rule's step, as the race gives it. -/
theorem engineStep_race {onAbort : State → State} {rule : Running → State → State} {s : State} {r : Running} {b : Bool}
    (hreq : r.abortReq = true) (hrace : s.races.head? = some b) :
    engineStep onAbort rule r s = if b then onAbort (afterRace s) else rule r (afterRace s) := by
  simp [engineStep, hreq, raceValue, hrace]

/-! ## The race won -/

theorem commandAbort_completed (i : Instr) (s : State) : completed .aborted (commandAbort i s) := by
  cases i <;> exact ⟨rfl, rfl, rfl⟩

/-- A command whose abort wins the race is aborted at once. -/
theorem exec_race_won {i : Instr} {s : State} {r : Running} (hr : s.run = some r) (hreq : r.abortReq = true)
    (hturn : 0 < engineTurns s.inbox) (hrace : s.races.head? = some true) :
    exec i s = .next (commandAbort i (afterRace (startTurn s))) := by
  obtain ⟨n, hn⟩ := Nat.exists_eq_add_of_lt hturn
  rw [exec_first_step i hr (n := n) (by omega), engineStep_race hreq (s := startTurn s) hrace, if_pos rfl,
    runSteps_idle (commandAbort_completes i _).run]

/-! ## The race lost -/

/-- The state of a turn whose race is settled, but for the request. -/
theorem afterRace_startTurn_eq {s : State} {r : Running} (hr : s.run = some r) (hreq : r.abortReq = true) :
    afterRace (startTurn s) = requestAbort (startTurn (afterRace (withoutRequest s))) := by
  have hrun : some r = some { r with abortReq := true } := by rw [← hreq]
  simp [afterRace, startTurn, requestAbort, withoutRequest, hr, hrun]

/-- The step of the command that is made without the request. -/
def stepUnrequested (i : Instr) (s : State) (r : Running) : State :=
  commandRule i r (startTurn (afterRace (withoutRequest s)))

/-- A command whose abort loses the race makes its step, and the request stays. -/
theorem exec_race_lost {i : Instr} {s : State} {r : Running} (hr : s.run = some r) (hreq : r.abortReq = true) {n : Nat}
    (hturn : engineTurns s.inbox = n + 1) (hrace : s.races.head? = some false) :
    exec i s = .next (runSteps (commandAbort i) (commandRule i) n (requestAbort (stepUnrequested i s r))) := by
  rw [exec_first_step i hr hturn, engineStep_race hreq (s := startTurn s) hrace, if_neg Bool.false_ne_true,
    afterRace_startTurn_eq hr hreq, commandRule_requestAbort, stepUnrequested]

/-- The turn without the request makes the same step first. -/
theorem exec_withoutRequest {i : Instr} {s : State} {r : Running} (hr : s.run = some r) {n : Nat}
    (hturn : engineTurns s.inbox = n + 1) :
    exec i (afterRace (withoutRequest s)) = .next (runSteps (commandAbort i) (commandRule i) n (stepUnrequested i s r)) := by
  have hrun : (afterRace (withoutRequest s)).run = some { r with abortReq := false } := by simp [withoutRequest, hr]
  rw [exec_first_step i hrun hturn, engineStep, if_neg Bool.false_ne_true, commandRule_abortReq, stepUnrequested]

/-- The commands of one engine step (spec/41_modular_arithmetic.md R159; log 11). -/
def oneStep : Instr → Bool
  | .nop | .clr _ | .modexp _ _ _ _ | .modmul _ _ _ _ | .montmul _ _ _ _ | .egcd _ _ _ | .modinv _ _ _ => true
  | _ => false

/-- The one step is a completion by the command's own rule. -/
theorem commandRule_oneStep {i : Instr} (hi : oneStep i = true) (r : Running) (s : State) :
    (commandRule i r s).run = none ∧ (commandRule i r s).err ≠ .aborted := by
  cases i with
  | nop | clr | egcd => exact ⟨rfl, nofun⟩
  | modexp | modmul =>
    dsimp only [commandRule, modexpRule, modmulRule]
    split <;> exact ⟨rfl, nofun⟩
  | montmul | modinv =>
    dsimp only [commandRule, montmulRule, modinvRule]
    split
    · exact ⟨rfl, nofun⟩
    · split <;> exact ⟨rfl, nofun⟩
  | primetest | genprime | genrand | genpqr | embed | extract => cases hi

/-- An idle engine has no command to abort. -/
theorem requestAbort_idle {s : State} (h : s.run = none) : requestAbort s = s := by
  obtain ⟨⟩ := s
  simp_all [requestAbort]

/-- Settles O59: an abort that wins is the command's abort; one that loses leaves the command's step, which no request
changes. -/
theorem abortOutcomes : Obligations.AbortOutcomes := by
  unfold Obligations.AbortOutcomes
  refine ⟨fun i s r hr hreq hturn hrace => ?_, fun i s r hr hreq hturn hrace => ?_,
    fun s r rd ra rb rc hr hreq hturn hrace i hi => ?_⟩
  · let u : State := afterRace (startTurn s)
    obtain ⟨hset, hmem⟩ := commandAbort_frame i u
    obtain ⟨hbigs, hprime, hneg⟩ := commandAbort_noResult i u
    have hframe : KeepsFrame i u (commandAbort i u) := (commandAbort_completes i u).frame
    exact ⟨commandAbort i u, exec_race_won hr hreq hturn hrace, commandAbort_completed i u, hbigs, hprime, hneg, hmem,
      hset, hframe.attempts, hframe.outLen⟩
  · exact ⟨_, exec_withoutRequest hr (n := 0) hturn, exec_race_lost hr hreq (n := 0) hturn hrace⟩
  · have hone : oneStep i = true := by
      simp only [List.mem_cons, List.not_mem_nil, or_false] at hi
      rcases hi with rfl | rfl | rfl | rfl | rfl | rfl | rfl <;> rfl
    obtain ⟨n, hn⟩ := Nat.exists_eq_add_of_lt hturn
    obtain ⟨hend, herr⟩ : (stepUnrequested i s r).run = none ∧ (stepUnrequested i s r).err ≠ .aborted :=
      commandRule_oneStep hone r _
    have hlost : exec i s = .next (stepUnrequested i s r) := by
      rw [exec_race_lost hr hreq (n := n) (by omega) hrace, requestAbort_idle hend, runSteps_idle hend]
    have hwithout : exec i (afterRace (withoutRequest s)) = .next (stepUnrequested i s r) := by
      rw [exec_withoutRequest hr (n := n) (by omega), runSteps_idle hend]
    exact ⟨hlost.trans hwithout.symm, _, hlost, hend, herr⟩

end Sys2Proof.Machine
end

section
/-! The modular arithmetic commands: what each one's step makes of its operands, the Montgomery product, the recurrence of
the extended Euclidean algorithm and the modular inverse (spec/41_modular_arithmetic.md R150 to R157). -/

namespace Sys2Proof.Machine

/-! ## A step that stores one result, and a step that reports an error -/

theorem setBig_get_same (d : Reg) (v : Nat) (s : State) : (setBig d v s).bigs[d] = bigOfNat s.params.opwWords v :=
  (setBig_get d d v s).trans (if_pos rfl)

theorem setBig_get_other {d k : Reg} (h : k ≠ d) (v : Nat) (s : State) : (setBig d v s).bigs[k] = s.bigs[k] :=
  (setBig_get d k v s).trans (if_neg h)

/-- A command whose rule finishes with OK over Bd set to `v` completes with `v` in Bd and nothing else changed
(spec/40_system.md R131). -/
theorem exec_stores {i : Instr} {s : State} {r : Running} {d : Reg} {v : Nat} (h : s.EngineToMove r)
    (hv : v < 2 ^ s.params.opw)
    (hrule : commandRule i r (startTurn s) = finish .ok (setBig d v (startTurn s))) :
    ∃ t, exec i s = .next t ∧ completed .ok t ∧ bigValue t.bigs[d] = v ∧ firstUnwritten t.bigs[d] = none ∧
      (∀ k : Reg, k ≠ d → t.bigs[k] = s.bigs[k]) ∧
      t.prime = s.prime ∧ t.neg = s.neg ∧ t.attempts = s.attempts ∧ t.outLen = s.outLen ∧ sameSetting s t ∧
      t.mem = s.mem := by
  let t : State := finish .ok (setBig d v (startTurn s))
  have hexec : exec i s = .next t := (exec_of_completes h (by rw [hrule]; rfl)).trans (congrArg _ hrule)
  have hd : t.bigs[d] = bigOfNat s.params.opwWords v := setBig_get_same d v _
  refine ⟨t, hexec, ⟨rfl, rfl, rfl⟩, ?_, ?_, fun k hk => setBig_get_other hk v _, rfl, rfl, rfl, rfl,
    sameSetting.refl s, rfl⟩
  · rw [hd, bigValue_bigOfNat_of_lt hv]
  · rw [hd, firstUnwritten_bigOfNat]

/-- A command whose rule is a finish alone completes with that code and no other effect (spec/60_exceptions.md R294). -/
theorem exec_reports {i : Instr} {s : State} {r : Running} {code : ErrCode} (h : s.EngineToMove r)
    (hrule : commandRule i r (startTurn s) = finish code (startTurn s)) :
    ∃ t, exec i s = .next t ∧ completed code t ∧ sameResults s t ∧ sameSetting s t ∧ t.mem = s.mem :=
  ⟨finish code (startTurn s), (exec_of_completes h (by rw [hrule]; rfl)).trans (congrArg _ hrule), ⟨rfl, rfl, rfl⟩,
    ⟨rfl, rfl, rfl, rfl, rfl⟩, sameSetting.refl s, rfl⟩

/-! ## One equation per command and case of its modulus -/

section Rules

variable {rd ra rb rc : Reg} {r : Running} {s : State}

theorem modexpRule_of_ne_zero (hm : operand rc r ≠ 0) :
    modexpRule rd ra rb rc r s = finish .ok (setBig rd (operand ra r ^ operand rb r % operand rc r) s) := by
  rw [← powMod_eq]
  exact if_neg hm

theorem modmulRule_of_ne_zero (hm : operand rc r ≠ 0) :
    modmulRule rd ra rb rc r s = finish .ok (setBig rd (operand ra r * operand rb r % operand rc r) s) := if_neg hm

theorem montmulRule_of_odd (hm : operand rc r % 2 = 1) :
    montmulRule rd ra rb rc r s =
      finish .ok (setBig rd (montProduct s.params.opw (operand ra r) (operand rb r) (operand rc r)) s) :=
  (if_neg (by omega)).trans (if_neg (by omega))

theorem montmulRule_of_even (h0 : operand rc r ≠ 0) (hm : operand rc r % 2 = 0) :
    montmulRule rd ra rb rc r s = finish .evenMod s := (if_neg h0).trans (if_pos hm)

theorem modinvRule_of_inverse (h0 : operand rb r ≠ 0)
    (hc : operand ra r * inverseCandidate (operand ra r) (operand rb r) % operand rb r = 1) :
    modinvRule rd ra rb r s = finish .ok (setBig rd (inverseCandidate (operand ra r) (operand rb r)) s) :=
  (if_neg h0).trans (if_pos hc)

theorem modinvRule_of_no_inverse (h0 : operand rb r ≠ 0)
    (hc : operand ra r * inverseCandidate (operand ra r) (operand rb r) % operand rb r ≠ 1) :
    modinvRule rd ra rb r s = finish .invNotFound s := (if_neg h0).trans (if_neg hc)

/-- The four commands with a modulus check it for 0 first (spec/41_modular_arithmetic.md R151, R153, R154, R157). -/
theorem commandRule_of_modulus_zero (hm : operand rc r = 0) {i : Instr}
    (hi : i ∈ [Instr.modexp rd ra rb rc, .modmul rd ra rb rc, .montmul rd ra rb rc, .modinv rd ra rc]) :
    commandRule i r s = finish .modZero s := by
  simp only [List.mem_cons, List.not_mem_nil, or_false] at hi
  rcases hi with rfl | rfl | rfl | rfl <;> exact if_pos hm

end Rules

/-! ## MODEXP, MODMUL, and the modulus 0 -/

theorem mod_operand_lt {p : Params} {r : Running} {k : Reg} (hs : bigsSized p r.snap.bigs) (hm : operand k r ≠ 0)
    (x : Nat) : x % operand k r < 2 ^ p.opw := (Nat.mod_lt x (Nat.pos_of_ne_zero hm)).trans (operand_lt hs k)

/-- Settles O31: square-and-multiply is the power. -/
theorem modexpResult : Obligations.ModexpResult := by
  unfold Obligations.ModexpResult
  intro s r rd ra rb rc h hs hm
  exact exec_stores h (mod_operand_lt hs hm _) (modexpRule_of_ne_zero hm)

/-- Settles O32: the residue fits the register, as the modulus does. -/
theorem modmulResult : Obligations.ModmulResult := by
  unfold Obligations.ModmulResult
  intro s r rd ra rb rc h hs hm
  exact exec_stores h (mod_operand_lt hs hm _) (modmulRule_of_ne_zero hm)

/-- Settles O34: the check comes first in each of the four rules. -/
theorem zeroModulusReported : Obligations.ZeroModulusReported := by
  unfold Obligations.ZeroModulusReported
  intro s r rd ra rb rc h hm i hi
  exact exec_reports h (commandRule_of_modulus_zero hm hi)

/-! ## MONTMUL (spec/41_modular_arithmetic.md R154) -/

/-- Two numbers below an odd modulus with the same multiple by a power of two are equal: the power is invertible. -/
theorem eq_of_mul_two_pow_mod_eq {m v w n : Nat} (hodd : m % 2 = 1) (hv : v < m) (hw : w < m)
    (h : v * 2 ^ n % m = w * 2 ^ n % m) : v = w := by
  have hcop : Nat.gcd m (2 ^ n) = 1 := ((Nat.odd_iff.2 hodd).coprime_two_right).pow_right n
  have hmod : v ≡ w [MOD m] := Nat.ModEq.cancel_right_of_coprime hcop h
  exact hmod.eq_of_lt_of_lt hv hw

/-- The Montgomery product is the only number with its defining property. -/
theorem montProduct_eq_iff {m : Nat} (hodd : m % 2 = 1) (opw x y v : Nat) :
    montProduct opw x y m = v ↔ v < m ∧ v * 2 ^ opw % m = x * y % m := by
  obtain ⟨hlt, hmul⟩ := montProduct_spec hodd opw x y
  constructor
  · rintro rfl
    exact ⟨hlt, hmul⟩
  · rintro ⟨hv, hvmul⟩
    exact eq_of_mul_two_pow_mod_eq hodd hlt hv (hmul.trans hvmul.symm)

/-- Settles O33: an odd modulus makes the product unique. -/
theorem montmulResult : Obligations.MontmulResult := by
  unfold Obligations.MontmulResult
  intro s r rd ra rb rc h hs
  refine ⟨fun hodd => ?_, fun heven h0 => exec_reports h (montmulRule_of_even h0 heven)⟩
  have hlt := (montProduct_spec hodd s.params.opw (operand ra r) (operand rb r)).1.trans (operand_lt hs rc)
  obtain ⟨t, hexec, hok, hval, hwritten, hframe⟩ :=
    exec_stores (i := .montmul rd ra rb rc) (d := rd) h hlt (montmulRule_of_odd hodd)
  refine ⟨t, hexec, hok, hwritten, fun v => ?_, hframe⟩
  rw [hval, montProduct_eq_iff hodd]

/-! ## EGCD (spec/41_modular_arithmetic.md R155, R156) -/

/-- One turn of the recurrence, with the remainder for the model's subtraction. -/
theorem egcdLoop_succ (n r0 r1 : Nat) (x0 x1 : Int) :
    egcdLoop (n + 1) r0 r1 x0 x1 =
      if r1 = 0 then x0 else egcdLoop n r1 (r0 % r1) x1 (x0 - ((r0 / r1 : Nat) : Int) * x1) := by
  rw [egcdLoop, Nat.mul_comm (r0 / r1), ← Nat.mod_eq_sub_mul_div]

/-- Turns beyond `r1` change nothing, since `r1` falls at every turn. -/
theorem egcdLoop_fuel_irrelevant : ∀ {n m r0 r1 : Nat} {x0 x1 : Int}, r1 < n → r1 < m →
    egcdLoop n r0 r1 x0 x1 = egcdLoop m r0 r1 x0 x1
  | n + 1, m + 1, r0, r1, x0, x1, hn, hm => by
    rw [egcdLoop_succ, egcdLoop_succ]
    by_cases hz : r1 = 0
    · rw [if_pos hz, if_pos hz]
    · have hlt : r0 % r1 < r1 := Nat.mod_lt r0 (Nat.pos_of_ne_zero hz)
      rw [if_neg hz, if_neg hz]
      exact egcdLoop_fuel_irrelevant (by omega) (by omega)

/-- Settles O36: the fuel does not matter once it exceeds `r1`. -/
theorem egcdFollowsRecurrence : Obligations.EgcdFollowsRecurrence := by
  unfold Obligations.EgcdFollowsRecurrence
  refine ⟨fun n m r0 r1 x0 x1 hn hm => ?_, fun n a b hn => egcdLoop_fuel_irrelevant (Nat.lt_succ_self b) hn⟩
  obtain ⟨n, rfl⟩ := Nat.exists_eq_add_one_of_ne_zero (Nat.ne_zero_of_lt hn)
  rw [egcdLoop_succ]
  by_cases hz : r1 = 0
  · rw [if_pos hz, if_pos hz]
  · have hlt : r0 % r1 < r1 := Nat.mod_lt r0 (Nat.pos_of_ne_zero hz)
    rw [if_neg hz, if_neg hz, egcdLoop_fuel_irrelevant (by omega) hm]

/-- The coefficient's magnitude fits a big register, whose width is at least 64. -/
theorem egcdX_natAbs_lt {p : Params} {a b : Nat} (hb : b < 2 ^ p.opw) : (egcdX a b).natAbs < 2 ^ p.opw := by
  have hpos : 1 < 2 ^ p.opw := Nat.one_lt_two_pow (by simp [Params.opw, Params.opwWords])
  exact (egcdX_bound a b).trans_lt (max_lt hpos hb)

/-- Bezout's identity with `egcd_x(a, b)` as the coefficient of `a`. -/
theorem exists_bezout_egcdX (a b : Nat) : ∃ y : Int, (a : Int) * egcdX a b + b * y = (Nat.gcd a b : Nat) := by
  obtain ⟨z, hz⟩ := egcdX_bezout a b
  exact ⟨-z, by linarith⟩

/-- Settles O35: Bezout's identity and the bound are those of the recurrence. -/
theorem egcdResult : Obligations.EgcdResult := by
  unfold Obligations.EgcdResult
  intro s r rd ra rb h hs
  let x : Int := egcdX (operand ra r) (operand rb r)
  let t : State := finish .ok { setBig rd x.natAbs (startTurn s) with neg := decide (x < 0) }
  have hrd : t.bigs[rd] = bigOfNat s.params.opwWords x.natAbs := setBig_get_same rd _ _
  have hval : bigValue t.bigs[rd] = x.natAbs := by
    rw [hrd]
    exact bigValue_bigOfNat_of_lt (egcdX_natAbs_lt (operand_lt hs rb))
  refine ⟨t, x, exec_of_completes h rfl, ⟨rfl, rfl, rfl⟩, rfl, hval, decide_eq_true_iff, exists_bezout_egcdX _ _, ?_, ?_,
    fun k hk => setBig_get_other hk _ _, rfl, rfl, rfl, sameSetting.refl s, rfl⟩
  · rw [hval]
    exact egcdX_bound _ _
  · rw [hrd, firstUnwritten_bigOfNat]

/-! ## MODINV (spec/41_modular_arithmetic.md R157) -/

/-- The candidate is `egcd_x(a, m)` brought into `[0, m]`. -/
theorem inverseCandidate_spec {a m : Nat} (hm : m ≠ 0) :
    inverseCandidate a m ≤ m ∧ (m : Int) ∣ inverseCandidate a m - egcdX a m := by
  have hbound : (egcdX a m).natAbs ≤ max 1 m := egcdX_bound a m
  unfold inverseCandidate
  dsimp only
  split
  case isTrue hneg =>
    have hc : ((egcdX a m + m).toNat : Int) = egcdX a m + m := Int.toNat_of_nonneg (by omega)
    exact ⟨by omega, by simp [hc]⟩
  case isFalse hpos =>
    have hc : ((egcdX a m).toNat : Int) = egcdX a m := Int.toNat_of_nonneg (by omega)
    exact ⟨by omega, by simp [hc]⟩

/-- Where `gcd(a, m) = 1` the candidate is an inverse modulo `m`, by Bezout's identity. -/
theorem mul_inverseCandidate_modEq_one {a m : Nat} (hm : m ≠ 0) (hgcd : Nat.gcd a m = 1) :
    a * inverseCandidate a m ≡ 1 [MOD m] := by
  obtain ⟨-, hcand⟩ := inverseCandidate_spec (a := a) hm
  have hbez : (m : Int) ∣ a * egcdX a m - 1 := by simpa [hgcd] using egcdX_bezout a m
  have hdvd : (m : Int) ∣ a * inverseCandidate a m - 1 := by
    have := dvd_add (hcand.mul_left a) hbez
    rwa [mul_sub, sub_add_sub_cancel] at this
  exact (Nat.modEq_iff_dvd.2 (by simpa using hdvd)).symm

/-- No multiple of `a` is 1 modulo `m` unless `m ≥ 2` and `gcd(a, m) = 1`. -/
theorem coprime_of_mul_mod_eq_one {a c m : Nat} (h : a * c % m = 1) : Nat.gcd a m = 1 ∧ m ≠ 1 := by
  have hm : m ≠ 1 := by
    rintro rfl
    omega
  have hone : a * c ≡ 1 [MOD m] := by
    rw [← h]
    exact (Nat.mod_modEq _ m).symm
  have hcop : Nat.Coprime (a * c) m := by
    rw [Nat.Coprime, hone.gcd_eq, Nat.gcd_one_left]
  exact ⟨hcop.coprime_mul_right, hm⟩

/-- Settles O37: the candidate is an inverse where there is one, and the final check refuses it elsewhere. -/
theorem modinvResult : Obligations.ModinvResult := by
  unfold Obligations.ModinvResult
  intro s r rd ra rb h hs
  refine ⟨fun hgcd hm => ?_, fun h0 hnone => exec_reports h (modinvRule_of_no_inverse h0 fun hc => ?_)⟩
  · have h0 : operand rb r ≠ 0 := by omega
    have hc : operand ra r * inverseCandidate (operand ra r) (operand rb r) % operand rb r = 1 :=
      Nat.mod_eq_of_modEq (mul_inverseCandidate_modEq_one h0 hgcd) hm
    have hne : inverseCandidate (operand ra r) (operand rb r) ≠ operand rb r := by
      intro heq
      simp [heq] at hc
    have hlt : inverseCandidate (operand ra r) (operand rb r) < operand rb r :=
      lt_of_le_of_ne (inverseCandidate_spec h0).1 hne
    obtain ⟨t, hexec, hok, hval, hwritten, hframe⟩ :=
      exec_stores (i := .modinv rd ra rb) (d := rd) h (hlt.trans (operand_lt hs rb)) (modinvRule_of_inverse h0 hc)
    exact ⟨t, hexec, hok, hwritten, hval ▸ hlt, by rwa [hval], hframe⟩
  · obtain ⟨hgcd, hm⟩ := coprime_of_mul_mod_eq_one hc
    exact hnone.elim (absurd hgcd) hm

end Sys2Proof.Machine
end

section
/-! PRIMETEST: the verdict of `fermat(num, k)` on a list of draws, and the engine's steps that come to it
(spec/42_primality.md R190 to R194). -/

namespace Sys2Proof.Machine

/-! ## The verdict on a list of draws -/

theorem fermatOn_zero (num : Nat) (l : List Nat) : fermatOn num 0 l = some (decide (2 ≤ num), l) := rfl

theorem fermatOn_of_le_one {num : Nat} (h : num ≤ 1) (k : Nat) (l : List Nat) :
    fermatOn num k l = some (false, l) := by
  cases k with
  | zero => rw [fermatOn_zero, decide_eq_false (by omega)]
  | succ k => simp [fermatOn, h]

theorem fermatOn_two_or_three {num : Nat} (h : num = 2 ∨ num = 3) (k : Nat) (l : List Nat) :
    fermatOn num k l = some (true, l) := by
  cases k with
  | zero => rw [fermatOn_zero, decide_eq_true (by omega)]
  | succ k => rcases h with rfl | rfl <;> rfl

section Rounds

variable {num : Nat} (h4 : 4 ≤ num)
include h4

/-- One round on a draw of its range: a witness ends the test. -/
theorem fermatOn_cons {a : Nat} (ha : 2 ≤ a ∧ a ≤ num - 2) (k : Nat) (l : List Nat) :
    fermatOn num (k + 1) (a :: l) =
      if a ^ (num - 1) % num = 1 then fermatOn num k l else some (false, l) := by
  have h1 : ¬ num ≤ 1 := by omega
  have h23 : ¬ (num = 2 ∨ num = 3) := by omega
  simp [fermatOn, h1, h23, ha]

/-- A round that has a verdict to lead to has a draw of its range. -/
theorem fermatOn_succ_eq_some {k : Nat} {l rest : List Nat} {b : Bool} (h : fermatOn num (k + 1) l = some (b, rest)) :
    ∃ a l', l = a :: l' ∧ 2 ≤ a ∧ a ≤ num - 2 := by
  have h1 : ¬ num ≤ 1 := by omega
  have h23 : ¬ (num = 2 ∨ num = 3) := by omega
  cases l with
  | nil => simp [fermatOn, h1, h23] at h
  | cons a l =>
    by_cases ha : 2 ≤ a ∧ a ≤ num - 2
    · exact ⟨a, l, rfl, ha⟩
    · simp [fermatOn, h1, h23, ha] at h

/-- Where every draw is a witness, one round is enough. -/
theorem fermatOn_of_all_witnesses (hw : ∀ a, 2 ≤ a → a ≤ num - 2 → a ^ (num - 1) % num ≠ 1) {k : Nat} (hk : k ≠ 0)
    {l rest : List Nat} {b : Bool} (h : fermatOn num k l = some (b, rest)) : b = false := by
  obtain ⟨k, rfl⟩ := Nat.exists_eq_succ_of_ne_zero hk
  obtain ⟨a, l, rfl, ha⟩ := fermatOn_succ_eq_some h4 h
  rw [fermatOn_cons h4 ha, if_neg (hw a ha.1 ha.2)] at h
  cases h
  rfl

/-- On as many draws as rounds, the test passes when no draw is a witness, and leaves the draws after the first
witness. -/
theorem fermatOn_draws (draws : List Nat) (hd : ∀ a ∈ draws, 2 ≤ a ∧ a ≤ num - 2) :
    fermatOn num draws.length draws =
      some (draws.all fun a => a ^ (num - 1) % num == 1,
        (draws.dropWhile fun a => a ^ (num - 1) % num == 1).tail) := by
  induction draws with
  | nil =>
    rw [List.length_nil, fermatOn_zero, decide_eq_true (by omega)]
    rfl
  | cons a draws ih =>
    obtain ⟨ha, hd⟩ := List.forall_mem_cons.1 hd
    rw [List.length_cons, fermatOn_cons h4 ha]
    by_cases hw : a ^ (num - 1) % num = 1
    · simp [hw, ih hd]
    · simp [hw]

end Rounds

/-- Fermat's little theorem: a prime has no witness. -/
theorem no_witness_of_prime {p a : Nat} (hp : p.Prime) (ha : 2 ≤ a ∧ a ≤ p - 2) : a ^ (p - 1) % p = 1 := by
  have hcop : Nat.Coprime a p := (Nat.coprime_of_lt_prime (by omega) (by omega) hp).symm
  have hone : a ^ (p - 1) ≡ 1 [MOD p] := Nat.totient_prime hp ▸ Nat.ModEq.pow_totient hcop
  exact Nat.mod_eq_of_modEq hone hp.one_lt

/-- A prime passes whatever the draws. -/
theorem fermatOn_of_prime {p k : Nat} {l rest : List Nat} {b : Bool} (hp : p.Prime)
    (h : fermatOn p k l = some (b, rest)) : b = true := by
  induction k generalizing l with
  | zero =>
    cases h
    exact decide_eq_true hp.two_le
  | succ k ih =>
    by_cases h23 : p = 2 ∨ p = 3
    · rw [fermatOn_two_or_three h23] at h
      cases h
      rfl
    · have h4 : 4 ≤ p := by have := hp.two_le; omega
      obtain ⟨a, l, rfl, ha⟩ := fermatOn_succ_eq_some h4 h
      rw [fermatOn_cons h4 ha, if_pos (no_witness_of_prime hp ha)] at h
      exact ih h

/-- Every draw for 4 and for 18 is a witness. -/
theorem all_witnesses_four_or_eighteen {num : Nat} (h : num = 4 ∨ num = 18) (a : Nat) (h2 : 2 ≤ a) (ha : a ≤ num - 2) :
    a ^ (num - 1) % num ≠ 1 := by
  have hsmall : (∀ a < 3, 2 ≤ a → a ^ 3 % 4 ≠ 1) ∧ ∀ a < 17, 2 ≤ a → a ^ 17 % 18 ≠ 1 := by decide
  rcases h with rfl | rfl
  · exact hsmall.1 a (by omega) h2
  · exact hsmall.2 a (by omega) h2

/-! ## The engine's steps -/

/-- PRIMETEST ended with verdict `b` after `n` draws (spec/42_primality.md R191). -/
def primetestEnd (b : Bool) (n : Nat) (s : State) : State := finish .ok { later n s with prime := b }

theorem primetestEnd_succ (b : Bool) (n : Nat) (s : State) :
    primetestEnd b (n + 1) s = primetestEnd b n (afterDraw s) := by
  simp only [primetestEnd, later_succ]

theorem operand_progress (ra : Reg) (r : Running) (p : Progress) :
    operand ra { r with progress := p } = operand ra r := rfl

/-- The verdict depends on the draw alone. -/
theorem fermatVerdict_atStage (num k passed : Nat) (s : State) (r : Running) (p : Progress) (m : Memory) :
    fermatVerdict num k passed (atStage s r p m) = fermatVerdict num k passed s := rfl

/-- A step of the test is a draw or none, so it leaves the command at its stage. -/
theorem fermatAfter_atStage (num k passed : Nat) (s : State) (r : Running) (p : Progress) :
    fermatAfter num k passed (atStage s r p s.mem) =
      atStage (fermatAfter num k passed s) r p (fermatAfter num k passed s).mem :=
  (fermatAfter_run num k passed s (some { r with progress := p })).2

section Step

variable {s u : State} {r : Running} {p : Progress} {ra : Reg}
  (hafter : fermatAfter (operand ra r) r.snap.desc.rounds.toNat (fermatRounds p) s = u)
include hafter

/-- A round passed by its draw leads to the next. -/
theorem primetestRule_goesOn (hv : fermatVerdict (operand ra r) r.snap.desc.rounds.toNat (fermatRounds p) s = none) :
    primetestRule ra { r with progress := p } (atStage s r p s.mem) =
      atStage u r (.fermat (fermatRounds p + 1)) u.mem := by
  simp only [primetestRule, operand_progress, fermatVerdict_atStage, hv, fermatAfter_atStage, hafter,
    setProgress_atStage]

/-- A verdict ends the command. -/
theorem primetestRule_ends {b : Bool}
    (hv : fermatVerdict (operand ra r) r.snap.desc.rounds.toNat (fermatRounds p) s = some b) :
    primetestRule ra { r with progress := p } (atStage s r p s.mem) = finish .ok { u with prime := b } := by
  simp only [primetestRule, operand_progress, fermatVerdict_atStage, hv, fermatAfter_atStage, hafter]
  rfl

end Step

/-- With `m` rounds left, at most `m + 1` engine steps come to the verdict of `fermat(num, m)` on the draws they
make. -/
theorem runSteps_primetest {r : Running} (hr : r.abortReq = false) (ra : Reg) :
    ∀ (m : Nat) (p : Progress) (s : State), fermatRounds p + m = r.snap.desc.rounds.toNat →
      ∃ n ds b, n ≤ m + 1 ∧ Takes (fermatOn (operand ra r) m) s ds b ∧
        runSteps abortPlain (primetestRule ra) n (atStage s r p s.mem) = primetestEnd b ds.length s := by
  intro m
  induction m with
  | zero =>
    intro p s hk
    obtain ⟨-, -, m', hm, -⟩ | ⟨b, ds, hv, ha, ht⟩ := fermatStep_takes (operand ra r) _ s _ _ hk
    · omega
    · exact ⟨1, ds, b, le_rfl, ht, (runSteps_one hr).trans (primetestRule_ends ha hv)⟩
  | succ m ih =>
    intro p s hk
    obtain ⟨hv, ha, m', hm, hcons⟩ | ⟨b, ds, hv, ha, ht⟩ := fermatStep_takes (operand ra r) _ s _ _ hk
    · obtain rfl : m = m' := by omega
      obtain ⟨n, ds, b, hn, ht, hrun⟩ := ih (.fermat (fermatRounds p + 1)) (afterDraw s)
        (by rw [← hk, fermatRounds, Nat.add_assoc, Nat.add_comm 1])
      refine ⟨n + 1, _, b, by omega, hcons ds b ht, ?_⟩
      rw [runSteps_atStage hr, primetestRule_goesOn ha hv, hrun, List.length_cons, primetestEnd_succ]
    · exact ⟨1, ds, b, by omega, ht, (runSteps_one hr).trans (primetestRule_ends ha hv)⟩

/-- PRIMETEST ends with the verdict of `fermat(B[a], ROUNDS)` on the draws it makes
(spec/42_primality.md R190, R191). -/
theorem exec_primetest {s : State} {r : Running} (ra : Reg) (h : s.Undisturbed r) :
    ∃ ds b, Takes (fermatOn (operand ra r) r.snap.desc.rounds.toNat) (startTurn s) ds b ∧
      exec (.primetest ra) s = .next (primetestEnd b ds.length (startTurn s)) := by
  obtain ⟨n, ds, b, hn, ht, hrun⟩ := runSteps_primetest h.noAbort ra _ .fresh (startTurn s) (Nat.zero_add _)
  have hrounds : r.snap.desc.rounds.toNat < 2 ^ 32 := r.snap.desc.rounds.isLt
  exact ⟨ds, b, ht, exec_of_runSteps (i := .primetest ra) h (by omega) hrun rfl⟩

/-- Settles O38: the verdict on the draws made, whatever they are. -/
theorem primetestCompletes : Obligations.PrimetestCompletes := by
  unfold Obligations.PrimetestCompletes
  intro s r ra h
  obtain ⟨ds, b, ht, hexec⟩ := exec_primetest ra h
  obtain ⟨l, rest, hb⟩ : ∃ l rest, fermatOn (operand ra r) r.snap.desc.rounds.toNat l = some (b, rest) :=
    ⟨_, _, ht.given []⟩
  have hprime : Nat.Prime (operand ra r) → b = true := fun hp => fermatOn_of_prime hp hb
  refine ⟨_, hexec, ⟨rfl, rfl, rfl⟩, rfl, rfl, rfl, rfl, sameSetting.refl s, rfl, fun hle => ?_, fun h23 => ?_,
    fun h2 hk => ?_, hprime, fun (hfalse : b = false) hp => ?_, fun hnum hk => ?_⟩
  · rw [fermatOn_of_le_one hle] at hb
    cases hb
    rfl
  · rw [fermatOn_two_or_three h23] at hb
    cases hb
    rfl
  · rw [hk] at hb
    cases hb
    exact decide_eq_true h2
  · simp [hprime hp] at hfalse
  · have hk0 : r.snap.desc.rounds.toNat ≠ 0 := by simpa [BitVec.toNat_eq] using hk
    exact fermatOn_of_all_witnesses (by omega) (all_witnesses_four_or_eighteen hnum) hk0 hb

/-- Settles O39: the waiting draws are the ones taken, so the verdict on them is the outcome and the rest still wait. -/
theorem primetestFollowsDraws : Obligations.PrimetestFollowsDraws := by
  unfold Obligations.PrimetestFollowsDraws
  rintro s r ra _ h h4 rfl hlen hrange
  obtain ⟨ds, b, ht, hexec⟩ := exec_primetest ra h
  obtain ⟨hb, hrest⟩ := ht.waiting _ _ (hlen ▸ fermatOn_draws h4 s.entropy hrange)
  exact ⟨_, hexec, ⟨rfl, rfl, rfl⟩, hb.symm, hrest⟩

end Sys2Proof.Machine
end

section
/-! The samplers GENPRIME, GENRAND and GENPQR: their configuration check, what `gen_prime()`, `gen_rand()` and the loop
of GENPQR can give on a list of draws, and the turns that come to it (spec/43_candidate_generation.md R210 to R219). -/

namespace Sys2Proof.Machine

/-! ## The configuration check, the first step of each sampler (spec/43_candidate_generation.md R210) -/

theorem configLegal_iff {opw : Nat} {d : Desc} :
    configLegal opw d = true ↔
      1 ≤ d.minbits.toNat ∧ d.minbits.toNat ≤ d.maxbits.toNat ∧ d.maxbits.toNat ≤ opw := by
  simp [configLegal, and_assoc]

section FirstStep

variable {s : State} {r : Running} (hf : r.progress = .fresh)
include hf

theorem genprimeRule_fresh (rd : Reg) :
    genprimeRule rd r s =
      if configLegal s.params.opw r.snap.desc then setProgress (.prime (.attempt 0)) s
      else finishAttempts .config 0 s := by
  rw [genprimeRule, hf]

theorem genrandRule_fresh (rd : Reg) :
    genrandRule rd r s =
      if configLegal s.params.opw r.snap.desc then setProgress .randLength s else finish .config s := by
  rw [genrandRule, hf]

theorem genpqrRule_fresh (rd ra rb : Reg) :
    genpqrRule rd ra rb r s =
      if configLegal s.params.opw r.snap.desc then setProgress (.pqr 0 0 .round) s
      else finishAttempts .config 0 s := by
  rw [genpqrRule, hf]

/-- A sampler with an illegal configuration finishes at once; GENRAND alone keeps ATTEMPTS. -/
theorem commandRule_illegal_config {rd ra rb : Reg} {i : Instr}
    (hi : i ∈ [Instr.genprime rd, .genrand rd, .genpqr rd ra rb])
    (hc : ¬ configLegal s.params.opw r.snap.desc = true) :
    commandRule i r s =
      finish .config { s with attempts := if i = .genrand rd then s.attempts else 0 } := by
  simp only [List.mem_cons, List.not_mem_nil, or_false] at hi
  rcases hi with rfl | rfl | rfl
  · exact (genprimeRule_fresh hf rd).trans (if_neg hc)
  · rw [if_pos rfl]
    exact (genrandRule_fresh hf rd).trans (if_neg hc)
  · exact (genpqrRule_fresh hf rd ra rb).trans (if_neg hc)

end FirstStep

/-- Settles O40: the check is the first step, and it makes no draw. -/
theorem illegalConfigReported : Obligations.IllegalConfigReported := by
  unfold Obligations.IllegalConfigReported
  intro s r rd ra rb h hf hc i hi
  have hrule := commandRule_illegal_config (s := startTurn s) hf hi (mt configLegal_iff.1 hc)
  have hexec := exec_of_completes h (by rw [hrule]; rfl)
  rw [hrule] at hexec
  exact ⟨_, hexec, ⟨rfl, rfl, rfl⟩, rfl, rfl, rfl, rfl, rfl, sameSetting.refl s, rfl, rfl, rfl⟩

/-- A command that goes on from its first step to stage `p` and completes from there within its turn ends where it
completes (log 10). -/
theorem exec_of_first_step {i : Instr} {s t : State} {r : Running} {p : Progress} {n : Nat} (h : s.Undisturbed r)
    (hfirst : commandRule i r (startTurn s) = setProgress p (startTurn s)) (hn : n < Config.maxEngineSteps)
    (hsteps : runSteps (commandAbort i) (commandRule i) n (atStage (startTurn s) r p (startTurn s).mem) = t)
    (ht : t.run = none) : exec i s = .next t := by
  have hrun : (startTurn s).run = some r := h.running
  have hstage : setProgress p (startTurn s) = atStage (startTurn s) r p (startTurn s).mem := by
    rw [setProgress, hrun]
    rfl
  obtain ⟨m, hm⟩ := Nat.exists_eq_add_of_lt hn
  rw [exec_eq_runCommand, runCommand_running h.running, h.hostWaits, hm, runSteps_succ hrun, engineStep,
    h.noAbort, if_neg Bool.false_ne_true, hfirst, hstage, runSteps_add, hsteps, runSteps_idle ht]

/-! ## The samplers' steps fit in a turn (spec/70_reset_and_hazards.md R342) -/

theorem primeSteps_le (cap rounds : Word) : cap.toNat * (rounds.toNat + 3) ≤ 2 ^ 65 := by
  have hcap : cap.toNat < 2 ^ 32 := cap.isLt
  have hrounds : rounds.toNat < 2 ^ 32 := rounds.isLt
  calc cap.toNat * (rounds.toNat + 3) ≤ 2 ^ 32 * 2 ^ 33 := Nat.mul_le_mul hcap.le (by omega)
    _ = 2 ^ 65 := by norm_num

theorem pqrSteps_le (cap rounds : Word) : cap.toNat * (cap.toNat * (rounds.toNat + 3) + 7) ≤ 2 ^ 98 := by
  have hcap : cap.toNat < 2 ^ 32 := cap.isLt
  have hprime := primeSteps_le cap rounds
  calc cap.toNat * (cap.toNat * (rounds.toNat + 3) + 7) ≤ 2 ^ 32 * 2 ^ 66 := Nat.mul_le_mul hcap.le (by omega)
    _ = 2 ^ 98 := by norm_num

/-! ## gen_rand() on a list of draws (spec/43_candidate_generation.md R214, R219) -/

/-- A value of a bit-length in [MINBITS, MAXBITS]. -/
def Drawable (d : Desc) (v : Nat) : Prop :=
  ∃ len, d.minbits.toNat ≤ len ∧ len ≤ d.maxbits.toNat ∧ 2 ^ (len - 1) ≤ v ∧ v < 2 ^ len

theorem Drawable.lower {d : Desc} {v : Nat} (h : Drawable d v) : 2 ^ (d.minbits.toNat - 1) ≤ v := by
  obtain ⟨len, hmin, -, hv, -⟩ := h
  exact (Nat.pow_le_pow_right two_pos (by omega)).trans hv

theorem Drawable.upper {d : Desc} {v : Nat} (h : Drawable d v) : v < 2 ^ d.maxbits.toNat := by
  obtain ⟨len, -, hmax, -, hv⟩ := h
  exact hv.trans_le (Nat.pow_le_pow_right two_pos hmax)

/-- A drawn value fits a big register. -/
theorem Drawable.lt_opw {opw : Nat} {d : Desc} {v : Nat} (h : Drawable d v) (hc : configLegal opw d = true) :
    v < 2 ^ opw :=
  h.upper.trans_le (Nat.pow_le_pow_right two_pos (configLegal_iff.1 hc).2.2)

/-- `gen_rand()` takes a length and a value of it, and gives the value. -/
theorem genRandOn_eq_some {d : Desc} {l rest : List Nat} {v : Nat} :
    genRandOn d l = some (v, rest) ↔
      ∃ len, l = len :: v :: rest ∧ d.minbits.toNat ≤ len ∧ len ≤ d.maxbits.toNat ∧ 2 ^ (len - 1) ≤ v ∧
        v < 2 ^ len := by
  rcases l with _ | ⟨len, _ | ⟨w, l⟩⟩
  · simp [genRandOn]
  · simp [genRandOn]
  · have := Nat.two_pow_pos len
    simp only [genRandOn, Option.ite_none_right_eq_some, Option.some.injEq, Prod.mk.injEq, List.cons.injEq]
    constructor
    · rintro ⟨⟨hmin, hmax, hlo, hhi⟩, rfl, rfl⟩
      exact ⟨len, ⟨rfl, rfl, rfl⟩, hmin, hmax, hlo, by omega⟩
    · rintro ⟨_, ⟨rfl, rfl, rfl⟩, hmin, hmax, hlo, hhi⟩
      exact ⟨⟨hmin, hmax, hlo, by omega⟩, rfl, rfl⟩

theorem genRandOn_drawable {d : Desc} {l rest : List Nat} {v : Nat} (h : genRandOn d l = some (v, rest)) :
    Drawable d v := by
  obtain ⟨len, -, hlen⟩ := genRandOn_eq_some.1 h
  exact ⟨len, hlen⟩

/-! ## GENRAND (spec/43_candidate_generation.md R215) -/

theorem genrandRule_randLength (rd : Reg) (s : State) (r : Running) :
    genrandRule rd { r with progress := .randLength } (atStage s r .randLength s.mem) =
      atStage (afterDraw s) r (.randValue (lengthDraw r.snap.desc s)) (afterDraw s).mem := rfl

theorem genrandRule_randValue (rd : Reg) (s : State) (r : Running) (len : Nat) :
    genrandRule rd { r with progress := .randValue len } (atStage s r (.randValue len) s.mem) =
      finish .ok (setBig rd (valueDraw len s) (afterDraw s)) := rfl

/-- GENRAND stores what `gen_rand()` gives on the draws it makes. -/
theorem exec_genrand {s : State} {r : Running} (rd : Reg) (h : s.Undisturbed r)
    (hc : configLegal s.params.opw r.snap.desc = true) :
    ∃ ds v, Takes (genRandOn r.snap.desc) (startTurn s) ds v ∧
      exec (.genrand rd) s = .next (finish .ok (setBig rd v (later ds.length (startTurn s)))) := by
  obtain ⟨hmin, hmax, -⟩ := configLegal_iff.1 hc
  refine ⟨_, _, genRand_takes r.snap.desc (startTurn s) hmin hmax, ?_⟩
  refine exec_of_first_step (p := .randLength) (n := 2) h ((genrandRule_fresh h.fresh rd).trans (if_pos hc)) (by decide)
    ?_ rfl
  rw [commandRule, runSteps_atStage h.noAbort, genrandRule_randLength, runSteps_one h.noAbort, genrandRule_randValue,
    ← later_two]
  rfl

/-- Settles O41: the value stored is one `gen_rand()` gives. -/
theorem genrandResult : Obligations.GenrandResult := by
  unfold Obligations.GenrandResult
  intro s r rd h hc
  obtain ⟨ds, v, ht, hexec⟩ := exec_genrand rd h hc
  have hdraw : Drawable r.snap.desc v := genRandOn_drawable (ht.given [])
  let t : State := finish .ok (setBig rd v (later ds.length (startTurn s)))
  have hrd : t.bigs[rd] = bigOfNat s.params.opwWords v := setBig_get_same rd v _
  have hval : bigValue t.bigs[rd] = v := by rw [hrd, bigValue_bigOfNat_of_lt (hdraw.lt_opw hc)]
  have hunwritten : firstUnwritten t.bigs[rd] = none := by rw [hrd, firstUnwritten_bigOfNat]
  have ⟨len, hmin, hmax, hlo, hhi⟩ := hdraw
  refine ⟨t, len, hexec, ⟨rfl, rfl, rfl⟩, hmin, hmax, hval.symm ▸ hlo, hval.symm ▸ hhi, hunwritten,
    fun l w rest hent hl hl' hw hw' => ?_, fun k hk => setBig_get_other hk v _, rfl, rfl, rfl, rfl,
    sameSetting.refl s, rfl⟩
  obtain ⟨hwv, hrest⟩ := ht.waiting w rest (genRandOn_eq_some.2 ⟨l, hent, hl, hl', hw, hw'⟩)
  exact ⟨hval.trans hwv.symm, hrest⟩

/-! ## gen_prime() on a list of draws (spec/43_candidate_generation.md R212) -/

/-- A candidate of `gen_prime()`: a drawn value forced odd. -/
structure Candidate (d : Desc) (c : Nat) : Prop where
  odd : c % 2 = 1
  drawable : Drawable d c

theorem Drawable.candidate {d : Desc} {v : Nat} (hmin : 1 ≤ d.minbits.toNat) (h : Drawable d v) :
    Candidate d (forceOdd v) := by
  obtain ⟨len, hlen, hmax, hlo, hhi⟩ := h
  obtain ⟨hodd, hlo', hhi'⟩ := forceOdd_spec (hmin.trans hlen) hlo (by omega)
  exact ⟨hodd, len, hlen, hmax, hlo', hhi'⟩

section Prime

variable {d : Desc} (hmin : 1 ≤ d.minbits.toNat)
include hmin

/-- `gen_prime()` with budget left tests one candidate: it is found, or the next one is tried. -/
theorem genPrimeOn_succ_cases {n cnt cnt' : Nat} {l rest : List Nat} {found : Option Nat}
    (h : genPrimeOn d (n + 1) cnt l = some (found, cnt', rest)) :
    ∃ c l' b l'', Candidate d c ∧ fermatOn c d.rounds.toNat l' = some (b, l'') ∧
      ((b = true ∧ found = some c ∧ cnt' = cnt + 1) ∨
        (b = false ∧ genPrimeOn d n (cnt + 1) l'' = some (found, cnt', rest))) := by
  rw [genPrimeOn] at h
  split at h
  case h_1 => cases h
  case h_2 v l' hv =>
    have hcand : Candidate d (forceOdd v) := (genRandOn_drawable hv).candidate hmin
    dsimp only at h
    split at h
    case h_1 => cases h
    case h_2 l'' hpass =>
      cases h
      exact ⟨_, l', true, _, hcand, hpass, .inl ⟨rfl, rfl, rfl⟩⟩
    case h_3 l'' hfail => exact ⟨_, l', false, l'', hcand, hfail, .inr ⟨rfl, h⟩⟩

/-- `gen_prime()` counts within its budget and uses all of it to fail; what it finds is a candidate that passed. -/
theorem genPrimeOn_result {n cnt cnt' : Nat} {l rest : List Nat} {found : Option Nat}
    (h : genPrimeOn d n cnt l = some (found, cnt', rest)) :
    cnt' ≤ cnt + n ∧ (found = none → cnt' = cnt + n) ∧
      ∀ c, found = some c → cnt < cnt' ∧ Candidate d c ∧ ∃ l' l'', fermatOn c d.rounds.toNat l' = some (true, l'') := by
  induction n generalizing cnt l with
  | zero =>
    cases h
    exact ⟨le_rfl, fun _ => rfl, nofun⟩
  | succ n ih =>
    obtain ⟨c, l', b, l'', hcand, hb, ⟨rfl, rfl, rfl⟩ | ⟨-, hnext⟩⟩ := genPrimeOn_succ_cases hmin h
    · refine ⟨by omega, nofun, fun c' hc' => ?_⟩
      cases hc'
      exact ⟨Nat.lt_succ_self cnt, hcand, l', l'', hb⟩
    · obtain ⟨hle, hfail, hfound⟩ := ih hnext
      refine ⟨by omega, fun hn => (hfail hn).trans (by omega), fun c' hc' => ?_⟩
      obtain ⟨hlt, haccepted⟩ := hfound c' hc'
      exact ⟨by omega, haccepted⟩

/-- Where every candidate passes, the first one is found. -/
theorem genPrimeOn_of_all_pass (hpass : ∀ c l' l'', Candidate d c → fermatOn c d.rounds.toNat l' ≠ some (false, l''))
    {n cnt cnt' : Nat} {l rest : List Nat} {found : Option Nat} (hn : n ≠ 0)
    (h : genPrimeOn d n cnt l = some (found, cnt', rest)) : ∃ c, found = some c ∧ cnt' = cnt + 1 := by
  obtain ⟨n, rfl⟩ := Nat.exists_eq_succ_of_ne_zero hn
  obtain ⟨c, l', b, l'', hcand, hb, ⟨-, hfound, hcnt⟩ | ⟨rfl, -⟩⟩ := genPrimeOn_succ_cases hmin h
  · exact ⟨c, hfound, hcnt⟩
  · exact absurd hb (hpass c l' l'' hcand)

end Prime

/-! ## Candidates that always pass, and ones that never do (spec/43_candidate_generation.md R218) -/

theorem Candidate.eq_one_of_one_bit {d : Desc} {c : Nat} (h : Candidate d c) (hmax : d.maxbits = 1) : c = 1 := by
  have hlt := h.drawable.upper
  have hodd := h.odd
  rw [hmax, show (1 : Word).toNat = 1 from rfl] at hlt
  omega

theorem Candidate.eq_three_of_two_bits {d : Desc} {c : Nat} (h : Candidate d c) (hmin : d.minbits = 2)
    (hmax : d.maxbits = 2) : c = 3 := by
  have hle := h.drawable.lower
  have hlt := h.drawable.upper
  have hodd := h.odd
  rw [hmin, show (2 : Word).toNat - 1 = 1 from rfl] at hle
  rw [hmax, show (2 : Word).toNat = 2 from rfl] at hlt
  omega

theorem two_le_of_drawable {d : Desc} {v : Nat} (h : Drawable d v) (hmin : 2 ≤ d.minbits.toNat) : 2 ≤ v :=
  (Nat.pow_le_pow_right two_pos (show 1 ≤ d.minbits.toNat - 1 by omega)).trans h.lower

/-- Candidates of two bits, and all from two bits on with ROUNDS = 0, pass whatever the draws. -/
theorem candidate_passes {d : Desc} (hsure : (d.minbits = 2 ∧ d.maxbits = 2) ∨ (2 ≤ d.minbits.toNat ∧ d.rounds = 0))
    (c : Nat) (l rest : List Nat) (hcand : Candidate d c) : fermatOn c d.rounds.toNat l ≠ some (false, rest) := by
  rcases hsure with ⟨hmin, hmax⟩ | ⟨hmin, hrounds⟩
  · rw [fermatOn_two_or_three (.inr (hcand.eq_three_of_two_bits hmin hmax))]
    nofun
  · rw [hrounds, show (0 : Word).toNat = 0 from rfl, fermatOn_zero,
      decide_eq_true (two_le_of_drawable hcand.drawable hmin)]
    nofun

/-! ## GENPRIME (spec/43_candidate_generation.md R213) -/

/-- GENPRIME ended with what `gen_prime()` gave. -/
def genprimeEnd (rd : Reg) (found : Option Nat) (cnt : Nat) (s : State) : State :=
  match found with
  | some c => finishAttempts .ok cnt (setBig rd c s)
  | none => finishAttempts .genFail cnt s

theorem genprimeEnd_lifecycle (rd : Reg) (found : Option Nat) (cnt : Nat) (s : State) :
    (genprimeEnd rd found cnt s).run = none ∧ (genprimeEnd rd found cnt s).attempts = sat32 cnt ∧
      (genprimeEnd rd found cnt s).drawCount = s.drawCount ∧ (genprimeEnd rd found cnt s).entropy = s.entropy := by
  cases found <;> exact ⟨rfl, rfl, rfl, rfl⟩

theorem genprimeEnd_found (rd : Reg) {c : Nat} (cnt : Nat) {s : State} (hc : c < 2 ^ s.params.opw) :
    completed .ok (genprimeEnd rd (some c) cnt s) ∧ bigValue (genprimeEnd rd (some c) cnt s).bigs[rd] = c ∧
      firstUnwritten (genprimeEnd rd (some c) cnt s).bigs[rd] = none := by
  have hrd : (genprimeEnd rd (some c) cnt s).bigs[rd] = bigOfNat s.params.opwWords c := setBig_get_same rd c s
  exact ⟨⟨rfl, rfl, rfl⟩, by rw [hrd, bigValue_bigOfNat_of_lt hc], by rw [hrd, firstUnwritten_bigOfNat]⟩

/-- GENPRIME ends with what `gen_prime()` gives on the draws it makes. -/
theorem exec_genprime {s : State} {r : Running} (rd : Reg) (h : s.Undisturbed r)
    (hc : configLegal s.params.opw r.snap.desc = true) :
    ∃ ds found cnt, Takes (genPrimeDraws r.snap.desc r.snap.desc.attemptCap.toNat 0) (startTurn s) ds (found, cnt) ∧
      exec (.genprime rd) s = .next (genprimeEnd rd found cnt (later ds.length (startTurn s))) := by
  obtain ⟨hmin, hmax, -⟩ := configLegal_iff.1 hc
  obtain ⟨n, ds, found, cnt, hn, ht, hrun⟩ :=
    primeRun_attempt r.snap.desc hmin hmax r.snap.desc.attemptCap.toNat 0 (startTurn s) (Nat.zero_add _)
  have hsteps := runSteps_genprime h.noAbort rd 0 hrun
  have hend := genprimeEnd_lifecycle rd found cnt (later ds.length (startTurn s))
  refine ⟨ds, found, cnt, ht, exec_of_first_step (n := n + 0) h ((genprimeRule_fresh h.fresh rd).trans (if_pos hc)) ?_
    (hsteps.trans ?_) hend.1⟩
  · have hsteps := primeSteps_le r.snap.desc.attemptCap r.snap.desc.rounds
    rw [Config.maxEngineSteps]
    omega
  · cases found <;> rfl

/-- A result with its draws apart is the result with its draws. -/
theorem map_regroup_eq_some {α β γ : Type} {x : Option (α × β × γ)} {a : α} {b : β} {c : γ} :
    (x.map fun p => ((p.1, p.2.1), p.2.2)) = some ((a, b), c) ↔ x = some (a, b, c) := by
  rcases x with _ | ⟨a', b', c'⟩ <;> simp [and_assoc]

theorem genPrimeDraws_eq_some {d : Desc} {n cnt cnt' : Nat} {l rest : List Nat} {found : Option Nat} :
    genPrimeDraws d n cnt l = some ((found, cnt'), rest) ↔ genPrimeOn d n cnt l = some (found, cnt', rest) :=
  map_regroup_eq_some

/-- The draws taken are all the draws `gen_prime()` needs. -/
theorem genPrimeOn_of_takes {d : Desc} {n cnt cnt' : Nat} {s : State} {ds : List Nat} {found : Option Nat}
    (h : Takes (genPrimeDraws d n cnt) s ds (found, cnt')) : genPrimeOn d n cnt ds = some (found, cnt', []) := by
  simpa using genPrimeDraws_eq_some.1 (h.given [])

/-- Settles O42: the turn is `gen_prime()` on the draws it makes, and what that gives is a candidate that passed. -/
theorem genprimeResult : Obligations.GenprimeResult := by
  unfold Obligations.GenprimeResult
  intro s r rd h hc
  obtain ⟨ds, found, cnt, ht, hexec⟩ := exec_genprime rd h hc
  have hon := genPrimeOn_of_takes ht
  obtain ⟨hle, hfail, hfound⟩ := genPrimeOn_result (configLegal_iff.1 hc).1 hon
  rw [Nat.zero_add] at hle hfail
  have hcap : r.snap.desc.attemptCap.toNat < 2 ^ 32 := r.snap.desc.attemptCap.isLt
  obtain ⟨-, hattempts, hcount, hentropy⟩ := genprimeEnd_lifecycle rd found cnt (later ds.length (startTurn s))
  have hcnt : (genprimeEnd rd found cnt (later ds.length (startTurn s))).attempts.toNat = cnt := by
    rw [hattempts, sat32_toNat (by omega)]
  have hframe := (exec_goesOnOrCompletes hexec).keepsFrame
  refine ⟨_, ds, found, cnt, hexec, hon, hcount, hentropy, fun found' cnt' rest hwait => ?_,
    fun k hk => hframe.bigs k (by simpa [destinations] using hk), hframe.prime nofun, hframe.neg nofun,
    hframe.outLen nofun nofun, exec_sameSetting hexec, exec_mem (i := .genprime rd) nofun nofun hexec, hcnt, hle, ?_⟩
  · obtain ⟨heq, hrest⟩ := ht.waiting _ _ (genPrimeDraws_eq_some.2 hwait)
    cases heq
    exact ⟨rfl, rfl, hentropy.trans hrest⟩
  · cases found with
    | none => exact ⟨⟨rfl, rfl, rfl⟩, rfl, BitVec.eq_of_toNat_eq (hcnt.trans (hfail rfl))⟩
    | some c =>
      obtain ⟨hpos, ⟨hodd, hdraw⟩, -⟩ := hfound c rfl
      obtain ⟨hok, hval, hwritten⟩ :=
        genprimeEnd_found rd cnt (s := later ds.length (startTurn s)) (hdraw.lt_opw hc)
      exact ⟨hok, hval, hwritten, hpos, hodd, hdraw⟩

/-- Settles O43: each corner is what `gen_prime()` can give there. -/
theorem genprimeCorners : Obligations.GenprimeCorners := by
  unfold Obligations.GenprimeCorners
  intro s r rd h hc
  obtain ⟨ds, found, cnt, ht, hexec⟩ := exec_genprime rd h hc
  have hmin := (configLegal_iff.1 hc).1
  have hon := genPrimeOn_of_takes ht
  obtain ⟨hle, hfail, hfound⟩ := genPrimeOn_result hmin hon
  have hfirst (hsure) (hcap : r.snap.desc.attemptCap ≠ 0) : ∃ c, found = some c ∧ cnt = 1 :=
    genPrimeOn_of_all_pass hmin (candidate_passes hsure) (by simpa [BitVec.toNat_eq] using hcap) hon
  refine ⟨_, hexec, fun hcap => ?_, fun hone => ?_, fun htwo htwo' hcap => ?_, fun htwo hrounds hcap => ?_⟩
  · rw [hcap] at hon
    cases hon
    exact ⟨⟨rfl, rfl, rfl⟩, rfl, rfl⟩
  · obtain rfl : found = none := by
      rw [Option.eq_none_iff_forall_ne_some]
      intro c hsome
      obtain ⟨-, hcand, l, l', hpass⟩ := hfound c hsome
      rw [hcand.eq_one_of_one_bit hone, fermatOn_of_le_one le_rfl] at hpass
      cases hpass
    obtain rfl := hfail rfl
    have hcap : r.snap.desc.attemptCap.toNat < 2 ^ 32 := r.snap.desc.attemptCap.isLt
    exact ⟨⟨rfl, rfl, rfl⟩, BitVec.eq_of_toNat_eq ((sat32_toNat (by omega)).trans (Nat.zero_add _))⟩
  · obtain ⟨c, rfl, rfl⟩ := hfirst (.inl ⟨htwo, htwo'⟩) hcap
    obtain ⟨-, hcand, -⟩ := hfound c rfl
    obtain ⟨hok, hval, -⟩ :=
      genprimeEnd_found rd 1 (s := later ds.length (startTurn s)) (hcand.drawable.lt_opw hc)
    exact ⟨hok, hval.trans (hcand.eq_three_of_two_bits htwo htwo'), rfl⟩
  · obtain ⟨c, rfl, rfl⟩ := hfirst (.inr ⟨htwo, hrounds⟩) hcap
    obtain ⟨-, hcand, -⟩ := hfound c rfl
    obtain ⟨hok, hval, -⟩ :=
      genprimeEnd_found rd 1 (s := later ds.length (startTurn s)) (hcand.drawable.lt_opw hc)
    exact ⟨hok, rfl, hval.symm ▸ hcand.odd⟩

/-! ## The loop of GENPQR on a list of draws (spec/43_candidate_generation.md R216) -/

section Pqr

variable {d : Desc}

/-- A round of GENPQR: `gen_prime()` fails, or finds the p that is judged against a drawn q and w, to be accepted or
drawn again in the next round. -/
theorem genPqrOn_succ_cases {n total total' : Nat} {l rest : List Nat} {found : Option (Nat × Nat × Nat)}
    (h : genPqrOn d (n + 1) total l = some (found, total', rest)) :
    ∃ f cnt l', genPrimeOn d d.attemptCap.toNat 0 l = some (f, cnt, l') ∧
      ((f = none ∧ found = none ∧ total' = total + cnt) ∨
        ∃ p q w, f = some p ∧ Drawable d q ∧ Drawable d w ∧
          ((p < q * w ∧ found = some (p, q, w) ∧ total' = total + cnt) ∨
            (¬ p < q * w ∧ ∃ l'', genPqrOn d n (total + cnt) l'' = some (found, total', rest)))) := by
  rw [genPqrOn] at h
  split at h
  case h_1 => cases h
  case h_2 cnt l' hprime =>
    cases h
    exact ⟨none, cnt, _, hprime, .inl ⟨rfl, rfl, rfl⟩⟩
  case h_3 p cnt l' hprime =>
    refine ⟨some p, cnt, l', hprime, .inr ?_⟩
    split at h
    case h_1 => cases h
    case h_2 q lq hq =>
      split at h
      case h_1 => cases h
      case h_2 w lw hw =>
        refine ⟨p, q, w, rfl, genRandOn_drawable hq, genRandOn_drawable hw, ?_⟩
        split at h
        case isTrue hlt =>
          cases h
          exact .inl ⟨hlt, rfl, rfl⟩
        case isFalse hlt => exact .inr ⟨hlt, lw, h⟩

/-- What the loop of GENPQR accepts: a candidate p and drawn q and w with p < q * w. -/
structure Accepted (d : Desc) (p q w : Nat) : Prop where
  lt : p < q * w
  prime : Candidate d p
  q_drawable : Drawable d q
  w_drawable : Drawable d w

/-- Numbers of one bit-length from two bits on are never rejected (spec/43_candidate_generation.md R218). -/
theorem lt_mul_of_one_length {p q w : Nat} (heq : d.minbits = d.maxbits) (h2 : 2 ≤ d.minbits.toNat) (hp : Drawable d p)
    (hq : Drawable d q) (hw : Drawable d w) : p < q * w :=
  calc p < 2 ^ d.minbits.toNat := heq ▸ hp.upper
    _ ≤ 2 ^ (d.minbits.toNat - 1 + (d.minbits.toNat - 1)) := Nat.pow_le_pow_right two_pos (by omega)
    _ = 2 ^ (d.minbits.toNat - 1) * 2 ^ (d.minbits.toNat - 1) := pow_add 2 _ _
    _ ≤ q * w := Nat.mul_le_mul hq.lower hw.lower

variable (hmin : 1 ≤ d.minbits.toNat)
include hmin

theorem genPqrOn_accepted {n total total' : Nat} {l rest : List Nat} {p q w : Nat}
    (h : genPqrOn d n total l = some (some (p, q, w), total', rest)) : total < total' ∧ Accepted d p q w := by
  induction n generalizing total l with
  | zero => cases h
  | succ n ih =>
    obtain ⟨f, cnt, l', hprime, ⟨-, hnone, -⟩ | ⟨p', q', w', rfl, hq, hw, hround⟩⟩ := genPqrOn_succ_cases h
    · cases hnone
    · rcases hround with ⟨hlt, hsome, rfl⟩ | ⟨-, l'', hnext⟩
      · cases hsome
        obtain ⟨hcnt, hcand, -⟩ := (genPrimeOn_result hmin hprime).2.2 p rfl
        exact ⟨by omega, hlt, hcand, hq, hw⟩
      · obtain ⟨hlt, hacc⟩ := ih hnext
        exact ⟨by omega, hacc⟩

/-- Where every candidate passes and all lengths are one, the first round is accepted with one candidate. -/
theorem genPqrOn_first_round (hpass : ∀ c l' l'', Candidate d c → fermatOn c d.rounds.toNat l' ≠ some (false, l''))
    (heq : d.minbits = d.maxbits) (h2 : 2 ≤ d.minbits.toNat) (hcap : d.attemptCap.toNat ≠ 0) {n total total' : Nat}
    {l rest : List Nat} {found : Option (Nat × Nat × Nat)} (hn : n ≠ 0)
    (h : genPqrOn d n total l = some (found, total', rest)) : found.isSome ∧ total' = total + 1 := by
  obtain ⟨n, rfl⟩ := Nat.exists_eq_succ_of_ne_zero hn
  obtain ⟨f, cnt, l', hprime, hround⟩ := genPqrOn_succ_cases h
  obtain ⟨p, rfl, rfl⟩ := genPrimeOn_of_all_pass hmin hpass hcap hprime
  obtain ⟨-, hcand, -⟩ := (genPrimeOn_result hmin hprime).2.2 p rfl
  rcases hround with ⟨hnone, -, -⟩ | ⟨p', q, w, hsome, hq, hw, hround⟩
  · cases hnone
  · cases hsome
    rcases hround with ⟨-, rfl, rfl⟩ | ⟨hge, -⟩
    · exact ⟨rfl, rfl⟩
    · exact absurd (lt_mul_of_one_length heq h2 hcand.drawable hq hw) hge

end Pqr

/-! ## GENPQR (spec/43_candidate_generation.md R216) -/

/-- GENPQR ended with what its loop gave. -/
def genpqrEnd (rd ra rb : Reg) (found : Option (Nat × Nat × Nat)) (total : Nat) (s : State) : State :=
  match found with
  | some (p, q, w) => finishAttempts .ok total (setBig rb w (setBig ra q (setBig rd p s)))
  | none => finishAttempts .genFail total s

theorem genpqrEnd_lifecycle (rd ra rb : Reg) (found : Option (Nat × Nat × Nat)) (total : Nat) (s : State) :
    (genpqrEnd rd ra rb found total s).run = none ∧ (genpqrEnd rd ra rb found total s).attempts = sat32 total ∧
      (genpqrEnd rd ra rb found total s).drawCount = s.drawCount ∧
      (genpqrEnd rd ra rb found total s).entropy = s.entropy := by
  cases found <;> exact ⟨rfl, rfl, rfl, rfl⟩

/-- Three distinct destinations hold what was stored in each. -/
theorem genpqrEnd_bigs {rd ra rb : Reg} (hwf : (Instr.genpqr rd ra rb).wf = true) (p q w total : Nat) (s : State) :
    (genpqrEnd rd ra rb (some (p, q, w)) total s).bigs[rd] = bigOfNat s.params.opwWords p ∧
      (genpqrEnd rd ra rb (some (p, q, w)) total s).bigs[ra] = bigOfNat s.params.opwWords q ∧
      (genpqrEnd rd ra rb (some (p, q, w)) total s).bigs[rb] = bigOfNat s.params.opwWords w := by
  obtain ⟨⟨hda, hdb⟩, hab⟩ : (rd ≠ ra ∧ rd ≠ rb) ∧ ra ≠ rb := by simpa [Instr.wf] using hwf
  refine ⟨?_, ?_, setBig_get_same rb w _⟩
  · exact (setBig_get_other hdb w _).trans ((setBig_get_other hda q _).trans (setBig_get_same rd p s))
  · exact (setBig_get_other hab w _).trans (setBig_get_same ra q _)

/-- GENPQR ends with what its loop gives on the draws it makes. -/
theorem exec_genpqr {s : State} {r : Running} (rd ra rb : Reg) (h : s.Undisturbed r)
    (hc : configLegal s.params.opw r.snap.desc = true) :
    ∃ ds found total,
      Takes (genPqrDraws r.snap.desc r.snap.desc.attemptCap.toNat 0) (startTurn s) ds (found, total) ∧
      exec (.genpqr rd ra rb) s = .next (genpqrEnd rd ra rb found total (later ds.length (startTurn s))) := by
  obtain ⟨hmin, hmax, -⟩ := configLegal_iff.1 hc
  obtain ⟨n, ds, found, total, hn, ht, hrun⟩ :=
    runSteps_pqr_round h.noAbort rd ra rb hmin hmax r.snap.desc.attemptCap.toNat 0 0 (startTurn s) (Nat.zero_add _)
  have hend := genpqrEnd_lifecycle rd ra rb found total (later ds.length (startTurn s))
  refine ⟨ds, found, total, ht, exec_of_first_step (n := n + 0) h
    ((genpqrRule_fresh h.fresh rd ra rb).trans (if_pos hc)) ?_ ((hrun 0).trans ?_) hend.1⟩
  · have hsteps := pqrSteps_le r.snap.desc.attemptCap r.snap.desc.rounds
    rw [Config.maxEngineSteps]
    omega
  · rcases found with _ | ⟨p, q, w⟩ <;> rfl

theorem genPqrDraws_eq_some {d : Desc} {n total total' : Nat} {l rest : List Nat} {found : Option (Nat × Nat × Nat)} :
    genPqrDraws d n total l = some ((found, total'), rest) ↔ genPqrOn d n total l = some (found, total', rest) :=
  map_regroup_eq_some

/-- ATTEMPTS saturates (spec/43_candidate_generation.md R217). -/
theorem sat32_toNat_eq_min (n : Nat) : (sat32 n).toNat = min n (2 ^ 32 - 1) := by
  rw [sat32, BitVec.toNat_ofNat]
  omega

/-- Settles O44: the turn is the loop on the draws it makes, and what that gives was accepted. -/
theorem genpqrResult : Obligations.GenpqrResult := by
  unfold Obligations.GenpqrResult
  intro s r rd ra rb h hc hwf
  obtain ⟨ds, found, total, ht, hexec⟩ := exec_genpqr rd ra rb h hc
  have hmin := (configLegal_iff.1 hc).1
  have hon : genPqrOn r.snap.desc r.snap.desc.attemptCap.toNat 0 ds = some (found, total, []) := by
    simpa using genPqrDraws_eq_some.1 (ht.given [])
  obtain ⟨-, hattempts, hcount, hentropy⟩ := genpqrEnd_lifecycle rd ra rb found total (later ds.length (startTurn s))
  have hframe := (exec_goesOnOrCompletes hexec).keepsFrame
  refine ⟨_, ds, found, total, hexec, hon, hcount, hentropy, fun found' total' rest hwait => ?_,
    fun k hk => hframe.bigs k hk, hframe.prime nofun, hframe.neg nofun,
    hframe.outLen nofun nofun, exec_sameSetting hexec, exec_mem (i := .genpqr rd ra rb) nofun nofun hexec,
    hattempts ▸ sat32_toNat_eq_min total, ?_, fun heq h2 hcap hsure => ?_, fun hcap => ?_⟩
  · obtain ⟨heq, hrest⟩ := ht.waiting _ _ (genPqrDraws_eq_some.2 hwait)
    cases heq
    exact ⟨rfl, rfl, hentropy.trans hrest⟩
  · rcases found with _ | ⟨p, q, w⟩
    · exact ⟨⟨rfl, rfl, rfl⟩, rfl⟩
    · obtain ⟨hpos, hlt, ⟨hodd, hp⟩, hq, hw⟩ := genPqrOn_accepted hmin hon
      obtain ⟨hrd, hra, hrb⟩ := genpqrEnd_bigs hwf p q w total (later ds.length (startTurn s))
      refine ⟨⟨rfl, rfl, rfl⟩, ?_, ?_, ?_, hlt, hodd, hpos, ?_, ?_⟩
      · rw [hrd]
        exact bigValue_bigOfNat_of_lt (hp.lt_opw hc)
      · rw [hra]
        exact bigValue_bigOfNat_of_lt (hq.lt_opw hc)
      · rw [hrb]
        exact bigValue_bigOfNat_of_lt (hw.lt_opw hc)
      · intro k hk
        simp only [List.mem_cons, List.not_mem_nil, or_false] at hk
        rcases hk with rfl | rfl | rfl
        · rw [hrd, firstUnwritten_bigOfNat]
        · rw [hra, firstUnwritten_bigOfNat]
        · rw [hrb, firstUnwritten_bigOfNat]
      · simpa using ⟨hp, hq, hw⟩
  · have hcap : r.snap.desc.attemptCap.toNat ≠ 0 := by simpa [BitVec.toNat_eq] using hcap
    have hpass := candidate_passes (d := r.snap.desc)
      (hsure.symm.imp (fun hmin => ⟨hmin, heq ▸ hmin⟩) fun hrounds => ⟨h2, hrounds⟩)
    obtain ⟨hsome, rfl⟩ := genPqrOn_first_round hmin hpass heq h2 hcap hcap hon
    obtain ⟨⟨p, q, w⟩, rfl⟩ := Option.isSome_iff_exists.1 hsome
    exact ⟨⟨rfl, rfl, rfl⟩, rfl⟩
  · rw [hcap] at hon
    cases hon
    exact ⟨⟨rfl, rfl, rfl⟩, rfl, rfl⟩

end Sys2Proof.Machine
end

section
/-! The LSB codec: the slot write, the checks before any access, how EMBED and EXTRACT end where every access is admitted, and
the round trip (spec/44_lsb_codec.md R242 to R251). -/

namespace Sys2Proof.Machine

/-! ## The slot write (spec/44_lsb_codec.md R245) -/

/-- SET_LSB puts the bit below the sample's upper seven bits. -/
theorem slotVal_setLsb_eq_concat (v : Byte) (t : Bool) : slotVal .setLsb v t = (v.extractLsb' 1 7).concat t := by
  have hmask : ∀ l : Fin 7, (0xFE#8)[l.val + 1] = true := by decide
  ext l hl
  rcases l with _ | l
  · cases t <;> simp [slotVal]
  · have hl' := hmask ⟨l, by omega⟩
    cases t <;> simp [slotVal, hl', Nat.add_comm, BitVec.getLsbD_eq_getElem hl]

/-- Bit 0 is the parity of the sample. -/
theorem getLsbD_zero_eq_decide (v : Byte) : v.getLsbD 0 = decide (v.toNat % 2 = 1) := by
  rw [BitVec.getLsbD, Nat.testBit_zero]

/-- Subtracting 1 modulo 256 flips bit 0. -/
theorem getLsbD_zero_sub_one (v : Byte) : (v - 1).getLsbD 0 = !v.getLsbD 0 := by
  rw [getLsbD_zero_eq_decide, getLsbD_zero_eq_decide, ← decide_not, decide_eq_decide]
  bv_omega

theorem slotVal_decrement_of_ne {v : Byte} {t : Bool} (h : v.getLsbD 0 ≠ t) : slotVal .decrement v t = v - 1 := if_neg h

/-- The new sample carries the bit, in both modes. -/
theorem slotVal_getLsbD_zero (mode : EmbedMode) (v : Byte) (t : Bool) : (slotVal mode v t).getLsbD 0 = t := by
  cases mode with
  | setLsb => rw [slotVal_setLsb_eq_concat, BitVec.getLsbD_concat_zero]
  | decrement =>
    by_cases h : v.getLsbD 0 = t
    · rw [slotVal, if_pos h, h]
    · rw [slotVal_decrement_of_ne h, getLsbD_zero_sub_one]
      exact Bool.not_eq.2 h

theorem slotVal_setLsb_toNat (v : Byte) (t : Bool) : (slotVal .setLsb v t).toNat = v.toNat / 2 * 2 + t.toNat := by
  have := v.isLt
  rw [slotVal_setLsb_eq_concat, BitVec.toNat_concat, BitVec.extractLsb'_toNat, Nat.shiftRight_eq_div_pow]
  omega

/-- A sample that carries the bit stays as it is, in both modes. -/
theorem slotVal_of_carried (mode : EmbedMode) {v : Byte} {t : Bool} (h : v.getLsbD 0 = t) : slotVal mode v t = v := by
  cases mode with
  | setLsb =>
    have hbit : (v.getLsbD 0).toNat = v.toNat % 2 := by rw [BitVec.getLsbD, Nat.toNat_testBit, pow_zero, Nat.div_one]
    apply BitVec.eq_of_toNat_eq
    rw [slotVal_setLsb_toNat, ← h, hbit]
    omega
  | decrement => exact if_pos h

/-- Settles O45: SET_LSB is a concatenation, DECREMENT flips the parity. -/
theorem slotWriteCarriesBit : Obligations.SlotWriteCarriesBit := by
  unfold Obligations.SlotWriteCarriesBit
  refine fun mode v t => ⟨slotVal_getLsbD_zero mode v t, slotVal_of_carried mode, slotVal_setLsb_toNat v t, fun h => ?_⟩
  rw [slotVal_decrement_of_ne h]
  bv_omega

/-! ## The checks before any access (spec/44_lsb_codec.md R242, R243, R246, R248) -/

theorem outOfRange_eq_true {d : Desc} {n : Nat} :
    outOfRange d n = true ↔ d.pixBase.toNat + slotCount d > 2 ^ 32 ∨ d.msgBase.toNat + n > 2 ^ 32 := by
  simp [outOfRange]

theorem buffersOverlap_eq_true {d : Desc} {n : Nat} :
    buffersOverlap d n = true ↔ 0 < n ∧ 0 < slotCount d ∧ d.pixBase.toNat < d.msgBase.toNat + n ∧
      d.msgBase.toNat < d.pixBase.toNat + slotCount d := by
  simp only [buffersOverlap, rangesOverlap, Bool.and_eq_true, decide_eq_true_eq]
  omega

/-- The first check that fails for a message buffer of `n` bytes is reported with `code`. -/
def FailsCheck (i : Instr) (d : Desc) (n : Nat) (code : ErrCode) : Prop :=
  outOfRange d n = true ∧ code = .range ∨
  outOfRange d n = false ∧ buffersOverlap d n = true ∧ code = .overlap ∨
  outOfRange d n = false ∧ buffersOverlap d n = false ∧ i = .embed ∧ 9 * n > slotCount d ∧ code = .capacity

theorem embedRule_failsCheck {r : Running} {code : ErrCode} (hfresh : r.progress = .fresh)
    (h : FailsCheck .embed r.snap.desc r.snap.desc.msgLen.toNat code) (s : State) :
    embedRule r s = finishOutLen code 0 s := by
  rcases h with ⟨hrange, rfl⟩ | ⟨hrange, hoverlap, rfl⟩ | ⟨hrange, hoverlap, -, hcap, rfl⟩
  · simp [embedRule, hfresh, hrange]
  · simp [embedRule, hfresh, hrange, hoverlap]
  · simp [embedRule, hfresh, hrange, hoverlap, hcap]

theorem extractRule_failsCheck {r : Running} {code : ErrCode} (hfresh : r.progress = .fresh)
    (h : FailsCheck .extract r.snap.desc r.snap.desc.msgCap.toNat code) (s : State) :
    extractRule r s = finishOutLen code 0 s := by
  rcases h with ⟨hrange, rfl⟩ | ⟨hrange, hoverlap, rfl⟩ | ⟨-, -, he, -⟩
  · simp [extractRule, hfresh, hrange]
  · simp [extractRule, hfresh, hrange, hoverlap]
  · cases he

/-- A codec command whose first step is a completion ends there. -/
theorem exec_of_finishOutLen {i : Instr} {s : State} {r : Running} {n : Nat} {code : ErrCode} (h : s.EngineToMove r)
    (hrule : commandRule i r (startTurn s) = finishOutLen code n (startTurn s)) :
    exec i s = .next (finishOutLen code n (startTurn s)) :=
  (exec_of_completes h (by rw [hrule]; rfl)).trans (congrArg _ hrule)

/-- Settles O46: the command's first step is the checks, and the first that fails ends it. -/
theorem codecChecksBeforeAccess : Obligations.CodecChecksBeforeAccess := by
  unfold Obligations.CodecChecksBeforeAccess
  intro s r h hfresh i hi n hn code hcheck
  rw [← outOfRange_eq_true, ← outOfRange_eq_false, ← buffersOverlap_eq_true] at hcheck
  have hfails : FailsCheck i r.snap.desc n code := hcheck
  have hrule : commandRule i r (startTurn s) = finishOutLen code 0 (startTurn s) := by
    simp only [List.mem_cons, List.not_mem_nil, or_false] at hi
    subst hn
    rcases hi with rfl | rfl
    · exact embedRule_failsCheck hfresh hfails _
    · exact extractRule_failsCheck hfresh hfails _
  exact ⟨_, exec_of_finishOutLen h hrule, ⟨rfl, rfl, rfl⟩, rfl, rfl, rfl, rfl, rfl, rfl, sameSetting.refl s⟩

/-- A command the host waits for has its first step to make. -/
theorem State.Undisturbed.engineToMove {s : State} {r : Running} (h : s.Undisturbed r) : s.EngineToMove r :=
  ⟨h.running, h.noAbort, by rw [h.hostWaits]; exact Nat.two_pow_pos 100⟩

/-! ## EMBED with every access admitted (spec/44_lsb_codec.md R246, R247) -/

/-- A 32-bit length is no larger than OUT_LEN can hold. -/
theorem sat32_toNat_self (w : Word) : sat32 w.toNat = w := BitVec.eq_of_toNat_eq (sat32_toNat w.isLt)

/-- After its last group EMBED has only its completion left. -/
theorem embed_ends {s : State} {r : Running} (hr : r.abortReq = false) :
    runSteps abortOutLen embedRule 1 (embedGroup s r r.snap.desc.msgLen.toNat) =
      finishOutLen .ok r.snap.desc.msgLen.toNat (embedGroup s r r.snap.desc.msgLen.toNat) := by
  rw [embedGroup, runSteps_one hr]
  simp [embedRule]

/-- Settles O47: the engine comes to the end of the message with its slots written, and completes. -/
theorem embedResult : Obligations.EmbedResult := by
  unfold Obligations.EmbedResult
  intro s r h hm hrange hoverlap hfits hadmits
  have hlen : r.snap.desc.msgLen.toNat < 2 ^ 32 := r.snap.desc.msgLen.isLt
  have htop : r.snap.desc.pixBase.toNat + 9 * r.snap.desc.msgLen.toNat ≤ 2 ^ 32 := by
    have := (outOfRange_eq_false.1 hrange).1
    omega
  have hgroup := embed_reaches_group (s := startTurn s) h.noAbort hm ⟨hrange, hoverlap⟩ hfits le_rfl hadmits
  have hend := runSteps_then hgroup (embed_ends h.noAbort) rfl
  exact ⟨_, exec_of_runSteps h (by omega) hend rfl, ⟨rfl, rfl, rfl⟩, sat32_toNat_self _,
    fun j i hj hi => memRead_embedMem_slot hm htop hi (by omega), fun a ha => memRead_memFill_outside hm htop ha,
    rfl, rfl, rfl, rfl, sameSetting.refl s⟩

/-! ## EXTRACT with every access admitted (spec/44_lsb_codec.md R248, R249) -/

section ExtractEnds

variable {s : State} {r : Running} (hr : r.abortReq = false) (hm : s.mem.wf = true)
  (hchecks : checksPass r.snap.desc r.snap.desc.msgCap.toNat)

include hr hm hchecks in
/-- With no marker on the way, EXTRACT ends after the last group. -/
theorem extract_ends_after_groups (hcap : groupCount r.snap.desc ≤ r.snap.desc.msgCap.toNat)
    (hadmits : admitsBuffers s.params r.snap.desc (9 * groupCount r.snap.desc) (groupCount r.snap.desc))
    (hmarkers : ∀ l, l < groupCount r.snap.desc → slotBit r.snap.desc s.mem l 8 = false) :
    runSteps abortOutLen extractRule (1 + 11 * groupCount r.snap.desc + 1) (atStage s r .fresh s.mem) =
      finishOutLen .ok (groupCount r.snap.desc) (extractGroup s r (groupCount r.snap.desc)) := by
  refine runSteps_then (l := 1) (extract_reaches_group hr hm hchecks le_rfl hcap hadmits hmarkers) ?_
  rw [extractGroup, runSteps_one hr]
  simp [extractRule]

include hr hm hchecks in
/-- The first marker ends EXTRACT once the byte of its group is written. -/
theorem extract_ends_at_marker {g : Nat} (hg : g < groupCount r.snap.desc) (hcap : g < r.snap.desc.msgCap.toNat)
    (hadmits : admitsBuffers s.params r.snap.desc (9 * (g + 1)) (g + 1))
    (hmarkers : ∀ l, l < g → slotBit r.snap.desc s.mem l 8 = false) (hmark : slotBit r.snap.desc s.mem g 8 = true) :
    runSteps abortOutLen extractRule (1 + 11 * g + 12) (atStage s r .fresh s.mem) =
      finishOutLen .ok (g + 1) (atStage s r (.extractDone (g + 1)) (extractMem r s.mem (g + 1))) := by
  obtain ⟨hslots, hbytes⟩ := hadmits
  have hreach := extract_reaches_group hr hm hchecks hg.le hcap.le
    ⟨fun k hk => hslots k (by omega), fun l hl => hbytes l (by omega)⟩ hmarkers
  have hread := extract_reaches_store hr hm hchecks hg hcap.le fun l hl => hslots _ (by omega)
  have hstore := extract_stores_byte hr hchecks hcap (hbytes g (by omega))
  rw [if_pos hmark] at hstore
  have hdone : runSteps abortOutLen extractRule 1 (atStage s r (.extractDone (g + 1)) (extractMem r s.mem (g + 1))) =
      finishOutLen .ok (g + 1) (atStage s r (.extractDone (g + 1)) (extractMem r s.mem (g + 1))) := runSteps_one hr
  exact runSteps_then hreach (runSteps_then hread (runSteps_then hstore hdone rfl) rfl)

include hr hm hchecks in
/-- A byte more than the destination holds ends EXTRACT. -/
theorem extract_overflows (hgroup : r.snap.desc.msgCap.toNat < groupCount r.snap.desc)
    (hadmits : admitsBuffers s.params r.snap.desc (9 * (r.snap.desc.msgCap.toNat + 1)) r.snap.desc.msgCap.toNat)
    (hmarkers : ∀ l, l < r.snap.desc.msgCap.toNat → slotBit r.snap.desc s.mem l 8 = false) :
    runSteps abortOutLen extractRule (1 + 11 * r.snap.desc.msgCap.toNat + 11) (atStage s r .fresh s.mem) =
      finishOutLen .dstOverflow r.snap.desc.msgCap.toNat (extractStore s r r.snap.desc.msgCap.toNat) := by
  obtain ⟨hslots, hbytes⟩ := hadmits
  have hreach := extract_reaches_group hr hm hchecks hgroup.le le_rfl ⟨fun k hk => hslots k (by omega), hbytes⟩ hmarkers
  have hread := extract_reaches_store hr hm hchecks hgroup le_rfl fun l hl => hslots _ (by omega)
  refine runSteps_then (l := 11) hreach (runSteps_then (l := 1) hread ?_)
  rw [extractStore, runSteps_one hr]
  simp [extractRule]

end ExtractEnds

/-- Settles O49: the first marker or the end of the groups, whichever stops EXTRACT, comes after `n` groups. -/
theorem extractResult : Obligations.ExtractResult := by
  unfold Obligations.ExtractResult
  intro s r n h hm hrange hoverlap hadmits hgroups hcap hmarkers hstop
  have hchecks : checksPass r.snap.desc r.snap.desc.msgCap.toNat := ⟨hrange, hoverlap⟩
  have hlen : r.snap.desc.msgCap.toNat < 2 ^ 32 := r.snap.desc.msgCap.isLt
  have htop : r.snap.desc.msgBase.toNat + n ≤ 2 ^ 32 := by
    have := (outOfRange_eq_false.1 hrange).2
    omega
  obtain ⟨k, p, hk, hend⟩ : ∃ k p, k ≤ 2 ^ 64 ∧
      runSteps abortOutLen extractRule k (atStage (startTurn s) r .fresh s.mem) =
        finishOutLen .ok n (atStage (startTurn s) r p (extractMem r s.mem n)) := by
    by_cases hmarked : 0 < n ∧ slotBit r.snap.desc s.mem (n - 1) 8 = true
    · obtain ⟨hpos, hmark⟩ := hmarked
      obtain ⟨g, rfl⟩ := Nat.exists_eq_succ_of_ne_zero hpos.ne'
      exact ⟨_, _, by omega, extract_ends_at_marker (s := startTurn s) h.noAbort hm hchecks hgroups hcap hadmits
        (fun l hl => hmarkers l (by omega)) hmark⟩
    · obtain rfl : n = groupCount r.snap.desc := hstop.resolve_right hmarked
      refine ⟨_, _, by omega, extract_ends_after_groups (s := startTurn s) h.noAbort hm hchecks hcap hadmits fun l hl => ?_⟩
      by_cases hlast : l + 1 < groupCount r.snap.desc
      · exact hmarkers l hlast
      · obtain rfl : l = groupCount r.snap.desc - 1 := by omega
        exact Bool.eq_false_iff.2 fun hmark => hmarked ⟨by omega, hmark⟩
  exact ⟨_, exec_of_runSteps h hk hend rfl, ⟨rfl, rfl, rfl⟩, sat32_toNat (by omega),
    fun j hj => carriesByte_extractMem hm htop hj, fun a ha => memRead_memFill_outside hm htop ha, rfl, rfl, rfl, rfl,
    sameSetting.refl s⟩

/-- Settles O50: the engine comes to the byte after the last that fits, and ends there. -/
theorem extractDestinationOverflow : Obligations.ExtractDestinationOverflow := by
  unfold Obligations.ExtractDestinationOverflow
  intro s r h hm hrange hoverlap hadmits hgroup hmarkers
  have hlen : r.snap.desc.msgCap.toNat < 2 ^ 32 := r.snap.desc.msgCap.isLt
  have htop : r.snap.desc.msgBase.toNat + r.snap.desc.msgCap.toNat ≤ 2 ^ 32 := (outOfRange_eq_false.1 hrange).2
  have hend := extract_overflows (s := startTurn s) h.noAbort hm ⟨hrange, hoverlap⟩ hgroup hadmits hmarkers
  exact ⟨_, exec_of_runSteps h (by omega) hend rfl, ⟨rfl, rfl, rfl⟩, sat32_toNat_self _,
    fun j hj => carriesByte_extractMem hm htop hj, fun a ha => memRead_memFill_outside hm htop ha⟩

/-! ## The round trip (spec/44_lsb_codec.md R251) -/

/-- EMBED passes its checks, or one of them fails first. -/
theorem embed_passes_or_failsCheck (d : Desc) (n : Nat) :
    (checksPass d n ∧ 9 * n ≤ slotCount d) ∨ ∃ code, code ≠ ErrCode.ok ∧ FailsCheck .embed d n code := by
  cases hrange : outOfRange d n with
  | true => exact .inr ⟨.range, nofun, .inl ⟨hrange, rfl⟩⟩
  | false =>
    cases hoverlap : buffersOverlap d n with
    | true => exact .inr ⟨.overlap, nofun, .inr (.inl ⟨hrange, hoverlap, rfl⟩)⟩
    | false =>
      by_cases hfits : 9 * n ≤ slotCount d
      · exact .inl ⟨⟨hrange, hoverlap⟩, hfits⟩
      · exact .inr ⟨.capacity, nofun, .inr (.inr ⟨hrange, hoverlap, rfl, Nat.lt_of_not_le hfits, rfl⟩)⟩

/-- Slot `i` of group `g`, or the message byte before its first slot, is the first access EMBED is refused
(spec/20_memory.md R78). -/
def FirstRefused (p : Params) (d : Desc) (g i : Nat) : Prop :=
  (∀ k, k < 9 * g + i → memAdmits p (slotAddr d k) = true) ∧ (∀ j, j < g → memAdmits p (msgAddr d j) = true) ∧
  (i = 0 ∧ memAdmits p (msgAddr d g) = false ∨
    memAdmits p (msgAddr d g) = true ∧ memAdmits p (slotAddr d (9 * g + i)) = false)

/-- A test holds everywhere below `n`, or there is a first place where it fails. -/
theorem forall_lt_or_exists_first_false (f : Nat → Bool) (n : Nat) :
    (∀ k, k < n → f k = true) ∨ ∃ k, k < n ∧ (∀ l, l < k → f l = true) ∧ f k = false := by
  induction n with
  | zero => exact .inl fun _ hk => absurd hk (Nat.not_lt_zero _)
  | succ n ih =>
    obtain hall | ⟨k, hk, hfirst⟩ := ih
    · cases hn : f n with
      | true => exact .inl (Nat.forall_lt_succ_right.2 ⟨hall, hn⟩)
      | false => exact .inr ⟨n, Nat.lt_succ_self n, hall, hn⟩
    · exact .inr ⟨k, Nat.lt_succ_of_lt hk, hfirst⟩

/-- A slot refused in a group whose bytes up to it are admitted is the first refused access, if no slot before it is
refused. -/
theorem firstRefused_of_slot {p : Params} {d : Desc} {n k : Nat} (hk : k < 9 * n)
    (hbytes : ∀ j, j < n → memAdmits p (msgAddr d j) = true) (hslots : ∀ l, l < k → memAdmits p (slotAddr d l) = true)
    (hslot : memAdmits p (slotAddr d k) = false) : FirstRefused p d (k / 9) (k % 9) := by
  rw [FirstRefused, Nat.div_add_mod]
  exact ⟨hslots, fun j hj => hbytes j (by omega), .inr ⟨hbytes _ (by omega), hslot⟩⟩

/-- All the accesses of an EMBED of `n` bytes are admitted, or one of them is the first that is not. -/
theorem admitsBuffers_or_firstRefused (p : Params) (d : Desc) (n : Nat) :
    admitsBuffers p d (9 * n) n ∨ ∃ g i, g < n ∧ i < 9 ∧ FirstRefused p d g i := by
  obtain hbytes | ⟨j, hj, hbytes, hbyte⟩ := forall_lt_or_exists_first_false (fun j => memAdmits p (msgAddr d j)) n
  · obtain hslots | ⟨k, hk, hslots, hslot⟩ := forall_lt_or_exists_first_false (fun k => memAdmits p (slotAddr d k)) (9 * n)
    · exact .inl ⟨hslots, hbytes⟩
    · exact .inr ⟨k / 9, k % 9, by omega, by omega, firstRefused_of_slot hk hbytes hslots hslot⟩
  · obtain hslots | ⟨k, hk, hslots, hslot⟩ := forall_lt_or_exists_first_false (fun k => memAdmits p (slotAddr d k)) (9 * j)
    · exact .inr ⟨j, 0, hj, by omega, hslots, hbytes, .inl ⟨rfl, hbyte⟩⟩
    · exact .inr ⟨k / 9, k % 9, by omega, by omega, firstRefused_of_slot hk hbytes hslots hslot⟩

/-- An EMBED that completed with OK passed its checks and was refused no access. -/
theorem embed_ok_admitted {s t : State} {r : Running} (h : s.Undisturbed r) (hm : s.mem.wf = true)
    (hexec : exec .embed s = .next t) (hok : t.err = .ok) :
    checksPass r.snap.desc r.snap.desc.msgLen.toNat ∧ 9 * r.snap.desc.msgLen.toNat ≤ slotCount r.snap.desc ∧
      admitsBuffers s.params r.snap.desc (9 * r.snap.desc.msgLen.toNat) r.snap.desc.msgLen.toNat := by
  obtain ⟨⟨hrange, hoverlap⟩, hfits⟩ | ⟨code, hcode, hfails⟩ :=
    embed_passes_or_failsCheck r.snap.desc r.snap.desc.msgLen.toNat
  · obtain hadmits | ⟨g, i, hg, hi, hslots, hbytes, hrefused⟩ :=
      admitsBuffers_or_firstRefused s.params r.snap.desc r.snap.desc.msgLen.toNat
    · exact ⟨⟨hrange, hoverlap⟩, hfits, hadmits⟩
    · obtain ⟨u, hu, ⟨herr, -, -⟩, -⟩ := embedBusError s r g i h hm hrange hoverlap hfits hg hi hslots hbytes hrefused
      cases hexec.symm.trans hu
      exact absurd (hok.symm.trans herr) nofun
  · have hu := exec_of_finishOutLen (i := .embed) h.engineToMove (embedRule_failsCheck h.fresh hfails (startTurn s))
    cases hexec.symm.trans hu
    exact absurd hok hcode

/-- Bit 0 of an embedded slot is the bit it carries (spec/44_lsb_codec.md R244, R245). -/
theorem embeddedSample_getLsbD_zero (mode : EmbedMode) (d : Desc) (m : Memory) (j i : Nat) :
    (embeddedSample mode d m j i).getLsbD 0 = carriedBit d.msgLen.toNat j i (messageByte d m j) :=
  slotVal_getLsbD_zero mode _ _

/-- A byte has the bits its group carries, and no others do. -/
theorem carriesByte_unique {d : Desc} {m : Memory} {j : Nat} {b c : Byte} (hb : carriesByte d m j b)
    (hc : carriesByte d m j c) : b = c := by
  refine BitVec.eq_of_getLsbD_eq fun l hl => ?_
  have := (hb (7 - l) (by omega)).trans (hc (7 - l) (by omega)).symm
  rwa [show 7 - (7 - l) = l by omega] at this

/-- Settles O52: an EMBED that ended with OK wrote every slot with its bit, so EXTRACT meets marker 1 in the last group and
no other, and reads from the data slots the bits of the message. -/
theorem extractInvertsEmbed : Obligations.ExtractInvertsEmbed := by
  unfold Obligations.ExtractInvertsEmbed
  intro s t s' r r' h hm hpos hexec hok h' hm' hbase hheight hwidth hpix hrange' hoverlap' hcap hadmits'
  obtain ⟨⟨hrange, hoverlap⟩, hfits, hadmits⟩ := embed_ok_admitted h hm hexec hok
  obtain ⟨t', ht', -, -, hslots, -⟩ := embedResult s r h hm hrange hoverlap hfits hadmits
  cases hexec.symm.trans ht'
  have hcount : slotCount r'.snap.desc = slotCount r.snap.desc := by rw [slotCount, slotCount, hheight, hwidth]
  have hbit {j i : Nat} (hj : j < r.snap.desc.msgLen.toNat) (hi : i < 9) : slotBit r'.snap.desc s'.mem j i =
      carriedBit r.snap.desc.msgLen.toNat j i (messageByte r.snap.desc s.mem j) := by
    rw [slotBit, hbase, hpix _ (by omega), hslots j i hj hi, embeddedSample_getLsbD_zero]
  have hmarker {j : Nat} (hj : j < r.snap.desc.msgLen.toNat) :
      slotBit r'.snap.desc s'.mem j 8 = decide (j + 1 = r.snap.desc.msgLen.toNat) := hbit hj (by omega)
  have hgroups : r.snap.desc.msgLen.toNat ≤ groupCount r'.snap.desc := by
    rw [groupCount, hcount]
    omega
  obtain ⟨u, hu, hdone, hlen, hbytes, -⟩ := extractResult s' r' r.snap.desc.msgLen.toNat h' hm' hrange' hoverlap' hadmits'
    hgroups hcap (fun j hj => (hmarker (by omega)).trans (decide_eq_false (by omega)))
    (.inr ⟨hpos, (hmarker (by omega)).trans (decide_eq_true (by omega))⟩)
  refine ⟨u, hu, hdone, BitVec.eq_of_toNat_eq hlen, fun j hj => carriesByte_unique (hbytes j hj) fun i hi => ?_⟩
  rw [hbit hj (by omega), carriedBit, if_pos hi, messageByte]

end Sys2Proof.Machine
end

section
/-! Where a running EMBED or EXTRACT can stand, and what it can write from there: its stage is kept by every host move and
every engine step, and bounds each write (spec/44_lsb_codec.md R246 to R249). -/

namespace Sys2Proof.Machine

/-! ## Host moves leave a running command as it is, but for the request of an abort -/

/-- The command `r` of `s` still runs in `t` as it stood, its request aside, or no command runs. -/
def LeavesRunning (r : Running) (t : State) : Prop := t.run = none ∨ ∃ b, t.run = some { r with abortReq := b }

theorem LeavesRunning.of_run_eq {r : Running} {s t : State} (hr : s.run = some r) (ht : t.run = s.run) :
    LeavesRunning r t := .inr ⟨r.abortReq, ht.trans hr⟩

/-- A write the engine guards is dropped while a command runs (spec/10_state.md R49). -/
theorem guarded_leavesRunning {r : Running} {act : State → Outcome} {s t : State} (hr : s.run = some r)
    (h : guarded act s = .next t) : LeavesRunning r t := by
  have hbusy : busy s = true := by rw [busy, hr]; rfl
  rw [guarded_busy hbusy] at h
  cases h
  exact .of_run_eq hr rfl

theorem writeReg_leavesRunning {r : Running} {reg : MmioReg} {v : Word} {s t : State} (hr : s.run = some r)
    (h : writeReg reg v s = .next t) : LeavesRunning r t := by
  cases reg with
  | id | param | status | attempts | outLen | reserved => cases h; exact .of_run_eq hr rfl
  | ctrl =>
    cases h
    rw [writeCtrl_eq]
    exact .inr ⟨r.abortReq || v.getLsbD 2, by rw [hr]; rfl⟩
  | cmd | desc =>
    rw [writeReg] at h
    exact guarded_leavesRunning hr h
  | bigWord k i =>
    rw [writeReg] at h
    split at h
    · exact guarded_leavesRunning hr h
    · cases h; exact .of_run_eq hr rfl

theorem hostStore_run {a : Addr} {v : Byte} {s t : State} (h : hostStore a v s = .next t) : t.run = s.run := by
  unfold hostStore at h
  split at h
  · cases h
  · split at h <;> cases h <;> rfl

theorem hostLoad_run {a : Addr} {s t : State} (h : hostLoad a s = .next t) : t.run = s.run := by
  obtain ⟨v, c, rfl | rfl⟩ := hostLoad_eq_next h <;> rfl

theorem hostClean_run {a : Addr} {n : Nat} {s t : State} (h : hostClean a n s = .next t) : t.run = s.run := by
  unfold hostClean at h
  split at h <;> cases h
  rfl

/-- No host move takes a running command anywhere, unless it ends it (spec/10_state.md R46, R49). -/
theorem hostMove_leavesRunning {r : Running} {m : HostMove} {s t : State} (hr : s.run = some r)
    (h : hostMove m s = .next t) : LeavesRunning r t := by
  cases m with
  | mmioWrite addr width v =>
    rw [hostMove] at h
    obtain ⟨reg, h⟩ := mmioAccess_eq_next h
    exact writeReg_leavesRunning hr h
  | mmioRead addr width =>
    rw [hostMove] at h
    obtain ⟨reg, h⟩ := mmioAccess_eq_next h
    obtain ⟨v, -, rfl⟩ := hostRead_eq_next.1 h
    exact .of_run_eq hr rfl
  | memStore a v => exact .of_run_eq hr (hostStore_run h)
  | memLoad a => exact .of_run_eq hr (hostLoad_run h)
  | cacheClean a n => exact .of_run_eq hr (hostClean_run h)
  | cacheInvalidate | senseIrq => cases h; exact .of_run_eq hr rfl
  | reset => cases h; exact .inl rfl

/-! ## Turns of the engine -/

/-- From `s`, where command `r` runs, to `t` the command has stayed in its stages, and memory is as it was at the addresses
its descriptors spare. -/
structure StaysWithin (stage : Running → Prop) (spared : Desc → Nat → Prop) (r : Running) (s t : State) : Prop where
  running : ∀ r', t.run = some r' → r'.word = r.word ∧ r'.snap = r.snap ∧ stage r'
  mem : ∀ a, spared r.snap.desc a → memRead t.mem a = memRead s.mem a

section StaysWithin

variable {stage : Running → Prop} {spared : Desc → Nat → Prop} {r : Running} {s t u : State}

theorem StaysWithin.refl (hr : s.run = some r) (hs : stage r) : StaysWithin stage spared r s s :=
  ⟨fun r' hr' => by cases hr.symm.trans hr'; exact ⟨rfl, rfl, hs⟩, fun _ _ => rfl⟩

/-- A completion with memory as it is. -/
theorem StaysWithin.of_idle (ht : t.run = none) (hm : t.mem = s.mem) : StaysWithin stage spared r s t :=
  ⟨fun _ hr' => absurd (ht.symm.trans hr') nofun, fun _ _ => by rw [hm]⟩

/-- What follows from where the command stands follows from where it stood. -/
theorem StaysWithin.trans {r' : Running} (h : StaysWithin stage spared r s t) (hr' : t.run = some r')
    (h' : stage r' → StaysWithin stage spared r' t u) : StaysWithin stage spared r s u := by
  obtain ⟨hword, hsnap, hstage⟩ := h.running r' hr'
  have h' := h' hstage
  refine ⟨fun r'' hr'' => ?_, fun a ha => (h'.mem a (by rwa [hsnap])).trans (h.mem a ha)⟩
  obtain ⟨hword', hsnap', hstage'⟩ := h'.running r'' hr''
  exact ⟨hword'.trans hword, hsnap'.trans hsnap, hstage'⟩

/-- The command goes on to `p`, one of its stages. -/
theorem setProgress_staysWithin {p : Progress} (hr : s.run = some r) (hs : stage { r with progress := p }) :
    StaysWithin stage spared r s (setProgress p s) := by
  have hrun : (setProgress p s).run = some { r with progress := p } := congrArg (Option.map _) hr
  exact ⟨fun r' hr' => by cases hrun.symm.trans hr'; exact ⟨rfl, rfl, hs⟩, fun _ _ => rfl⟩

/-- A byte that is not spared is written, and the command goes on to `p`, one of its stages. -/
theorem dmaWrite_staysWithin {p : Progress} {a : Addr} {v : Byte} (hr : s.run = some r) (hw : dmaWrite a v s = some t)
    (ha : ¬ spared r.snap.desc a.toNat) (hs : stage { r with progress := p }) :
    StaysWithin stage spared r s (setProgress p t) := by
  obtain ⟨-, rfl⟩ := dmaWrite_eq_some.1 hw
  have hgoes := setProgress_staysWithin (spared := spared) (s := { s with mem := memWrite s.mem a.toNat v }) hr hs
  exact ⟨hgoes.running, fun x hx => memRead_memWrite_other s.mem v fun hxa => ha (hxa ▸ hx)⟩

/-- A command each step of whose rule stays within its stages has turns that do. -/
theorem exec_staysWithin {i : Instr} (hr : s.run = some r) (hs : stage r) (h : exec i s = .next t)
    (hrule : ∀ r u, u.run = some r → stage r → StaysWithin stage spared r u (commandRule i r u)) :
    StaysWithin stage spared r s t := by
  refine exec_induct (P := StaysWithin stage spared r s) h (fun u hu => ⟨hu.running, hu.mem⟩)
    (fun u hu => ⟨hu.running, hu.mem⟩) (fun u hu => ?_) (fun r' u hr' hu => hu.trans hr' (hrule r' u hr')) (.refl hr hs)
  obtain ⟨-, -, hidle⟩ := commandAbort_completed i u
  exact ⟨fun r' hr' => absurd (hidle.symm.trans hr') nofun, fun a ha => by rw [(commandAbort_frame i u).2, hu.mem a ha]⟩

end StaysWithin

/-! ## EMBED (spec/44_lsb_codec.md R246, R247) -/

/-- EMBED spares every address outside the slots of its message. -/
def embedSpares (d : Desc) (a : Nat) : Prop := a < d.pixBase.toNat ∨ d.pixBase.toNat + 9 * d.msgLen.toNat ≤ a

/-- A slot of the message is written, no other byte. -/
theorem slotAddr_not_spared {d : Desc} (hchecks : checksPass d d.msgLen.toNat)
    (hfits : 9 * d.msgLen.toNat ≤ slotCount d) {k : Nat} (hk : k < 9 * d.msgLen.toNat) :
    ¬ embedSpares d (slotAddr d k).toNat := by
  have := (outOfRange_eq_false.1 hchecks.1).1
  rw [embedSpares, slotAddr_toNat (by omega)]
  omega

theorem embedRule_staysWithin {r : Running} {s : State} (hr : s.run = some r) (hs : embedStage r) :
    StaysWithin embedStage embedSpares r s (embedRule r s) := by
  unfold embedRule
  dsimp only
  split
  case h_1 j hp =>
    simp only [embedStage, hp] at hs
    obtain ⟨hchecks, hfits, -⟩ := hs
    split
    next hj =>
      split
      · exact setProgress_staysWithin hr ⟨hchecks, hfits, hj, by omega⟩
      · exact .of_idle rfl rfl
    next => exact .of_idle rfl rfl
  case h_2 j i m hp =>
    simp only [embedStage, hp] at hs
    split
    · exact setProgress_staysWithin hr hs
    · exact .of_idle rfl rfl
  case h_3 j i m v hp =>
    simp only [embedStage, hp] at hs
    obtain ⟨hchecks, hfits, hj, hi⟩ := hs
    split
    next t ht =>
      refine dmaWrite_staysWithin hr ht (slotAddr_not_spared hchecks hfits (by omega)) ?_
      split
      · exact ⟨hchecks, hfits, hj, by omega⟩
      · exact ⟨hchecks, hfits, hj⟩
    next => exact .of_idle rfl rfl
  case h_4 =>
    split
    · exact .of_idle rfl rfl
    next hrange =>
      split
      · exact .of_idle rfl rfl
      next hoverlap =>
        split
        · exact .of_idle rfl rfl
        next hfits =>
          exact setProgress_staysWithin hr
            ⟨⟨Bool.eq_false_iff.2 hrange, Bool.eq_false_iff.2 hoverlap⟩, Nat.le_of_not_lt hfits, Nat.zero_le _⟩

/-! ## EXTRACT (spec/44_lsb_codec.md R248, R249) -/

/-- EXTRACT spares every address outside its destination. -/
def extractSpares (d : Desc) (a : Nat) : Prop := a < d.msgBase.toNat ∨ d.msgBase.toNat + d.msgCap.toNat ≤ a

/-- A byte of the destination is written, no other byte. -/
theorem msgAddr_not_spared {d : Desc} (hchecks : checksPass d d.msgCap.toNat) {j : Nat} (hj : j < d.msgCap.toNat) :
    ¬ extractSpares d (msgAddr d j).toNat := by
  have := (outOfRange_eq_false.1 hchecks.1).2
  rw [extractSpares, msgAddr_toNat (by omega)]
  omega

theorem extractRule_staysWithin {r : Running} {s : State} (hr : s.run = some r) (hs : extractStage r) :
    StaysWithin extractStage extractSpares r s (extractRule r s) := by
  unfold extractRule
  dsimp only
  split
  case h_1 j out hp =>
    simp only [extractStage, hp] at hs
    obtain ⟨hchecks, hout⟩ := hs
    split
    next hj => exact setProgress_staysWithin hr ⟨hchecks, hj, by omega, hout⟩
    next => exact .of_idle rfl rfl
  case h_2 j i out b hp =>
    simp only [extractStage, hp] at hs
    obtain ⟨hchecks, hj, hi, hout⟩ := hs
    split
    · refine setProgress_staysWithin hr ?_
      split
      · exact ⟨hchecks, hj, by omega, hout⟩
      · exact ⟨hchecks, hj, hout⟩
    · exact .of_idle rfl rfl
  case h_3 j out b mk hp =>
    simp only [extractStage, hp] at hs
    obtain ⟨hchecks, hj, hout⟩ := hs
    split
    · exact .of_idle rfl rfl
    next hroom =>
      have hroom : out < r.snap.desc.msgCap.toNat := by omega
      split
      next t ht =>
        refine dmaWrite_staysWithin hr ht (msgAddr_not_spared hchecks hroom) ?_
        split <;> exact ⟨hchecks, hroom⟩
      next => exact .of_idle rfl rfl
  case h_4 => exact .of_idle rfl rfl
  case h_5 =>
    split
    · exact .of_idle rfl rfl
    next hrange =>
      split
      · exact .of_idle rfl rfl
      next hoverlap =>
        exact setProgress_staysWithin hr ⟨⟨Bool.eq_false_iff.2 hrange, Bool.eq_false_iff.2 hoverlap⟩, Nat.zero_le _⟩

/-! ## The statement -/

/-- Settles O53: a stage does not speak of the request of an abort, and every step of either rule stays within its stages. -/
theorem codecWritesOnlyItsBuffer : Obligations.CodecWritesOnlyItsBuffer := by
  unfold Obligations.CodecWritesOnlyItsBuffer
  refine ⟨fun s w => ⟨_, takeCommand_run s w, trivial, trivial⟩, fun m s t r r' hr hmove hr' => ?_,
    fun s t r hr hs hexec => ?_, fun s t r hr hs hexec => ?_⟩
  · obtain hnone | ⟨b, hb⟩ := hostMove_leavesRunning hr hmove
    · exact absurd (hnone.symm.trans hr') nofun
    · cases hb.symm.trans hr'
      exact ⟨rfl, rfl, id, id⟩
  · have hturn := exec_staysWithin hr hs hexec fun _ _ => embedRule_staysWithin
    exact ⟨hturn.running, hturn.mem⟩
  · have hturn := exec_staysWithin hr hs hexec fun _ _ => extractRule_staysWithin
    exact ⟨hturn.running, hturn.mem⟩

end Sys2Proof.Machine
end

section
/-! The codes a command can report: each engine step goes on, or ends with a code of the command's list or an abort
(spec/60_exceptions.md R292). -/

namespace Sys2Proof.Machine

/-! ## Ending with one of some codes -/

/-- If the command has ended in `t`, it reported one of `codes`. -/
def EndsWith (codes : List ErrCode) (t : State) : Prop := t.run = none → t.err ∈ codes

section EndsWith

variable {codes : List ErrCode} {c : ErrCode} {s t u : State}

theorem EndsWith.mono {codes' : List ErrCode} (hsub : codes ⊆ codes') (h : EndsWith codes t) : EndsWith codes' t :=
  fun hend => hsub (h hend)

theorem EndsWith.ite {p : Prop} [Decidable p] (ht : EndsWith codes t) (hu : EndsWith codes u) :
    EndsWith codes (if p then t else u) := by
  split
  · exact ht
  · exact hu

theorem finish_endsWith (hc : c ∈ codes := by decide) : EndsWith codes (finish c s) := fun _ => hc

theorem finishAttempts_endsWith {n : Nat} (hc : c ∈ codes := by decide) : EndsWith codes (finishAttempts c n s) :=
  fun _ => hc

theorem finishOutLen_endsWith {n : Nat} (hc : c ∈ codes := by decide) : EndsWith codes (finishOutLen c n s) :=
  fun _ => hc

/-- A running command that has gone on has not ended. -/
theorem Continues.endsWith {r : Running} (h : Continues s t) (hr : s.run = some r) : EndsWith codes t := by
  intro hend
  have hsnap := h.snap
  simp [hr, hend] at hsnap

theorem setProgress_endsWith {r : Running} (hr : s.run = some r) (p : Progress) : EndsWith codes (setProgress p s) :=
  (setProgress_continues p s).endsWith hr

end EndsWith

/-! ## One step of each rule -/

section Rules

variable {s : State} {r : Running}

theorem montmulRule_endsWith (rd ra rb rc : Reg) :
    EndsWith [.modZero, .evenMod, .ok] (montmulRule rd ra rb rc r s) :=
  .ite finish_endsWith (.ite finish_endsWith finish_endsWith)

theorem modinvRule_endsWith (rd ra rb : Reg) : EndsWith [.modZero, .invNotFound, .ok] (modinvRule rd ra rb r s) :=
  .ite finish_endsWith (.ite finish_endsWith finish_endsWith)

theorem primetestRule_endsWith (hr : s.run = some r) (ra : Reg) : EndsWith [.ok] (primetestRule ra r s) := by
  unfold primetestRule
  dsimp only
  split
  · exact finish_endsWith
  · exact ((fermatAfter_continues _ _ _ s).trans (setProgress_continues _ _)).endsWith hr

theorem genprimeRule_endsWith (hr : s.run = some r) (rd : Reg) :
    EndsWith [.config, .genFail, .ok] (genprimeRule rd r s) := by
  unfold genprimeRule
  dsimp only
  split
  · split
    · exact ((primeAfter_continues _ _ s).trans (setProgress_continues _ _)).endsWith hr
    · exact finishAttempts_endsWith
    · exact finishAttempts_endsWith
  · exact .ite (setProgress_endsWith hr _) finishAttempts_endsWith

theorem genrandRule_endsWith (hr : s.run = some r) (rd : Reg) : EndsWith [.config, .ok] (genrandRule rd r s) := by
  unfold genrandRule
  dsimp only
  split
  · exact ((afterDraw_continues s).trans (setProgress_continues _ _)).endsWith hr
  · exact finish_endsWith
  · exact .ite (setProgress_endsWith hr _) finish_endsWith

/-- Past its configuration check, GENPQR accepts or runs out of candidates or rounds
(spec/43_candidate_generation.md R216). -/
theorem pqrRule_endsWith (hr : s.run = some r) (rd ra rb : Reg) (d : Desc) (outer total : Nat) (st : PqrStage) :
    EndsWith [.genFail, .ok] (pqrRule rd ra rb d outer total st s) := by
  cases st with
  | round => exact .ite (setProgress_endsWith hr _) finishAttempts_endsWith
  | prime ps =>
    have hdraw := primeAfter_continues d ps s
    unfold pqrRule
    dsimp only
    split
    · exact (hdraw.trans (setProgress_continues _ _)).endsWith hr
    · exact (hdraw.trans (setProgress_continues _ _)).endsWith hr
    · exact finishAttempts_endsWith
  | qLength | qValue | rLength | rValue =>
    exact ((afterDraw_continues s).trans (setProgress_continues _ _)).endsWith hr
  | judge => exact .ite finishAttempts_endsWith (setProgress_endsWith hr _)

theorem genpqrRule_endsWith (hr : s.run = some r) (rd ra rb : Reg) :
    EndsWith [.config, .genFail, .ok] (genpqrRule rd ra rb r s) := by
  unfold genpqrRule
  dsimp only
  split
  · exact (pqrRule_endsWith hr rd ra rb _ _ _ _).mono (List.subset_cons_self _ _)
  · exact .ite (setProgress_endsWith hr _) finishAttempts_endsWith

theorem embedRule_endsWith (hr : s.run = some r) :
    EndsWith [.range, .overlap, .capacity, .busError, .ok] (embedRule r s) := by
  unfold embedRule
  dsimp only
  split
  case h_1 =>
    split
    · split
      · exact setProgress_endsWith hr _
      · exact finishOutLen_endsWith
    · exact finishOutLen_endsWith
  case h_2 =>
    split
    · exact setProgress_endsWith hr _
    · exact finishOutLen_endsWith
  case h_3 =>
    split
    next ht => exact ((dmaWrite_continues ht).trans (setProgress_continues _ _)).endsWith hr
    next => exact finishOutLen_endsWith
  case h_4 =>
    refine .ite finishOutLen_endsWith (.ite finishOutLen_endsWith (.ite finishOutLen_endsWith ?_))
    exact setProgress_endsWith hr _

theorem extractRule_endsWith (hr : s.run = some r) :
    EndsWith [.range, .overlap, .dstOverflow, .busError, .ok] (extractRule r s) := by
  unfold extractRule
  dsimp only
  split
  case h_1 => exact .ite (setProgress_endsWith hr _) finishOutLen_endsWith
  case h_2 =>
    split
    · exact setProgress_endsWith hr _
    · exact finishOutLen_endsWith
  case h_3 =>
    refine .ite finishOutLen_endsWith ?_
    split
    next ht => exact ((dmaWrite_continues ht).trans (setProgress_continues _ _)).endsWith hr
    next => exact finishOutLen_endsWith
  case h_4 => exact finishOutLen_endsWith
  case h_5 => exact .ite finishOutLen_endsWith (.ite finishOutLen_endsWith (setProgress_endsWith hr _))

end Rules

/-! ## One turn -/

/-- The codes a command can report of its own, besides ABORTED (spec/60_exceptions.md R292). -/
def reportedCodes : Instr → List ErrCode
  | .nop | .clr _ | .egcd _ _ _ | .primetest _ => [.ok]
  | .modexp _ _ _ _ | .modmul _ _ _ _ => [.modZero, .ok]
  | .montmul _ _ _ _ => [.modZero, .evenMod, .ok]
  | .modinv _ _ _ => [.modZero, .invNotFound, .ok]
  | .genrand _ => [.config, .ok]
  | .genprime _ | .genpqr _ _ _ => [.config, .genFail, .ok]
  | .embed => [.range, .overlap, .capacity, .busError, .ok]
  | .extract => [.range, .overlap, .dstOverflow, .busError, .ok]

theorem commandRule_endsWith (i : Instr) {r : Running} {s : State} (hr : s.run = some r) :
    EndsWith (reportedCodes i) (commandRule i r s) := by
  cases i with
  | nop | clr | egcd =>
    show EndsWith [.ok] _
    exact finish_endsWith
  | modexp | modmul =>
    show EndsWith [.modZero, .ok] _
    exact .ite finish_endsWith finish_endsWith
  | montmul rd ra rb rc => exact montmulRule_endsWith rd ra rb rc
  | modinv rd ra rb => exact modinvRule_endsWith rd ra rb
  | primetest ra => exact primetestRule_endsWith hr ra
  | genprime rd => exact genprimeRule_endsWith hr rd
  | genrand rd => exact genrandRule_endsWith hr rd
  | genpqr rd ra rb => exact genpqrRule_endsWith hr rd ra rb
  | embed => exact embedRule_endsWith hr
  | extract => exact extractRule_endsWith hr

/-- A turn that ends its command ends it with ABORTED or with a code of the command's own. -/
theorem exec_endsWith {i : Instr} {s t : State} {r : Running} (hr : s.run = some r) (h : exec i s = .next t) :
    EndsWith (.aborted :: reportedCodes i) t := by
  have hstart : EndsWith (.aborted :: reportedCodes i) s := (Continues.refl s).endsWith hr
  refine exec_induct h (fun _ hu => hu) (fun _ hu => hu) (fun u _ _ => ?_) (fun r' u hr' _ => ?_) hstart
  · obtain ⟨herr, -, -⟩ := commandAbort_completed i u
    rw [herr]
    exact List.mem_cons_self
  · exact (commandRule_endsWith i hr').mono (List.subset_cons_self _ _)

/-- Settles O57: no engine step ends a command with a code outside its list, and only the abort ends it with ABORTED. -/
theorem codesEachCommandReports : Obligations.CodesEachCommandReports := by
  unfold Obligations.CodesEachCommandReports
  intro i s t r hr h hend habort
  have hcode : t.err ∈ reportedCodes i := (List.mem_cons.1 (exec_endsWith hr h hend)).resolve_left habort
  cases i <;> simpa [reportedCodes] using hcode

end Sys2Proof.Machine
end

section
/-! The step of a machine whose host is to move, and the interrupt level (spec/60_exceptions.md R293, R295). -/

namespace Sys2Proof.Machine

/-! ## The host's turn -/

/-- An idle machine with no host move waiting stays as it is (spec/70_reset_and_hazards.md R331). -/
theorem step_idle_empty {s : State} (hidle : s.run = none) (hinbox : s.inbox = []) : step s = .next s := by
  rw [step, hidle]
  dsimp only
  rw [hostStep, hinbox]

/-- Settles O7: an idle engine, or one whose host is due, leaves the step to the host. -/
theorem stepServesHostMove : Obligations.StepServesHostMove := by
  unfold Obligations.StepServesHostMove
  exact ⟨fun _ _ _ => step_hostMove, fun _ => step_idle_empty⟩

/-! ## The interrupt level -/

theorem irq_of_enabled {s : State} (h : s.ie = true) : irq s = s.done := by rw [irq, h, Bool.true_and]

theorem irq_of_masked {s : State} (h : s.ie = false) : irq s = false := by rw [irq, h, Bool.false_and]

theorem irq_of_done {s : State} (h : s.done = true) : irq s = s.ie := by rw [irq, h, Bool.and_true]

theorem irq_of_not_done {s : State} (h : s.done = false) : irq s = false := by rw [irq, h, Bool.and_false]

/-- A 1 written to STATUS.DONE clears it (spec/10_state.md R29). -/
theorem writeStatus_done {v : Word} (h : v.getLsbD 1 = true) (s : State) : (writeStatus v s).done = false := by
  simp [writeStatus, h]

/-- Settles O25: the level follows IE and DONE, and each event sets, clears or keeps those two. -/
theorem irqFollowsDone : Obligations.IrqFollowsDone := by
  unfold Obligations.IrqFollowsDone
  intro s w c
  refine ⟨irq_of_done (finish_done s c), irq_of_masked, irq_of_enabled, fun v hv => ?_, ?_, ?_, ?_, rfl⟩
  · exact ⟨writeStatus v s, rfl, irq_of_not_done (writeStatus_done hv s)⟩
  · exact irq_of_not_done (takeCommand_done s w)
  · exact irq_of_not_done rfl
  · rw [irq, irq, dropWrite_ie, dropWrite_done]

end Sys2Proof.Machine
end

section
/-! Reset: the registers as the host reads them after it, from every state and for every build
(spec/70_reset_and_hazards.md R331 to R333). -/

namespace Sys2Proof.Machine

/-! ## The PARAM word and unwritten words -/

/-- The fields of PARAM (spec/10_state.md R27). The width of the concatenation is 32 by computation only. -/
theorem paramWord_fields (p : Params) :
    (paramWord p).extractLsb' 0 16 = BitVec.ofNat 16 p.opwWords ∧ (paramWord p).extractLsb' 16 4 = 8#4 ∧
      (paramWord p).extractLsb' 20 8 = 0x20#8 ∧ (paramWord p).extractLsb' 28 4 = 0#4 := by
  have happend : paramWord p = (0x0208#16 ++ BitVec.ofNat 16 p.opwWords : BitVec (16 + 16)) := by
    rw [paramWord, show (0x0208#16 : BitVec 16) = 0#4 ++ 0x20#8 ++ 8#4 by decide]
  rw [happend]
  refine ⟨BitVec.extractLsb'_append_eq_right, ?_, ?_, ?_⟩ <;>
    · rw [BitVec.extractLsb'_append_eq_of_le (by decide)]
      decide

/-- A word of a register without written words faults (spec/70_reset_and_hazards.md R333). -/
theorem readReg_bigWord_unwritten {s : State} {k : Reg} {i : Nat} (hi : i < s.params.opwWords)
    (hun : ∀ x ∈ s.bigs[k], x.written = false) : readReg (.bigWord k i) s = .error (.unwrittenRead k i) := by
  cases hx : s.bigs[k][i]? with
  | none => simp only [readReg, if_pos hi, hx]
  | some x =>
    rw [readReg_bigWord hi hx, hun x (List.mem_of_getElem? hx), if_neg Bool.false_ne_true]

theorem resetEngine_unwritten (s : State) (k : Reg) : ∀ x ∈ (resetEngine s).bigs[k], x.written = false := by
  intro x hx
  simp only [resetEngine, Fin.getElem_fin, Vector.getElem_map, List.mem_map] at hx
  obtain ⟨_, -, rfl⟩ := hx
  rfl

/-! ## The reset values -/

theorem ctrlWord_resetEngine (s : State) : ctrlWord (resetEngine s) = 0 := by
  simp only [ctrlWord, resetEngine, EmbedMode.bit]
  decide

theorem statusWord_resetEngine (s : State) : statusWord (resetEngine s) = 0 := by
  simp only [statusWord, resetEngine, busy, ErrCode.code, Option.isSome_none]
  decide

/-- Reset gives the scalar registers their values and takes the marks of the big registers' words
(spec/70_reset_and_hazards.md R331, R333). -/
theorem resetEngine_holdsResetValues (s : State) : holdsResetValues (resetEngine s) := by
  refine ⟨rfl, ⟨_, rfl, paramWord_fields s.params⟩, congrArg Except.ok (ctrlWord_resetEngine s),
    congrArg Except.ok (statusWord_resetEngine s), rfl, rfl, rfl, rfl, rfl, rfl, rfl, rfl, rfl, rfl, rfl, rfl, rfl, rfl,
    rfl, fun k i hi => ?_⟩
  exact readReg_bigWord_unwritten hi (resetEngine_unwritten s k)

/-- A machine right after reset is not changed by another reset. -/
theorem resetEngine_resetWith (p : Params) : resetEngine (State.resetWith p) = State.resetWith p := by
  simp [resetEngine, State.resetWith, BigFile.unwritten]

/-- Settles O9: reset puts every register at its value whatever the state, and every build's reset state is one it
leaves as it is. -/
theorem resetLeavesResetValues : Obligations.ResetLeavesResetValues := by
  unfold Obligations.ResetLeavesResetValues
  refine ⟨fun s => ⟨resetEngine s, rfl, resetEngine_holdsResetValues s, rfl, rfl⟩, fun p => ?_⟩
  rw [← resetEngine_resetWith p]
  exact resetEngine_holdsResetValues _

end Sys2Proof.Machine
end

section
/-! Every command completes in one turn of an engine left to itself: each engine step leaves fewer steps to make, and a
command just accepted has fewer left than the turn grants (spec/70_reset_and_hazards.md R342; log 10). -/

namespace Sys2Proof.Machine

/-! ## A rule that leaves fewer steps runs to its completion -/

/-- If a command still runs in `t`, it has fewer steps left than at stage `p`. -/
def LeavesFewer (left : Progress → Nat) (p : Progress) (t : State) : Prop :=
  ∀ r, t.run = some r → left r.progress < left p

section LeavesFewer

variable {left : Progress → Nat} {p q : Progress} {t u : State}

theorem LeavesFewer.of_idle (h : t.run = none) : LeavesFewer left p t := by
  intro r hr
  exact absurd (h.symm.trans hr) nofun

theorem LeavesFewer.ite {c : Prop} [Decidable c] (ht : c → LeavesFewer left p t) (hu : ¬ c → LeavesFewer left p u) :
    LeavesFewer left p (if c then t else u) := by
  split
  · exact ht ‹_›
  · exact hu ‹_›

theorem setProgress_leavesFewer (h : left q < left p) : LeavesFewer left p (setProgress q t) := by
  intro r hr
  rw [setProgress_run, Option.map_eq_some_iff] at hr
  obtain ⟨r, -, rfl⟩ := hr
  exact h

end LeavesFewer

/-- A command whose every engine step leaves it fewer steps has ended once it has made them. -/
theorem runSteps_ends {onAbort : State → State} {rule : Running → State → State} {left : Running → Nat}
    (hstep : ∀ r s, s.run = some r → ∀ r', (engineStep onAbort rule r s).run = some r' → left r' < left r) :
    ∀ (n : Nat) (s : State), (∀ r, s.run = some r → left r < n) → (runSteps onAbort rule n s).run = none
  | 0, _, h => Option.eq_none_iff_forall_ne_some.2 fun r hr => Nat.not_lt_zero _ (h r hr)
  | n + 1, s, h => by
    cases hr : s.run with
    | none => rw [runSteps_idle hr, hr]
    | some r =>
      rw [runSteps_succ hr]
      refine runSteps_ends hstep n _ fun r' hr' => ?_
      exact (hstep r s hr r' hr').trans_le (Nat.le_of_lt_succ (h r hr))

/-! ## The steps left, stage by stage -/

/-- The Fermat rounds left to PRIMETEST (spec/42_primality.md R190). -/
def primetestLeft (d : Desc) (p : Progress) : Nat := d.rounds.toNat - fermatRounds p

/-- The steps left to `gen_prime()`: per candidate a test of the cap, two draws and its Fermat rounds
(spec/43_candidate_generation.md R212). -/
def primeLeft (d : Desc) : PrimeStage → Nat
  | .attempt cnt => (d.attemptCap.toNat - cnt) * (d.rounds.toNat + 3)
  | .length cnt _ => (d.attemptCap.toNat - cnt) * (d.rounds.toNat + 3) + (d.rounds.toNat + 2)
  | .testing cnt _ passed => (d.attemptCap.toNat - cnt) * (d.rounds.toNat + 3) + (d.rounds.toNat - passed + 1)

/-- The steps left to GENPRIME. -/
def genprimeLeft (d : Desc) : Progress → Nat
  | .prime st => primeLeft d st
  | _ => primeLeft d (.attempt 0) + 1

/-- The steps left to GENRAND. -/
def genrandLeft : Progress → Nat
  | .randLength => 1
  | .randValue _ => 0
  | _ => 2

/-- The steps of one round of GENPQR: a run of `gen_prime()`, four draws, and the tests of the cap and of the order
(spec/43_candidate_generation.md R216). -/
def pqrRoundSteps (d : Desc) : Nat := primeLeft d (.attempt 0) + 7

/-- The steps left in one round of GENPQR, but for `round`, which begins the next. -/
def pqrStageLeft (d : Desc) : PqrStage → Nat
  | .round => 0
  | .prime ps => primeLeft d ps + 6
  | .qLength _ => 5
  | .qValue _ _ => 4
  | .rLength _ _ => 3
  | .rValue _ _ _ => 2
  | .judge _ _ _ => 1

/-- The steps left to GENPQR with `outer` rounds begun. -/
def pqrLeft (d : Desc) (outer : Nat) (st : PqrStage) : Nat :=
  (d.attemptCap.toNat - outer) * pqrRoundSteps d + pqrStageLeft d st

/-- The steps left to GENPQR. -/
def genpqrLeft (d : Desc) : Progress → Nat
  | .pqr outer _ st => pqrLeft d outer st
  | _ => pqrLeft d 0 .round + 1

/-- The steps left to EMBED: per message byte its read, and a read and a write of each of nine slots
(spec/44_lsb_codec.md R246). -/
def embedLeft (d : Desc) : Progress → Nat
  | .embedByte j => 19 * (d.msgLen.toNat - j)
  | .embedRead j i _ => 19 * (d.msgLen.toNat - (j + 1)) + 2 * (8 - i) + 2
  | .embedWrite j i _ _ => 19 * (d.msgLen.toNat - (j + 1)) + 2 * (8 - i) + 1
  | _ => 19 * d.msgLen.toNat + 1

/-- The steps left to EXTRACT: per group its beginning, nine reads and a write (spec/44_lsb_codec.md R248). -/
def extractLeft (d : Desc) : Progress → Nat
  | .extractGroup j _ => 11 * (groupCount d - j)
  | .extractRead j i _ _ => 11 * (groupCount d - (j + 1)) + (8 - i) + 2
  | .extractStore j _ _ _ => 11 * (groupCount d - (j + 1)) + 1
  | .extractDone _ => 0
  | _ => 11 * groupCount d + 1

/-- The steps a command has left after its next one, at most. -/
def stepsLeft (d : Desc) : Instr → Progress → Nat
  | .primetest _ => primetestLeft d
  | .genprime _ => genprimeLeft d
  | .genrand _ => genrandLeft
  | .genpqr _ _ _ => genpqrLeft d
  | .embed => embedLeft d
  | .extract => extractLeft d
  | _ => fun _ => 0

/-! ## One step of each rule -/

/-- Beginning one more of `cap` rounds of `w` steps. -/
theorem sub_mul_of_lt {cnt cap : Nat} (h : cnt < cap) (w : Nat) : (cap - cnt) * w = (cap - (cnt + 1)) * w + w := by
  rw [← Nat.succ_mul, Nat.succ_eq_add_one, show cap - (cnt + 1) + 1 = cap - cnt by omega]

/-- A step of `gen_prime()` that goes on leaves fewer steps (spec/43_candidate_generation.md R212). -/
theorem primeLeft_goOn {d : Desc} {st st' : PrimeStage} {s : State} (h : primeEvent d st s = .goOn st') :
    primeLeft d st' < primeLeft d st := by
  cases st with
  | attempt cnt =>
    simp only [primeEvent] at h
    split at h
    next hcap =>
      cases h
      have := sub_mul_of_lt hcap (d.rounds.toNat + 3)
      simp only [primeLeft]
      omega
    next => cases h
  | length cnt len =>
    cases h
    simp only [primeLeft]
    omega
  | testing cnt c passed =>
    simp only [primeEvent] at h
    split at h
    next => cases h
    next =>
      cases h
      simp only [primeLeft]
      omega
    next hv =>
      cases h
      have := (fermatVerdict_eq_none hv).2.1
      simp only [primeLeft]
      omega

section Rules

variable (r : Running) (s : State)

theorem primetestRule_leavesFewer (ra : Reg) :
    LeavesFewer (primetestLeft r.snap.desc) r.progress (primetestRule ra r s) := by
  unfold primetestRule
  dsimp only
  split
  · exact .of_idle rfl
  next hv =>
    have hround := (fermatVerdict_eq_none hv).2.1
    refine setProgress_leavesFewer ?_
    simp only [primetestLeft, fermatRounds] at hround ⊢
    omega

theorem genprimeRule_leavesFewer (rd : Reg) :
    LeavesFewer (genprimeLeft r.snap.desc) r.progress (genprimeRule rd r s) := by
  unfold genprimeRule
  dsimp only
  split
  next st hp =>
    rw [hp]
    split
    next hgo => exact setProgress_leavesFewer (primeLeft_goOn hgo)
    next => exact .of_idle rfl
    next => exact .of_idle rfl
  next hother =>
    refine .ite (fun _ => setProgress_leavesFewer ?_) fun _ => .of_idle rfl
    rw [genprimeLeft, genprimeLeft]
    · exact Nat.lt_succ_self _
    · exact hother

theorem genrandRule_leavesFewer (rd : Reg) : LeavesFewer genrandLeft r.progress (genrandRule rd r s) := by
  unfold genrandRule
  dsimp only
  split
  next hp =>
    rw [hp]
    exact setProgress_leavesFewer Nat.zero_lt_one
  next => exact .of_idle rfl
  next hlength hvalue =>
    refine .ite (fun _ => setProgress_leavesFewer ?_) fun _ => .of_idle rfl
    rw [genrandLeft, genrandLeft]
    · exact Nat.one_lt_two
    · exact hlength
    · exact hvalue

/-- Past its configuration check, GENPQR begins a round, goes on in it, or ends (spec/43_candidate_generation.md R216). -/
theorem pqrRule_leavesFewer (rd ra rb : Reg) (d : Desc) (outer total : Nat) (st : PqrStage) :
    LeavesFewer (genpqrLeft d) (.pqr outer total st) (pqrRule rd ra rb d outer total st s) := by
  have hstage {total' : Nat} {st' : PqrStage} {t : State} (h : pqrStageLeft d st' < pqrStageLeft d st) :
      LeavesFewer (genpqrLeft d) (.pqr outer total st) (setProgress (.pqr outer total' st') t) :=
    setProgress_leavesFewer (Nat.add_lt_add_left h _)
  cases st with
  | round =>
    refine .ite (fun hcap => setProgress_leavesFewer ?_) fun _ => .of_idle rfl
    have := sub_mul_of_lt hcap (pqrRoundSteps d)
    simp only [genpqrLeft, pqrLeft, pqrStageLeft]
    rw [this, pqrRoundSteps]
    omega
  | prime ps =>
    unfold pqrRule
    dsimp only
    split
    next hgo => exact hstage (Nat.add_lt_add_right (primeLeft_goOn hgo) 6)
    next => exact hstage (by simp only [pqrStageLeft]; omega)
    next => exact .of_idle rfl
  | qLength | qValue | rLength | rValue => exact hstage (Nat.lt_succ_self _)
  | judge => exact .ite (fun _ => .of_idle rfl) fun _ => hstage Nat.zero_lt_one

theorem genpqrRule_leavesFewer (rd ra rb : Reg) :
    LeavesFewer (genpqrLeft r.snap.desc) r.progress (genpqrRule rd ra rb r s) := by
  unfold genpqrRule
  dsimp only
  split
  next hp =>
    rw [hp]
    exact pqrRule_leavesFewer s rd ra rb _ _ _ _
  next hother =>
    refine .ite (fun _ => setProgress_leavesFewer ?_) fun _ => .of_idle rfl
    rw [genpqrLeft, genpqrLeft]
    · exact Nat.lt_succ_self _
    · exact hother

theorem embedRule_leavesFewer : LeavesFewer (embedLeft r.snap.desc) r.progress (embedRule r s) := by
  unfold embedRule
  dsimp only
  split
  case h_1 hp =>
    rw [hp]
    refine .ite (fun hj => ?_) fun _ => .of_idle rfl
    split
    · exact setProgress_leavesFewer (by simp only [embedLeft]; omega)
    · exact .of_idle rfl
  case h_2 hp =>
    rw [hp]
    split
    · exact setProgress_leavesFewer (Nat.lt_succ_self _)
    · exact .of_idle rfl
  case h_3 hp =>
    rw [hp]
    split
    next =>
      refine setProgress_leavesFewer ?_
      split <;> simp only [embedLeft] <;> omega
    next => exact .of_idle rfl
  case h_4 hbyte hread hwrite =>
    refine .ite (fun _ => .of_idle rfl) fun _ => .ite (fun _ => .of_idle rfl) fun _ => .ite (fun _ => .of_idle rfl)
      fun _ => setProgress_leavesFewer ?_
    rw [embedLeft, embedLeft]
    · exact Nat.lt_succ_self _
    · exact hbyte
    · exact hread
    · exact hwrite

theorem extractRule_leavesFewer : LeavesFewer (extractLeft r.snap.desc) r.progress (extractRule r s) := by
  unfold extractRule
  dsimp only
  split
  case h_1 hp =>
    rw [hp]
    refine .ite (fun hj => setProgress_leavesFewer ?_) fun _ => .of_idle rfl
    simp only [extractLeft]
    omega
  case h_2 hp =>
    rw [hp]
    split
    next =>
      refine setProgress_leavesFewer ?_
      split <;> simp only [extractLeft] <;> omega
    next => exact .of_idle rfl
  case h_3 hp =>
    rw [hp]
    refine .ite (fun _ => .of_idle rfl) fun _ => ?_
    split
    next =>
      refine setProgress_leavesFewer ?_
      split <;> simp only [extractLeft] <;> omega
    next => exact .of_idle rfl
  case h_4 => exact .of_idle rfl
  case h_5 hgroup hread hstore hdone =>
    refine .ite (fun _ => .of_idle rfl) fun _ => .ite (fun _ => .of_idle rfl) fun _ => setProgress_leavesFewer ?_
    rw [extractLeft, extractLeft]
    · exact Nat.lt_succ_self _
    · exact hgroup
    · exact hread
    · exact hstore
    · exact hdone

end Rules

/-- One step of a command's rule leaves fewer steps, or none. -/
theorem commandRule_leavesFewer (i : Instr) (r : Running) (s : State) :
    LeavesFewer (stepsLeft r.snap.desc i) r.progress (commandRule i r s) := by
  cases i with
  | nop | clr | modexp | modmul | montmul | egcd | modinv => exact .of_idle (commandRule_oneStep rfl r s).1
  | primetest ra => exact primetestRule_leavesFewer r s ra
  | genprime rd => exact genprimeRule_leavesFewer r s rd
  | genrand rd => exact genrandRule_leavesFewer r s rd
  | genpqr rd ra rb => exact genpqrRule_leavesFewer r s rd ra rb
  | embed => exact embedRule_leavesFewer r s
  | extract => exact extractRule_leavesFewer r s

/-! ## One turn -/

/-- So does an engine step of it, asked to abort or not: an abort ends the command, and a lost race is a step of the
rule. -/
theorem engineStep_leavesFewer (i : Instr) (r : Running) (s : State) :
    LeavesFewer (stepsLeft r.snap.desc i) r.progress (engineStep (commandAbort i) (commandRule i) r s) := by
  rcases engineStep_cases (onAbort := commandAbort i) (rule := commandRule i) r s with ⟨_, e⟩ | ⟨_, _, e⟩ | ⟨_, _, e⟩ <;>
    rw [e]
  · exact commandRule_leavesFewer i r s
  · exact .of_idle (commandAbort_completes i _).run
  · exact commandRule_leavesFewer i r _

/-- A command that goes on keeps its snapshot, so that its steps are counted against the same descriptors
(spec/10_state.md R47). -/
theorem engineStep_stepsLeft (i : Instr) {r r' : Running} {s : State} (hr : s.run = some r)
    (hr' : (engineStep (commandAbort i) (commandRule i) r s).run = some r') :
    stepsLeft r'.snap.desc i r'.progress < stepsLeft r.snap.desc i r.progress := by
  have hgoes : Continues s (engineStep (commandAbort i) (commandRule i) r s) :=
    (engineStep_goesOnOrCompletes i r s).resolve_right fun hc => absurd (hr'.symm.trans hc.run) nofun
  have hsnap : r'.snap = r.snap := by simpa [hr, hr'] using hgoes.snap
  rw [hsnap]
  exact engineStep_leavesFewer i r s r' hr'

/-- Both dimensions of the pixels are 32-bit (spec/44_lsb_codec.md R241). -/
theorem groupCount_lt (d : Desc) : groupCount d < 2 ^ 64 := by
  have harea : d.pixHeight.toNat * d.pixWidth.toNat ≤ 2 ^ 32 * 2 ^ 32 :=
    Nat.mul_le_mul d.pixHeight.isLt.le d.pixWidth.isLt.le
  rw [groupCount, slotCount, Nat.mul_assoc]
  omega

/-- A command just accepted has fewer steps to make than the turn grants (spec/70_reset_and_hazards.md R342; log 10). -/
theorem stepsLeft_fresh_lt (d : Desc) (i : Instr) : stepsLeft d i .fresh < Config.maxEngineSteps := by
  rw [Config.maxEngineSteps]
  cases i with
  | nop | clr | modexp | modmul | montmul | egcd | modinv => exact Nat.two_pow_pos 100
  | primetest =>
    have hrounds : d.rounds.toNat < 2 ^ 32 := d.rounds.isLt
    show d.rounds.toNat < 2 ^ 100
    omega
  | genprime =>
    have hprime := primeSteps_le d.attemptCap d.rounds
    show d.attemptCap.toNat * (d.rounds.toNat + 3) + 1 < 2 ^ 100
    omega
  | genrand =>
    show 2 < 2 ^ 100
    norm_num
  | genpqr =>
    have hpqr := pqrSteps_le d.attemptCap d.rounds
    show d.attemptCap.toNat * (d.attemptCap.toNat * (d.rounds.toNat + 3) + 7) + 1 < 2 ^ 100
    omega
  | embed =>
    have hlen : d.msgLen.toNat < 2 ^ 32 := d.msgLen.isLt
    show 19 * d.msgLen.toNat + 1 < 2 ^ 100
    omega
  | extract =>
    have hgroups := groupCount_lt d
    show 11 * groupCount d + 1 < 2 ^ 100
    omega

/-- Settles O58: every engine step leaves fewer steps, whatever is drawn and whoever wins a race. -/
theorem everyCommandTerminates : Obligations.EveryCommandTerminates := by
  unfold Obligations.EveryCommandTerminates
  intro i s r hr hfresh hturn
  have hend : (runCommand (commandAbort i) (commandRule i) s).run = none := by
    rw [runCommand_running hr, hturn]
    refine runSteps_ends (left := fun r => stepsLeft r.snap.desc i r.progress)
      (fun _ _ hu _ => engineStep_stepsLeft i hu) _ _ fun r' hr' => ?_
    cases hr.symm.trans hr'
    rw [hfresh]
    exact stepsLeft_fresh_lt _ i
  exact ⟨_, exec_eq_runCommand i s, hend, (errorWritesNoResult i s _ r hr (exec_eq_runCommand i s) hend).1⟩

end Sys2Proof.Machine
end
